-- ==== Sys2Proof/Word.lean ====
section
/-!
DEFINITION. The word types of CABAC-BD's ports: command words and response values (R30, R31, R70), context indices
(R27, R55), opcodes (R70), and the ports' narrower words (R76, R77). They are plain bit vectors; bit 0 is the least
significant bit (R8).
-/

namespace Sys2Proof

/-- A 32-bit command word or response value (R70, R78; CMD_W and VALUE_W of R7). -/
abbrev Word := BitVec 32

/-- A context index, 0..1023 (R27, R55; NUM_CTX of R7). -/
abbrev CtxIdx := BitVec 10

/-- The opcode field of a command word (R70). -/
abbrev Opcode := BitVec 6

/-- A CSEL answer word (R76). -/
abbrev CselAnswer := BitVec 12

/-- A CSEL request word (R77). DEDUCED: 20_memory.md R58 calls the CSEL words "32-bit or narrower", while 30_encoding.md R77 lays
the request out in 39 bits; the model takes R77's 39 bits, without which PREV could not be sent whole (log entry 18). -/
abbrev CselRequest := BitVec 39

end Sys2Proof
end

