-- ==== Sys2Proof/Syntax.lean ====
section
/-!
DEFINITION. The commands of command set 1: one constructor per row of spec/opcode_table.json, with the operand fields of
R71. Operand values keep the widths of R71; the reserved values IA = 3 and IB = 3 are excluded by WellFormed.lean.
-/

namespace Sys2Proof

/-- The commands (R74). Field names follow R71. -/
inductive Instr where
  /-- CTXINIT QP, SEL (R119): QP is the raw 7-bit field, two's complement. -/
  | ctxinit (qp : BitVec 7) (sel : BitVec 2)
  /-- ALIGN F (R101): F is the value every skipped bit must have. -/
  | align (f : Bool)
  /-- ENGINIT (R100). -/
  | enginit
  /-- DEC CTX (R102). -/
  | dec (ctx : CtxIdx)
  /-- BYP (R103). -/
  | byp
  /-- TRM (R104). -/
  | trm
  /-- U (R134). -/
  | u
  /-- TU CMAX (R135). -/
  | tu (cmax : BitVec 16)
  /-- FL CMAX (R136). -/
  | fl (cmax : BitVec 16)
  /-- UEGK S, K, UC (R137). -/
  | uegk (sgn : Bool) (k : BitVec 4) (uc : BitVec 8)
  /-- QPD (R138). -/
  | qpd
  /-- CBP CAT (R139). -/
  | cbp (cat : BitVec 2)
  /-- MBT.I IA (R162). -/
  | mbtI (ia : BitVec 2)
  /-- MBT.SI IA, IB (R163). -/
  | mbtSI (ia : BitVec 2) (ib : BitVec 2)
  /-- MBT.P (R164). -/
  | mbtP
  /-- MBT.B IA (R165). -/
  | mbtB (ia : BitVec 2)
  /-- SMBT.P (R166). -/
  | smbtP
  /-- SMBT.B (R167). -/
  | smbtB
  /-- CTXRD CTX (R176). -/
  | ctxrd (ctx : CtxIdx)
  /-- STATRD (R175). -/
  | statrd
deriving DecidableEq, Repr

end Sys2Proof
end

