-- ==== Sys2Proof/WellFormed.lean ====
section
/-!
DEFINITION. Well-formed commands (R72): no IA or IB field holds the reserved value 3. Every other operand value a field
can hold is legal, and the operand types hold exactly those values.
-/

namespace Sys2Proof

/-- A neighbour increment is 0, 1 or 2; the value 3 is reserved (R72, R160). -/
def incrementOk (inc : BitVec 2) : Bool := inc != 3#2

/-- The operand checks of R72 on a command. -/
def Instr.wellFormed : Instr → Bool
  | .ctxinit _ _ => true
  | .align _ => true
  | .enginit => true
  | .dec _ => true
  | .byp => true
  | .trm => true
  | .u => true
  | .tu _ => true
  | .fl _ => true
  | .uegk _ _ _ => true
  | .qpd => true
  | .cbp _ => true
  | .mbtI ia => incrementOk ia
  | .mbtSI ia ib => incrementOk ia && incrementOk ib
  | .mbtP => true
  | .mbtB ia => incrementOk ia
  | .smbtP => true
  | .smbtB => true
  | .ctxrd _ => true
  | .statrd => true

end Sys2Proof
end

