-- ==== Sys2Proof/Decode.lean ====
section
/-!
DEFINITION. Decoding and encoding of command words (R70 to R79). Decoding is total: every 32-bit word is one command, or
is rejected with the name of the reason. The encoder is written from the match values and field positions of R71 and R74.
-/

namespace Sys2Proof

/-- Why a word is not well formed (R72, R75). All three raise InvalidDerivationRequest when the word executes. -/
inductive DecodeError where
  /-- The opcode is not in the map of R74. -/
  | reservedOpcode
  /-- A reserved operand bit is not 0. -/
  | reservedOperandBit
  /-- An IA or IB field holds 3. -/
  | reservedIncrement
deriving DecidableEq, Repr

/-- The opcode field w[31:26] (R70). -/
def opcodeField (w : Word) : Opcode := w.extractLsb' 26 6

/-- `i` when the operand bits `resv` that no field occupies are 0 (R71, R72). -/
def checkReserved {n : Nat} (resv : BitVec n) (i : Instr) : Except DecodeError Instr :=
  if resv = 0#n then .ok i else .error .reservedOperandBit

/-- `i` when it meets the increment checks of R72 too. -/
def checkIncrement (i : Instr) : Except DecodeError Instr :=
  if i.wellFormed then .ok i else .error .reservedIncrement

/-- The command a word is, by the formats of R71 and the map of R74; the opcode's row, then its reserved bits, then its
increments. -/
def decode (w : Word) : Except DecodeError Instr :=
  match (opcodeField w).toNat with
  | 0x01 => checkReserved (w.extractLsb' 9 17) (.ctxinit (w.extractLsb' 0 7) (w.extractLsb' 7 2))
  | 0x02 => checkReserved (w.extractLsb' 1 25) (.align (w.getLsbD 0))
  | 0x03 => checkReserved (w.extractLsb' 0 26) .enginit
  | 0x04 => checkReserved (w.extractLsb' 10 16) (.dec (w.extractLsb' 0 10))
  | 0x05 => checkReserved (w.extractLsb' 0 26) .byp
  | 0x06 => checkReserved (w.extractLsb' 0 26) .trm
  | 0x08 => checkReserved (w.extractLsb' 0 26) .u
  | 0x09 => checkReserved (w.extractLsb' 16 10) (.tu (w.extractLsb' 0 16))
  | 0x0A => checkReserved (w.extractLsb' 16 10) (.fl (w.extractLsb' 0 16))
  | 0x0B => checkReserved (w.extractLsb' 13 13) (.uegk (w.getLsbD 0) (w.extractLsb' 1 4) (w.extractLsb' 5 8))
  | 0x0C => checkReserved (w.extractLsb' 0 26) .qpd
  | 0x0D => checkReserved (w.extractLsb' 2 24) (.cbp (w.extractLsb' 0 2))
  | 0x10 => (checkReserved (w.extractLsb' 2 24) (.mbtI (w.extractLsb' 0 2))).bind checkIncrement
  | 0x11 => (checkReserved (w.extractLsb' 4 22) (.mbtSI (w.extractLsb' 0 2) (w.extractLsb' 2 2))).bind checkIncrement
  | 0x12 => checkReserved (w.extractLsb' 0 26) .mbtP
  | 0x13 => (checkReserved (w.extractLsb' 2 24) (.mbtB (w.extractLsb' 0 2))).bind checkIncrement
  | 0x14 => checkReserved (w.extractLsb' 0 26) .smbtP
  | 0x15 => checkReserved (w.extractLsb' 0 26) .smbtB
  | 0x3C => checkReserved (w.extractLsb' 10 16) (.ctxrd (w.extractLsb' 0 10))
  | 0x3D => checkReserved (w.extractLsb' 0 26) .statrd
  | _ => .error .reservedOpcode

/-- The opcode of a command (R74). -/
def opcode : Instr → Opcode
  | .ctxinit _ _ => 0x01#6
  | .align _ => 0x02#6
  | .enginit => 0x03#6
  | .dec _ => 0x04#6
  | .byp => 0x05#6
  | .trm => 0x06#6
  | .u => 0x08#6
  | .tu _ => 0x09#6
  | .fl _ => 0x0A#6
  | .uegk _ _ _ => 0x0B#6
  | .qpd => 0x0C#6
  | .cbp _ => 0x0D#6
  | .mbtI _ => 0x10#6
  | .mbtSI _ _ => 0x11#6
  | .mbtP => 0x12#6
  | .mbtB _ => 0x13#6
  | .smbtP => 0x14#6
  | .smbtB => 0x15#6
  | .ctxrd _ => 0x3C#6
  | .statrd => 0x3D#6

/-- A field value placed with its bit 0 at bit `lo` of a command word. -/
def place {n : Nat} (v : BitVec n) (lo : Nat) : Word := v.setWidth 32 <<< lo

/-- A one-bit field value placed at bit 0 of a command word. -/
def placeBit (b : Bool) : Word := if b then 1#32 else 0#32

/-- The word of a command: the row's match value of R74 with the operand fields of R71 in place. -/
def encode : Instr → Word
  | .ctxinit qp sel => 0x04000000#32 ||| place sel 7 ||| place qp 0
  | .align f => 0x08000000#32 ||| placeBit f
  | .enginit => 0x0C000000#32
  | .dec ctx => 0x10000000#32 ||| place ctx 0
  | .byp => 0x14000000#32
  | .trm => 0x18000000#32
  | .u => 0x20000000#32
  | .tu cmax => 0x24000000#32 ||| place cmax 0
  | .fl cmax => 0x28000000#32 ||| place cmax 0
  | .uegk sgn k uc => 0x2C000000#32 ||| place uc 5 ||| place k 1 ||| placeBit sgn
  | .qpd => 0x30000000#32
  | .cbp cat => 0x34000000#32 ||| place cat 0
  | .mbtI ia => 0x40000000#32 ||| place ia 0
  | .mbtSI ia ib => 0x44000000#32 ||| place ib 2 ||| place ia 0
  | .mbtP => 0x48000000#32
  | .mbtB ia => 0x4C000000#32 ||| place ia 0
  | .smbtP => 0x50000000#32
  | .smbtB => 0x54000000#32
  | .ctxrd ctx => 0xF0000000#32 ||| place ctx 0
  | .statrd => 0xF4000000#32

/-- The mask of a command's row in R74: the opcode and every reserved operand bit. -/
def rowMask : Instr → Word
  | .ctxinit _ _ => 0xFFFFFE00#32
  | .align _ => 0xFFFFFFFE#32
  | .enginit => 0xFFFFFFFF#32
  | .dec _ => 0xFFFFFC00#32
  | .byp => 0xFFFFFFFF#32
  | .trm => 0xFFFFFFFF#32
  | .u => 0xFFFFFFFF#32
  | .tu _ => 0xFFFF0000#32
  | .fl _ => 0xFFFF0000#32
  | .uegk _ _ _ => 0xFFFFE000#32
  | .qpd => 0xFFFFFFFF#32
  | .cbp _ => 0xFFFFFFFC#32
  | .mbtI _ => 0xFFFFFFFC#32
  | .mbtSI _ _ => 0xFFFFFFF0#32
  | .mbtP => 0xFFFFFFFF#32
  | .mbtB _ => 0xFFFFFFFC#32
  | .smbtP => 0xFFFFFFFF#32
  | .smbtB => 0xFFFFFFFF#32
  | .ctxrd _ => 0xFFFFFC00#32
  | .statrd => 0xFFFFFFFF#32

/-- The command in a word of `nbits` bits whose value is `w`, numbered as spec/opcode_table.json numbers them; every bit
at `nbits` and above is 0. A command word arrives whole on a parallel port, so no byte order enters (R58, R82). -/
def decodeTableWord (nbits w : Nat) : Option Instr :=
  match decode (BitVec.ofNat 32 (w % 2 ^ nbits)) with
  | .ok i => some i
  | .error _ => none

end Sys2Proof
end

