-- ==== Sys2Proof/Config.lean ====
section
/-!
DEFINITION. What the spec leaves to the implementation: the contents of the context-initialization ROM (an OPEN parameter,
R7, R35, D17), and the values the spec calls unspecified after a fault (R186, U1, U2). All are opaque: no proof can see a
value of theirs, so what is proved holds whatever they are. The parameters with a fixed value in R7 are in
Machine/Tables.lean.
-/

namespace Sys2Proof.Config

/-- The contents of CTX_INIT_ROM (R7, R35, R57): entry `sel * 1024 + ctxIdx` holds the signed bytes (m, n). The spec leaves
them OPEN (D17, U4). Log entry 1. -/
opaque ctxInitRom : Vector (BitVec 8 × BitVec 8) 4096

/-- FREE VALUE: codIRange after the `n`-th event that leaves it unspecified (R186, U1). Log entry 2. -/
opaque freeRange : Nat → BitVec 9

/-- FREE VALUE: codIOffset after the `n`-th event that leaves it unspecified (R186, U1). Log entry 2. -/
opaque freeOffset : Nat → BitVec 9

/-- FREE VALUE: context store entry `i`, as its 7 bits, after the `n`-th event that leaves the store unspecified
(R186, R210, U2, U3). Log entry 2. -/
opaque freeCtx : Nat → Nat → BitVec 7

end Sys2Proof.Config
end

