-- ==== Sys2Proof/Machine/Types.lean ====
section
/-!
DEFINITION. The data types of the machine's state and of its messages: engine states, fault codes, context variables, bin
kinds, responses, ports, and the prefix-code trees as data (R170). Plain data only; their bit codes and meanings are in
Flags.lean and Operands.lean.
-/

namespace Sys2Proof.Machine

/-- The engine states of R24; code 3 is never held. -/
inductive EngState where
  /-- 0: not primed since reset, CTXINIT or a fault. -/
  | uninit
  /-- 1: primed and decoding. -/
  | active
  /-- 2: a terminate bin of 1 ended arithmetic decoding. -/
  | terminated
deriving DecidableEq, Repr

/-- The fault codes of R180; codes 6 and 7 are never held or reported. -/
inductive FaultCode where
  /-- 0: no fault. -/
  | none
  /-- 1: the bit source ran out of data (R181). -/
  | streamExhaustion
  /-- 2: a value required to equal a constant does not (R182). -/
  | structuralViolation
  /-- 3: a loop reached its ceiling (R183). -/
  | unboundedLoopDetected
  /-- 4: never raised (R184). -/
  | unsupportedFeature
  /-- 5: a contract violation by the host (R185). -/
  | invalidDerivationRequest
deriving DecidableEq, Repr

/-- A context variable (R110): one entry of the context store. -/
structure CtxVar where
  /-- The probability state index, 0..63. -/
  pStateIdx : BitVec 6
  /-- The most probable symbol. -/
  valMPS : Bool
deriving DecidableEq, Repr

/-- A bin kind (R10): how one bin is decoded. -/
inductive BinKind where
  /-- A context-driven decision on context store entry `c`. -/
  | dec (c : CtxIdx)
  /-- A bypass bin. -/
  | byp
  /-- A terminate bin. -/
  | trm
deriving DecidableEq, Repr

/-- One response on the response port (R31, R78). -/
structure Response where
  /-- A fault code, 0 for OK. -/
  status : BitVec 3
  /-- The value, two's complement. -/
  value : Word
deriving DecidableEq, Repr

/-- A port on which the block can wait in the middle of a command (R32, U7). -/
inductive Port where
  /-- The bit port (R33). -/
  | bit
  /-- The context-select port (R34). -/
  | csel
deriving DecidableEq, Repr

/-- What the bit source does once it has delivered its last bit. -/
inductive BitEnd where
  /-- It answers EXHAUSTED (R33, R50). -/
  | exhausted
  /-- It never answers another `bit` request (R32, U7); whether it answers `aligned?` is `State.alignsLeft`. -/
  | silent
deriving DecidableEq, Repr

/-- A prefix code as a binary decision table (R170): at a node one bin of the given kind is decoded and its value selects
the branch; a leaf is a codeword's value. -/
inductive BinTree where
  | leaf (value : Nat)
  | node (kind : BinKind) (zero one : BinTree)
deriving DecidableEq, Repr

end Sys2Proof.Machine
end

