-- ==== Sys2Proof/Machine/State.lean ====
section
/-!
DEFINITION. The machine's state as plain data (10_state.md), the reasons a step can stop, and the state after reset (R210).
The first six fields are the block's registers and its context store; `rom` is its ROM; the fields after it are the other
sides of its ports (what the bit source will deliver, what the host has sent and will answer, what the block has sent); the
last is the model's own counter for free values.
-/

namespace Sys2Proof.Machine

/-- Reasons for which a step stops with a fault. THERE IS NONE: every fault of the spec is a next state (fault entry,
R186), and a port that never answers is a next state that holds (R32, U7; field `wait`). Nobody raises one; an empty
type is safe. -/
inductive Fault where
deriving DecidableEq, Repr

/-- Reasons for which an instruction has no meaning. -/
inductive Refusal where
  /-- Raised only by an arm of `exec` whose instruction has no meaning yet, under its mnemonic; no arm is left that
  does. Safe: the machine stops. -/
  | notModelled (mnemonic : String)
deriving DecidableEq, Repr

/-- The state of the block and of its ports. -/
structure State where
  /-- The width of the current arithmetic interval (R22). -/
  codIRange : BitVec 9
  /-- The offset of the read point within the interval (R23). -/
  codIOffset : BitVec 9
  /-- The engine's state (R24). -/
  engState : EngState
  /-- Every context store entry holds a value written by CTXINIT or a later decision bin (R25). -/
  ctxValid : Bool
  /-- The code of the first fault since the last CTXINIT (R26). -/
  FAULT : FaultCode
  /-- The context store (R27). -/
  ctx : Vector CtxVar 1024
  /-- CTX_INIT_ROM (R35, R57): entry `sel * 1024 + ctxIdx`, the signed bytes (m, n). No command writes it. -/
  rom : Vector (BitVec 8 × BitVec 8) 4096
  /-- The bits the bit source has yet to deliver, first bit first (R50, R51). -/
  bits : List Bool
  /-- The bit source's position: bits taken from the current RBSP so far (R36). -/
  pos : Nat
  /-- What the bit source does when `bits` is empty (R50, U7). -/
  bitEnd : BitEnd
  /-- How many more `aligned?` requests the bit source answers (R32, R33, U7); none: every one (log entry 5). -/
  alignsLeft : Option Nat
  /-- The command words the host has presented and the block has not taken, first one first (R21, R30). -/
  cmds : List Word
  /-- The responses the block has put on the response port, oldest first (R31): all delivered but the last, while `rspHeld`. -/
  rsps : List Response
  /-- The host has not yet taken the last of `rsps`: its command is still in progress, and the block not idle (R30, R32). -/
  rspHeld : Bool
  /-- The host's coming CSEL answers, first one first (R34, R76). -/
  cselAns : List CselAnswer
  /-- The CSEL requests the block has sent, oldest first (R34, R77). -/
  cselReqs : List CselRequest
  /-- The port on which the command in progress waits for an answer that never comes (R32, U7). -/
  wait : Option Port
  /-- The model's own: how many times unspecified values were taken (log entry 2). -/
  freeCount : Nat
deriving DecidableEq, Repr

/-- The context store after power-on reset: (0, 0) in every entry, named by the model where the spec gives no value (R27,
U3; log entry 3). Irreducible, so that comparing states never unfolds 1024 entries. -/
@[irreducible] def resetCtx : Vector CtxVar 1024 := Vector.replicate 1024 ⟨0, false⟩

/-- The state after power-on reset (R210): the values of R22 to R26; the block idle; no port has carried anything. The
context store's reset value is unspecified (R27, U3); the model names (0, 0) for every entry (log entry 3). -/
def State.reset : State where
  codIRange := 0
  codIOffset := 0
  engState := .uninit
  ctxValid := false
  FAULT := .none
  ctx := resetCtx
  rom := Config.ctxInitRom
  bits := []
  pos := 0
  bitEnd := .exhausted
  alignsLeft := none
  cmds := []
  rsps := []
  rspHeld := false
  cselAns := []
  cselReqs := []
  wait := none
  freeCount := 0

end Sys2Proof.Machine
end

