-- ==== Sys2Proof/Machine/Flags.lean ====
section
/-!
DEFINITION. The control state as bits and as conditions: the codes of engState and FAULT (R24, R180), the STATUS word (R28),
which commands a pending fault refuses (R187), and the precondition table of R188.
-/

namespace Sys2Proof.Machine

/-- The 2-bit code of an engine state (R24). -/
def engCode : EngState → BitVec 2
  | .uninit => 0#2
  | .active => 1#2
  | .terminated => 2#2

/-- The 3-bit code of a fault (R180). -/
def faultCode : FaultCode → BitVec 3
  | .none => 0#3
  | .streamExhaustion => 1#3
  | .structuralViolation => 2#3
  | .unboundedLoopDetected => 3#3
  | .unsupportedFeature => 4#3
  | .invalidDerivationRequest => 5#3

/-- The STATUS word (R28, R175): codIRange in [8:0], codIOffset in [17:9], engState in [19:18], ctxValid in [20], FAULT in
[23:21], 0 above. -/
def statusWord (s : State) : Word :=
  s.codIRange.setWidth 32 ||| (s.codIOffset.setWidth 32 <<< 9) ||| ((engCode s.engState).setWidth 32 <<< 18)
    ||| ((BitVec.ofBool s.ctxValid).setWidth 32 <<< 20) ||| ((faultCode s.FAULT).setWidth 32 <<< 21)

/-- Whether a pending fault refuses a command with this opcode field: all but CTXINIT and STATRD (R187). -/
def isRefused (opc : Opcode) (s : State) : Bool :=
  s.FAULT != .none && opc != 0x01#6 && opc != 0x3D#6

/-- The engine is ACTIVE. -/
def engActive (s : State) : Bool := s.engState == .active

/-- The engState and ctxValid conditions of a command, by the table of R188. -/
def precondition : Instr → State → Bool
  | .ctxinit _ _, _ => true
  | .align _, s => !engActive s
  | .enginit, s => !engActive s
  | .dec _, s => engActive s && s.ctxValid
  | .byp, s => engActive s
  | .trm, s => engActive s
  | .u, s => engActive s && s.ctxValid
  | .tu _, s => engActive s && s.ctxValid
  | .fl _, s => engActive s && s.ctxValid
  | .uegk _ _ _, s => engActive s && s.ctxValid
  | .qpd, s => engActive s && s.ctxValid
  | .cbp _, s => engActive s && s.ctxValid
  | .mbtI _, s => engActive s && s.ctxValid
  | .mbtSI _ _, s => engActive s && s.ctxValid
  | .mbtP, s => engActive s && s.ctxValid
  | .mbtB _, s => engActive s && s.ctxValid
  | .smbtP, s => engActive s && s.ctxValid
  | .smbtB, s => engActive s && s.ctxValid
  | .ctxrd _, s => s.ctxValid
  | .statrd, _ => true

end Sys2Proof.Machine
end

