-- ==== Sys2Proof/Machine/Operands.lean ====
section
/-!
DEFINITION. Operand values (R71 to R73), the context store's entry packing (R55), and the port words a command exchanges with
the host (R76, R77).
-/

namespace Sys2Proof.Machine

/-- Clip3(lo, hi, v) of R8. -/
def clip3 (lo hi v : Int) : Int := if v < lo then lo else if v > hi then hi else v

/-- The value of CTXINIT's QP field: sign-extended, -64..63 (R72). -/
def qpValue (qp : BitVec 7) : Int := qp.toInt

/-- The ctxIdx `off + inc` (R12): a context offset and an increment. -/
def ctxIdxOf (off inc : Nat) : CtxIdx := BitVec.ofNat 10 (off + inc)

/-- The place in CTX_INIT_ROM of entry (initSel, ctxIdx) (R57). -/
def romIndex (sel : BitVec 2) (i : CtxIdx) : Nat := sel.toNat * 1024 + i.toNat

/-- The pair (m, n) that CTX_INIT_ROM holds for (initSel, ctxIdx), as signed integers (R57, R117). -/
def romEntry (rom : Vector (BitVec 8 × BitVec 8) 4096) (sel : BitVec 2) (i : CtxIdx) : Int × Int :=
  let e := rom[romIndex sel i]'(by
    have hs : sel.toNat < 4 := sel.isLt
    have hi : i.toNat < 1024 := i.isLt
    unfold romIndex
    omega)
  (e.1.toInt, e.2.toInt)

/-- The 7 bits of a context store entry: pStateIdx in [5:0], valMPS in [6] (R55). -/
def packCtx (v : CtxVar) : BitVec 7 := BitVec.ofBool v.valMPS ++ v.pStateIdx

/-- The context variable of 7 entry bits (R55). -/
def unpackCtx (e : BitVec 7) : CtxVar := ⟨e.extractLsb' 0 6, e.getLsbD 6⟩

/-- A context store whose entry i is `f i`. Irreducible, so that comparing two states never unfolds 1024 entries;
Laws/Ops.lean says what it holds. -/
@[irreducible] def ctxTabulate (f : CtxIdx → CtxVar) : Vector CtxVar 1024 :=
  ⟨((List.range 1024).map fun i => f (BitVec.ofNat 10 i)).toArray, by simp⟩

/-- The kind a CSEL answer names (R76); none is the reserved KIND 3. The CTX field of KIND 1 and 2 is ignored. -/
def answerKind (a : CselAnswer) : Option BinKind :=
  match (a.extractLsb' 0 2).toNat with
  | 0 => some (.dec (a.extractLsb' 2 10))
  | 1 => some .byp
  | 2 => some .trm
  | _ => none

/-- The CSEL answer of a kind, with a CTX field of 0 where it is ignored (R76). -/
def kindAnswer : BinKind → CselAnswer
  | .dec c => c.setWidth 12 <<< 2
  | .byp => 1#12
  | .trm => 2#12

/-- The CSEL request word of R77. `part` is false for the prefix or the only part, true for the suffix. -/
def cselRequest (opc : Opcode) (part : Bool) (binIdx : Nat) (prev : BitVec 16) : CselRequest :=
  opc.setWidth 39 ||| ((BitVec.ofBool part).setWidth 39 <<< 6) ||| ((BitVec.ofNat 16 binIdx).setWidth 39 <<< 7)
    ||| (prev.setWidth 39 <<< 23)

/-- The number whose bit j is element j of a list of bins (bin 0 least significant). -/
def binsValue : List Bool → Nat
  | [] => 0
  | b :: rest => b.toNat + 2 * binsValue rest

/-- The PREV field for the bins decoded so far: bins 0..15, bin j in bit j (R77). -/
def prevOf (bins : List Bool) : BitVec 16 := BitVec.ofNat 16 (binsValue (bins.take 16))

/-- The PREV field with its first min(n, 16) bits set (R133). -/
def ones (n : Nat) : BitVec 16 := BitVec.ofNat 16 (2 ^ min n 16 - 1)

/-- The bit length of cMax, which is Ceil(Log2(cMax + 1)) (R8, R136). -/
def bitLength (n : Nat) : Nat := if n = 0 then 0 else Nat.log2 n + 1

/-- The delta that an mb_qp_delta codeNum stands for (R138). -/
def qpDelta (codeNum : Nat) : Int :=
  if codeNum = 0 then 0
  else if codeNum % 2 = 1 then ((codeNum + 1) / 2 : Nat)
  else -((codeNum / 2 : Nat) : Int)

end Sys2Proof.Machine
end

