-- ==== Sys2Proof/Machine/Ops.lean ====
section
/-!
DEFINITION. The named operations every command is made of: updates of single pieces of state, the bit port, the context store,
the CSEL port, the response port, fault entry (R186), refusal (R187), and the frame in which a command runs (R188). There is
no return from a fault (R190): CTXINIT and reset are what leave the fault state.
-/

namespace Sys2Proof.Machine

/-- How a piece of a command ends: with a value, by raising a fault (R186), or waiting for ever on a port (R32, U7). The
state is the one reached at that point. -/
inductive Res (α : Type) where
  | ok (a : α) (s : State)
  | raise (f : FaultCode) (s : State)
  | wait (p : Port) (s : State)
deriving DecidableEq, Repr

/-- One piece of a command after another; a fault or a wait in the first ends both. -/
def Res.bind {α β : Type} (r : Res α) (next : α → State → Res β) : Res β :=
  match r with
  | .ok a s => next a s
  | .raise f s => .raise f s
  | .wait p s => .wait p s

/-- A piece of a command with its value changed. -/
def Res.map {α β : Type} (g : α → β) (r : Res α) : Res β := r.bind fun a s => .ok (g a) s

/-! ### Updates of single pieces of state -/

/-- Write codIRange and codIOffset (R22, R23). -/
def State.setEngine (s : State) (range offset : Nat) : State :=
  { s with codIRange := BitVec.ofNat 9 range, codIOffset := BitVec.ofNat 9 offset }

/-- Write codIRange alone (R22). -/
def State.setRange (s : State) (range : Nat) : State := { s with codIRange := BitVec.ofNat 9 range }

/-- Write codIOffset alone (R23). -/
def State.setOffset (s : State) (offset : Nat) : State := { s with codIOffset := BitVec.ofNat 9 offset }

/-- Write engState (R24). -/
def State.setEngState (s : State) (e : EngState) : State := { s with engState := e }

/-- Take the first of the bits `b :: rest` left: the position advances by one (R36, R50). -/
def State.takeBit (s : State) (rest : List Bool) : State := { s with bits := rest, pos := s.pos + 1 }

/-- Take one of the answers to `aligned?` that the bit source still gives (R33). -/
def State.takeAligned (s : State) : State := { s with alignsLeft := s.alignsLeft.map (· - 1) }

/-- CtxRead(c) of R55. -/
def State.ctxRead (s : State) (c : CtxIdx) : CtxVar := s.ctx[c.toNat]'(c.isLt)

/-- CtxWrite(c, v) of R55. -/
def State.ctxWrite (s : State) (c : CtxIdx) (v : CtxVar) : State := { s with ctx := s.ctx.set c.toNat v (c.isLt) }

/-- Put a request on the CSEL port (R34). -/
def State.sendRequest (s : State) (req : CselRequest) : State := { s with cselReqs := s.cselReqs ++ [req] }

/-- Take the first of the host's coming CSEL answers, `rest` being the others (R34). -/
def State.takeAnswer (s : State) (rest : List CselAnswer) : State := { s with cselAns := rest }

/-- Put a response on the response port (R31). -/
def State.respond (s : State) (status : BitVec 3) (value : Word) : State :=
  { s with rsps := s.rsps ++ [⟨status, value⟩] }

/-- Wait on a port for an answer that never comes (R32, U7). -/
def State.waitOn (s : State) (p : Port) : State := { s with wait := some p }

/-- Leave every context store entry unspecified: a fresh free value each (R27, R186, U2, U3; log entry 2). -/
def State.forgetCtx (s : State) : State :=
  { s with ctx := ctxTabulate fun i => unpackCtx (Config.freeCtx s.freeCount i.toNat), freeCount := s.freeCount + 1 }

/-! ### The ports -/

/-- ReadBit() of R50. -/
def readBit (s : State) : Res Bool :=
  match s.bits with
  | b :: rest => .ok b (s.takeBit rest)
  | [] =>
    match s.bitEnd with
    | .exhausted => .raise .streamExhaustion s
    | .silent => .wait .bit s

/-- ReadBits(n) of R52, with `v` the value of the bits read so far: the first bit read is the most significant. -/
def readBits : Nat → Nat → State → Res Nat
  | 0, v, s => .ok v s
  | n + 1, v, s => (readBit s).bind fun b s' => readBits n (2 * v + b.toNat) s'

/-- The answer to `aligned?` (R36, R53): the position is a multiple of 8. -/
def byteAligned (s : State) : Bool := s.pos % 8 == 0

/-- ByteAligned() of R53: `aligned?` is sent on the bit port, and its answer taken, or the block waits for one that never
comes (R32, R33, U7; log entry 5). -/
def askAligned (s : State) : Res Bool :=
  if s.alignsLeft = some 0 then .wait .bit s else .ok (byteAligned s) s.takeAligned

/-- Csel(part, binIdx, prev) of R131: the request is sent, and the host's next answer taken. -/
def csel (opc : Opcode) (part : Bool) (binIdx : Nat) (prev : BitVec 16) (s : State) : Res CselAnswer :=
  match s.cselAns with
  | a :: rest => .ok a ((s.sendRequest (cselRequest opc part binIdx prev)).takeAnswer rest)
  | [] => .wait .csel (s.sendRequest (cselRequest opc part binIdx prev))

/-! ### Faults, refusals and the frame of a command -/

/-- The code FAULT holds after the fault `new`: the first one since the last CTXINIT (R26, R191). -/
def keepFirst (held new : FaultCode) : FaultCode := if held = .none then new else held

/-- The registers at fault entry (R186): the first fault is kept in FAULT (R191), the engine leaves its codeword, the contexts
are no longer valid, and codIRange and codIOffset become unspecified (U1; log entry 2). -/
def State.faultRegisters (s : State) (f : FaultCode) : State :=
  { s with
    FAULT := keepFirst s.FAULT f
    engState := .uninit
    ctxValid := false
    codIRange := Config.freeRange s.freeCount
    codIOffset := Config.freeOffset s.freeCount }

/-- FAULT ENTRY (R186): taking the fault `f`. The registers and the context store are lost and the response carries the code.
Bits consumed stay consumed, and control goes nowhere: the block is ready for the next command word. -/
def enterFault (f : FaultCode) (s : State) : State := ((s.faultRegisters f).forgetCtx).respond (faultCode f) 0

/-- REFUSAL (R187): no state changes but for the response, which carries FAULT and the value 0. -/
def refuse (s : State) : State := s.respond (faultCode s.FAULT) 0

/-- The end of a command: its response (R78), fault entry, or the wait in which it stays. -/
def finish : Res Word → State
  | .ok v s => s.respond (faultCode .none) v
  | .raise f s => enterFault f s
  | .wait p s => s.waitOn p

/-- A command, by the steps of R188: refusal, well-formedness, precondition, execution of its pseudocode. -/
def runCommand (i : Instr) (body : State → Res Word) (s : State) : State :=
  if isRefused (opcode i) s then refuse s
  else if !i.wellFormed then enterFault .invalidDerivationRequest s
  else if !precondition i s then enterFault .invalidDerivationRequest s
  else finish (body s)

/-- A word that is not well formed: refused while a fault is pending and its opcode field is neither CTXINIT's nor STATRD's,
else InvalidDerivationRequest (R72, R187, R188, R191). -/
def illegalWord (w : Word) (s : State) : State :=
  if isRefused (opcodeField w) s then refuse s else enterFault .invalidDerivationRequest s

/-- The next command word, taken from the command port, when the block is idle and the host has presented one (R21, R30,
R32). None: the block holds. -/
def acceptCommand (s : State) : Option (Word × State) :=
  if s.wait.isSome || s.rspHeld then none
  else
    match s.cmds with
    | [] => none
    | w :: rest => some (w, { s with cmds := rest })

end Sys2Proof.Machine
end

