-- ==== Sys2Proof/Machine/Control.lean ====
section
/-!
DEFINITION. The read-back commands (44_control.md): CTXRD and STATRD. They read no bit and change no state but for the
response.
-/

namespace Sys2Proof.Machine

/-- CTXRD CTX (R176): zext_32 of the 7-bit entry. -/
def execCtxrd (ctx : CtxIdx) (s : State) : Host.Outcome State Fault Refusal :=
  .next (runCommand (.ctxrd ctx) (fun s => .ok ((packCtx (s.ctxRead ctx)).setWidth 32) s) s)

/-- STATRD (R175): the STATUS word. -/
def execStatrd (s : State) : Host.Outcome State Fault Refusal :=
  .next (runCommand .statrd (fun s => .ok (statusWord s) s) s)

end Sys2Proof.Machine
end

