-- ==== Sys2Proof/Machine/Probability.lean ====
section
/-!
DEFINITION. The probability state machine and context initialization (41_probability_state.md), with CTXINIT.
-/

namespace Sys2Proof.Machine

/-- Apply((p, m), bin) of R115: the context variable after a decision bin. -/
def applyBin (v : CtxVar) (bin : Bool) : CtxVar :=
  if bin = v.valMPS then ⟨transIdxMPS v.pStateIdx, v.valMPS⟩
  else ⟨transIdxLPS v.pStateIdx, if v.pStateIdx = 0#6 then !v.valMPS else v.valMPS⟩

/-- preCtxState of R117; `Int.shiftRight` is the floor shift of R8. -/
def preCtxState (m n qp : Int) : Int := clip3 1 126 (Int.shiftRight (m * clip3 0 51 qp) 4 + n)

/-- InitCtx(m, n, QP) of R117. -/
def initCtx (m n qp : Int) : CtxVar :=
  let pre := preCtxState m n qp
  if pre <= 63 then ⟨BitVec.ofInt 6 (63 - pre), false⟩ else ⟨BitVec.ofInt 6 (pre - 64), true⟩

/-- The context variable CTXINIT QP, SEL gives entry i from the ROM (R119). -/
def initEntry (rom : Vector (BitVec 8 × BitVec 8) 4096) (qp : BitVec 7) (sel : BitVec 2) (i : CtxIdx) : CtxVar :=
  initCtx (romEntry rom sel i).1 (romEntry rom sel i).2 (qpValue qp)

/-- Entry 276's initial value, whatever the ROM holds (R118). -/
def initEntry276 : CtxVar := ⟨63#6, false⟩

/-- The registers and the store as CTXINIT's loop leaves them, entry 276 from the ROM like every other (R119). -/
def State.freshRegisters (s : State) (qp : BitVec 7) (sel : BitVec 2) : State :=
  { s with
    ctx := ctxTabulate (initEntry s.rom qp sel)
    ctxValid := true
    engState := .uninit
    codIRange := 0
    codIOffset := 0
    FAULT := .none }

/-- The machine as CTXINIT QP, SEL leaves it, before the response (R119). -/
def freshSlice (qp : BitVec 7) (sel : BitVec 2) (s : State) : State :=
  (s.freshRegisters qp sel).ctxWrite 276#10 initEntry276

/-- CTXINIT QP, SEL (R119). -/
def execCtxinit (qp : BitVec 7) (sel : BitVec 2) (s : State) : Host.Outcome State Fault Refusal :=
  .next (runCommand (.ctxinit qp sel) (fun s => .ok 0 (freshSlice qp sel s)) s)

end Sys2Proof.Machine
end

