-- ==== Sys2Proof/Machine/Engine.lean ====
section
/-!
DEFINITION. The arithmetic decoding engine (40_engine.md): its procedures (R91 to R98) and the commands ENGINIT, ALIGN, DEC,
BYP and TRM. Arithmetic is on natural numbers (R8, R105) and is narrowed when a register is written.
-/

namespace Sys2Proof.Machine

/-- qCodIRangeIdx of R91: (codIRange >> 6) & 3. -/
def rangeIdx (range : BitVec 9) : BitVec 2 := range.extractLsb' 6 2

/-- RenormD() of R95: codIRange is doubled before ReadBit, and so stays doubled while the bit is waited for. Each round takes one
bit, so `fuel` rounds are all the loop can make when `fuel` exceeds the number of bits the bit source has left. -/
def renormLoop : Nat → State → Res Unit
  | 0, s => .ok () s
  | fuel + 1, s =>
    if s.codIRange.toNat < 256 then
      (readBit (s.setRange (2 * s.codIRange.toNat))).bind fun b s' =>
        renormLoop fuel (s'.setOffset (2 * s'.codIOffset.toNat + b.toNat))
    else .ok () s

/-- RenormD() of R95. -/
def renormD (s : State) : Res Unit := renormLoop (s.bits.length + 1) s

/-- The interval split of DecodeDecision (R93), before renormalization: the bin and the new range and offset. -/
def decisionSplit (v : CtxVar) (range offset : BitVec 9) : Bool × Nat × Nat :=
  let rLPS := rangeLPS v.pStateIdx (rangeIdx range)
  let rMPS := range.toNat - rLPS
  if rMPS <= offset.toNat then (!v.valMPS, rLPS, offset.toNat - rMPS)
  else (v.valMPS, rMPS, offset.toNat)

/-- DecodeDecision(c) of R93. -/
def decodeDecision (c : CtxIdx) (s : State) : Res Bool :=
  let v := s.ctxRead c
  let d := decisionSplit v s.codIRange s.codIOffset
  (renormD ((s.setEngine d.2.1 d.2.2).ctxWrite c (applyBin v d.1))).map fun _ => d.1

/-- DecodeBypass() of R96. -/
def decodeBypass (s : State) : Res Bool :=
  (readBit s).bind fun b s' =>
    let t := 2 * s.codIOffset.toNat + b.toNat
    if s.codIRange.toNat <= t then .ok true (s'.setOffset (t - s.codIRange.toNat))
    else .ok false (s'.setOffset t)

/-- DecodeTerminate() of R97. -/
def decodeTerminate (s : State) : Res Bool :=
  let range := s.codIRange.toNat - 2
  if range <= s.codIOffset.toNat then .ok true ((s.setRange range).setEngState .terminated)
  else (renormD (s.setRange range)).map fun _ => false

/-- DecodeBin(kind) of R90. -/
def decodeBin : BinKind → State → Res Bool
  | .dec c, s => decodeDecision c s
  | .byp, s => decodeBypass s
  | .trm, s => decodeTerminate s

/-- A bin as a response value: zext_32(bin) (R78). -/
def bitWord (b : Bool) : Word := (BitVec.ofBool b).setWidth 32

/-- ENGINIT's pseudocode (R100, with InitEngine of R98). DEDUCED: the registers are written after the nine bits are read, as R100
lists it; R98 lists codIRange before ReadBits, which only a block waiting for those bits could show (log entry 19). -/
def enginitBody (s : State) : Res Word :=
  (readBits 9 0 s).bind fun v s' =>
    if 510 <= v then .raise .structuralViolation s'
    else .ok 0 ((s'.setEngine 510 v).setEngState .active)

/-- ENGINIT (R100). -/
def execEnginit (s : State) : Host.Outcome State Fault Refusal := .next (runCommand .enginit enginitBody s)

/-- ALIGN's loop (R101), `n` bits having been consumed; each round first asks `aligned?`. At most 7 bits lie before a byte
boundary, so 8 rounds are all it makes. -/
def alignLoop (f : Bool) : Nat → Nat → State → Res Nat
  | 0, n, s => .ok n s
  | fuel + 1, n, s =>
    (askAligned s).bind fun aligned s1 =>
      if aligned then .ok n s1
      else (readBit s1).bind fun b s2 => if b = f then alignLoop f fuel (n + 1) s2 else .raise .structuralViolation s2

/-- ALIGN F (R101). -/
def execAlign (f : Bool) (s : State) : Host.Outcome State Fault Refusal :=
  .next (runCommand (.align f) (fun s => (alignLoop f 8 0 s).map (BitVec.ofNat 32)) s)

/-- DEC CTX (R102). -/
def execDec (ctx : CtxIdx) (s : State) : Host.Outcome State Fault Refusal :=
  .next (runCommand (.dec ctx) (fun s => (decodeDecision ctx s).map bitWord) s)

/-- BYP (R103). -/
def execByp (s : State) : Host.Outcome State Fault Refusal :=
  .next (runCommand .byp (fun s => (decodeBypass s).map bitWord) s)

/-- TRM (R104). -/
def execTrm (s : State) : Host.Outcome State Fault Refusal :=
  .next (runCommand .trm (fun s => (decodeTerminate s).map bitWord) s)

end Sys2Proof.Machine
end

