-- ==== Sys2Proof/Machine/Binarization.lean ====
section
/-!
DEFINITION. The binarization commands (42_binarization.md): the per-bin mechanism (R131, R132), the unary loop (R133), and
U, TU, FL, UEGK, QPD and CBP.
-/

namespace Sys2Proof.Machine

/-- Bin(kind) of R132, for a kind that is not reserved: no bin is decoded past the end of the arithmetic codeword. -/
def binOf (kind : BinKind) (s : State) : Res Bool :=
  if engActive s then decodeBin kind s else .raise .invalidDerivationRequest s

/-- FetchBin(part, binIdx, prev) of R132: ask the host for the kind, then decode the bin. -/
def fetchBin (opc : Opcode) (part : Bool) (binIdx : Nat) (prev : BitVec 16) (s : State) : Res Bool :=
  (csel opc part binIdx prev s).bind fun a s' =>
    match answerKind a with
    | none => .raise .invalidDerivationRequest s'
    | some kind => binOf kind s'

/-- TUCore(cMax, part) of R133 after `count` 1-bins; `none` is INF. `room` is how many more bins the ceiling allows,
UNARY_CEIL - count, so the ceiling check `count = UNARY_CEIL` is the case 0. -/
def tuLoop (opc : Opcode) (cMax : Option Nat) (part : Bool) : Nat → Nat → State → Res Nat
  | 0, count, s => if cMax.any (· <= count) then .ok count s else .raise .unboundedLoopDetected s
  | room + 1, count, s =>
    if cMax.any (· <= count) then .ok count s
    else
      (fetchBin opc part count (ones count) s).bind fun b s' =>
        if b then tuLoop opc cMax part room (count + 1) s' else .ok count s'

/-- TUCore(cMax, part) of R133. -/
def tuCore (opc : Opcode) (cMax : Option Nat) (part : Bool) (s : State) : Res Nat :=
  tuLoop opc cMax part unaryCeil 0 s

/-- FLCore's loop (R136): `n` bins to come, `bins` those decoded so far. -/
def flLoop (opc : Opcode) (part : Bool) : Nat → List Bool → State → Res Nat
  | 0, bins, s => .ok (binsValue bins) s
  | n + 1, bins, s =>
    (fetchBin opc part bins.length (prevOf bins) s).bind fun b s' => flLoop opc part n (bins ++ [b]) s'

/-- FLCore(cMax, part) of R136: bitLength cMax bins, the first one least significant. -/
def flCore (opc : Opcode) (cMax : Nat) (part : Bool) (s : State) : Res Nat := flLoop opc part (bitLength cMax) [] s

/-- A decoded syntax value that is not negative as a response value (R78, R140). -/
def natWord (v : Nat) : Word := BitVec.ofNat 32 v

/-- A decoded syntax value as a response value: 32-bit two's complement (R78, R140). -/
def valueWord (v : Int) : Word := BitVec.ofInt 32 v

/-- U (R134). -/
def execU (s : State) : Host.Outcome State Fault Refusal :=
  .next (runCommand .u (fun s => (tuCore 0x08#6 none false s).map natWord) s)

/-- TU CMAX (R135). -/
def execTu (cmax : BitVec 16) (s : State) : Host.Outcome State Fault Refusal :=
  .next (runCommand (.tu cmax) (fun s => (tuCore 0x09#6 (some cmax.toNat) false s).map natWord) s)

/-- FL CMAX (R136). -/
def execFl (cmax : BitVec 16) (s : State) : Host.Outcome State Fault Refusal :=
  .next (runCommand (.fl cmax) (fun s => (flCore 0x0A#6 cmax.toNat false s).map natWord) s)

/-- The UEGk escape run (R137) with order `kk` and suffix `suf` so far: the order at its end and the suffix. `room` is
UEG_KMAX - kk, so the check `kk = UEG_KMAX` is the case 0. -/
def escapeLoop : Nat → Nat → Nat → State → Res (Nat × Nat)
  | 0, _, _, s => .raise .unboundedLoopDetected s
  | room + 1, kk, suf, s =>
    (binOf .byp s).bind fun b s' =>
      if b then escapeLoop room (kk + 1) (suf + 2 ^ kk) s' else .ok (kk, suf) s'

/-- The verbatim bits of the UEGk suffix (R137): `kk` bits, most significant first, added to `suf`. -/
def verbatimLoop : Nat → Nat → State → Res Nat
  | 0, suf, s => .ok suf s
  | kk + 1, suf, s => (binOf .byp s).bind fun b s' => verbatimLoop kk (suf + b.toNat * 2 ^ kk) s'

/-- The UEGk suffix (R137): the escape run from order k, then the verbatim bits. -/
def uegSuffix (k : Nat) (s : State) : Res Nat :=
  (escapeLoop (uegKmax - k) k 0 s).bind fun e s' => verbatimLoop e.1 e.2 s'

/-- The UEGk magnitude (R137): the unary prefix part, and the suffix when the prefix part saturates. -/
def uegMagnitude (k uc : Nat) (s : State) : Res Nat :=
  (tuCore 0x0B#6 (some uc) false s).bind fun v s' =>
    if v = uc then (uegSuffix k s').map fun suf => uc + suf else .ok v s'

/-- The UEGk sign (R137): a bypass bin, only when S = 1 and the magnitude is not 0; 1 means negative. -/
def uegSign (sgn : Bool) (v : Nat) (s : State) : Res Int :=
  if sgn && v != 0 then (binOf .byp s).map fun b => if b then -(v : Int) else (v : Int) else .ok (v : Int) s

/-- UEGK S, K, UC (R137). -/
def execUegk (sgn : Bool) (k : BitVec 4) (uc : BitVec 8) (s : State) : Host.Outcome State Fault Refusal :=
  .next (runCommand (.uegk sgn k uc)
    (fun s => ((uegMagnitude k.toNat uc.toNat s).bind fun v s' => uegSign sgn v s').map valueWord) s)

/-- QPD (R138). -/
def execQpd (s : State) : Host.Outcome State Fault Refusal :=
  .next (runCommand .qpd (fun s => (tuCore 0x0C#6 none false s).map fun c => valueWord (qpDelta c)) s)

/-- CBP's chroma suffix (R139): a truncated unary part when ChromaArrayType is 1 or 2, else 0. -/
def cbpChroma (cat : BitVec 2) (s : State) : Res Nat :=
  if cat = 1#2 || cat = 2#2 then tuCore 0x0D#6 (some 2) true s else .ok 0 s

/-- CBP CAT (R139). -/
def execCbp (cat : BitVec 2) (s : State) : Host.Outcome State Fault Refusal :=
  .next (runCommand (.cbp cat)
    (fun s => (flCore 0x0D#6 15 false s).bind fun luma s' =>
      (cbpChroma cat s').map fun chroma => natWord (luma + 16 * chroma)) s)

end Sys2Proof.Machine
end

