-- ==== Sys2Proof/Machine/Trees.lean ====
section
/-!
DEFINITION. The mb_type and sub_mb_type prefix codes (43_mbtype_trees.md) as binary decision tables (R170), the one walk that
decodes a table's bins, and the tree commands. Each table is written from the pseudocode of its rule.
-/

namespace Sys2Proof.Machine

/-- Decode the bins of a table from its root; every bin goes through Bin (R132, R161). -/
def runTree : BinTree → State → Res Nat
  | .leaf v, s => .ok v s
  | .node kind zero one, s => (binOf kind s).bind fun b s' => if b then runTree one s' else runTree zero s'

/-- A table with its values changed. -/
def mapTree (g : Nat → Nat) : BinTree → BinTree
  | .leaf v => .leaf (g v)
  | .node kind zero one => .node kind (mapTree g zero) (mapTree g one)

/-- A group of bins read in full, the first one most significant, before the table goes on with the group's value; `acc` is
the value of the bins before. -/
def groupTree : List BinKind → Nat → (Nat → BinTree) → BinTree
  | [], acc, next => next acc
  | kind :: rest, acc, next =>
    .node kind (groupTree rest (2 * acc) next) (groupTree rest (2 * acc + 1) next)

/-- The decision kind on context `off + inc`. -/
def decAt (off inc : Nat) : BinKind := .dec (ctxIdxOf off inc)

/-- The contexts (cL, cC, cC2, cP1, cP0) of ITree (R161). -/
def iTreeKinds (off : Nat) (isI : Bool) : BinKind × BinKind × BinKind × BinKind × BinKind :=
  if isI then (decAt off 3, decAt off 4, decAt off 5, decAt off 6, decAt off 7)
  else (decAt off 1, decAt off 2, decAt off 2, decAt off 3, decAt off 3)

/-- The I_16x16 part of ITree (R161): bins b2 and later. -/
def i16Tree (off : Nat) (isI : Bool) : BinTree :=
  let k := iTreeKinds off isI
  let predMode : Nat → BinTree := fun v => groupTree [k.2.2.2.1, k.2.2.2.2] 0 fun p => .leaf (v + p)
  groupTree [k.1] 0 fun luma =>
    .node k.2.1 (predMode (1 + 12 * luma))
      (groupTree [k.2.2.1] 0 fun chroma2 => predMode (1 + 12 * luma + 4 + 4 * chroma2))

/-- ITree(off, inc0, isI) of R161. -/
def iTree (off inc0 : Nat) (isI : Bool) : BinTree :=
  .node (decAt off inc0) (.leaf 0) (.node .trm (i16Tree off isI) (.leaf 25))

/-- The table of MBT.I IA (R162). -/
def mbtITree (ia : BitVec 2) : BinTree := iTree 3 ia.toNat true

/-- The table of MBT.SI IA, IB (R163). -/
def mbtSITree (ia ib : BitVec 2) : BinTree :=
  .node (decAt 0 ia.toNat) (.leaf 0) (mapTree (1 + ·) (iTree 3 ib.toNat true))

/-- The table of MBT.P (R164). -/
def mbtPTree : BinTree :=
  .node (decAt 14 0)
    (.node (decAt 15 0)
      (.node (decAt 16 0) (.leaf 0) (.leaf 3))
      (.node (decAt 17 0) (.leaf 2) (.leaf 1)))
    (mapTree (5 + ·) (iTree 17 0 false))

/-- The table of MBT.B after its 4-bin group of value b (R165). -/
def mbtBGroup (b : Nat) : BinTree :=
  if b < 8 then .leaf (b + 3)
  else if b = 13 then mapTree (23 + ·) (iTree 32 0 false)
  else if b = 14 then .leaf 11
  else if b = 15 then .leaf 22
  else groupTree [decAt 32 0] 0 fun x => .leaf (2 * b + x - 4)

/-- The table of MBT.B IA (R165). -/
def mbtBTree (ia : BitVec 2) : BinTree :=
  .node (decAt 27 ia.toNat) (.leaf 0)
    (.node (decAt 30 0)
      (groupTree [decAt 32 0] 0 fun x => .leaf (1 + x))
      (groupTree [decAt 31 0, decAt 32 0, decAt 32 0, decAt 32 0] 0 mbtBGroup))

/-- The table of SMBT.P (R166). -/
def smbtPTree : BinTree :=
  .node (decAt 21 0)
    (.node (decAt 22 0) (.leaf 1) (.node (decAt 23 0) (.leaf 3) (.leaf 2)))
    (.leaf 0)

/-- The table of SMBT.B (R167). -/
def smbtBTree : BinTree :=
  .node (decAt 36 0) (.leaf 0)
    (.node (decAt 37 0)
      (groupTree [decAt 39 0] 0 fun x => .leaf (1 + x))
      (.node (decAt 38 0)
        (groupTree [decAt 39 0, decAt 39 0] 0 fun x => .leaf (3 + x))
        (.node (decAt 39 0)
          (groupTree [decAt 39 0, decAt 39 0] 0 fun x => .leaf (7 + x))
          (groupTree [decAt 39 0] 0 fun x => .leaf (11 + x)))))

/-- A table's pseudocode: decode its bins and respond with the value. -/
def treeBody (t : BinTree) (s : State) : Res Word := (runTree t s).map natWord

/-- MBT.I IA (R162). -/
def execMbtI (ia : BitVec 2) (s : State) : Host.Outcome State Fault Refusal :=
  .next (runCommand (.mbtI ia) (treeBody (mbtITree ia)) s)

/-- MBT.SI IA, IB (R163). -/
def execMbtSI (ia ib : BitVec 2) (s : State) : Host.Outcome State Fault Refusal :=
  .next (runCommand (.mbtSI ia ib) (treeBody (mbtSITree ia ib)) s)

/-- MBT.P (R164). -/
def execMbtP (s : State) : Host.Outcome State Fault Refusal := .next (runCommand .mbtP (treeBody mbtPTree) s)

/-- MBT.B IA (R165). -/
def execMbtB (ia : BitVec 2) (s : State) : Host.Outcome State Fault Refusal :=
  .next (runCommand (.mbtB ia) (treeBody (mbtBTree ia)) s)

/-- SMBT.P (R166). -/
def execSmbtP (s : State) : Host.Outcome State Fault Refusal := .next (runCommand .smbtP (treeBody smbtPTree) s)

/-- SMBT.B (R167). -/
def execSmbtB (s : State) : Host.Outcome State Fault Refusal := .next (runCommand .smbtB (treeBody smbtBTree) s)

end Sys2Proof.Machine
end

