-- ==== Sys2Proof/Machine/Dispatch.lean ====
section
/-!
DEFINITION. The dispatch of a decoded command to its meaning: one arm per constructor of Instr.
-/

namespace Sys2Proof.Machine

def exec (i : Instr) (s : State) : Host.Outcome State Fault Refusal :=
  match i with
  | .ctxinit qp sel => Sys2Proof.Machine.execCtxinit qp sel s
  | .align f => Sys2Proof.Machine.execAlign f s
  | .enginit => Sys2Proof.Machine.execEnginit s
  | .dec ctx => Sys2Proof.Machine.execDec ctx s
  | .byp => Sys2Proof.Machine.execByp s
  | .trm => Sys2Proof.Machine.execTrm s
  | .u => Sys2Proof.Machine.execU s
  | .tu cmax => Sys2Proof.Machine.execTu cmax s
  | .fl cmax => Sys2Proof.Machine.execFl cmax s
  | .uegk sgn k uc => Sys2Proof.Machine.execUegk sgn k uc s
  | .qpd => Sys2Proof.Machine.execQpd s
  | .cbp cat => Sys2Proof.Machine.execCbp cat s
  | .mbtI ia => Sys2Proof.Machine.execMbtI ia s
  | .mbtSI ia ib => Sys2Proof.Machine.execMbtSI ia ib s
  | .mbtP => Sys2Proof.Machine.execMbtP s
  | .mbtB ia => Sys2Proof.Machine.execMbtB ia s
  | .smbtP => Sys2Proof.Machine.execSmbtP s
  | .smbtB => Sys2Proof.Machine.execSmbtB s
  | .ctxrd ctx => Sys2Proof.Machine.execCtxrd ctx s
  | .statrd => Sys2Proof.Machine.execStatrd s

end Sys2Proof.Machine
end

