-- ==== Sys2Proof/Machine/Step.lean ====
section
/-!
DEFINITION. One step of the block (R6, R21): the next command word is taken from the command port and executed to its
response. While the block waits on a port, or no word is presented, it holds (R30, R32).
-/

namespace Sys2Proof.Machine

/-- One step: take a command word and run it; hold when there is none to take. -/
def step (s : State) : Host.Outcome State Fault Refusal :=
  match acceptCommand s with
  | none => .next s
  | some (w, s') =>
    match decode w with
    | .ok i => exec i s'
    | .error _ => .next (illegalWord w s')

/-- The state with the command word of `nbits` bits and value `w` at the head of the command port, and the block idle, so
that the next step takes it (R30). The block never fetches (R20): the word is what the host presents next. -/
def State.withFetchWord (s : State) (nbits w : Nat) : State :=
  { s with cmds := BitVec.ofNat 32 (w % 2 ^ nbits) :: s.cmds, rspHeld := false, wait := none }

end Sys2Proof.Machine
end

