-- ==== Sys2Proof/Machine/Environment.lean ====
section
/-!
DEFINITION. What the outside does to the block between (or, for reset, during) its commands: the reset event (R210), the
host's side of the command, response and CSEL ports (R30, R31, R34), and the host's own reads of the bit source (R215). None
of these is a step of the block.
-/

namespace Sys2Proof.Machine

/-- The registers as the reset event leaves them (R210), with the command in progress abandoned without a response (U8): no port is
waited on, and a response the host has not taken is withdrawn. DEDUCED: the spec does not name a reset while the last response
is untaken; by R30 and R32 its command is still in progress, so R210 and U8 take the response away (log entry 20). -/
def State.resetRegisters (s : State) : State :=
  { s with
    FAULT := .none
    engState := .uninit
    ctxValid := false
    codIRange := 0
    codIOffset := 0
    rsps := if s.rspHeld then s.rsps.dropLast else s.rsps
    rspHeld := false
    wait := none }

/-- The reset event between commands (R210): the context store is left unspecified; the bit source's position, the ROM and
the host are not touched. -/
def State.resetEvent (s : State) : State := s.resetRegisters.forgetCtx

/-- The reset event during the next command, after that command consumed `n` bits (R210, U8): the command is abandoned
without a response, and the bits it consumed stay consumed. While the block takes no word it is the reset event. -/
def State.resetDuring (n : Nat) (s : State) : State :=
  match acceptCommand s with
  | none => s.resetEvent
  | some (_, s') =>
    ({ s' with bits := s'.bits.drop n, pos := s'.pos + min n s'.bits.length } : State).resetEvent

/-- The host presents a command word (R30). -/
def State.present (w : Word) (s : State) : State := { s with cmds := s.cmds ++ [w] }

/-- The host holds back, or takes, the last response (R30, R32): after a step that gave one, before the next step. -/
def State.holdResponse (held : Bool) (s : State) : State := { s with rspHeld := held }

/-- The host makes ready the answer to a coming CSEL request (R34, R76). -/
def State.willAnswer (a : CselAnswer) (s : State) : State := { s with cselAns := s.cselAns ++ [a] }

/-- The host reads one bit of the bit source itself (R215): the bit, and the source moved on; none at the end. -/
def State.hostReadBit (s : State) : Option (Bool × State) :=
  match s.bits with
  | [] => none
  | b :: rest => some (b, s.takeBit rest)

/-- The host turns the bit source to another RBSP, with what the source will do at its end and how many `aligned?` requests it
will answer (R33, R36, R212): the position starts again at 0. -/
def State.openRbsp (bits : List Bool) (atEnd : BitEnd) (alignsLeft : Option Nat) (s : State) : State :=
  { s with bits := bits, pos := 0, bitEnd := atEnd, alignsLeft := alignsLeft }

/-- The host owns the bit source while the engine is not ACTIVE (R215). -/
def State.hostOwnsBits (s : State) : Bool := !engActive s

/-- The static context map of R83: the host's answers to the bins 0 .. n - 1 of one part, bin i answered with entry
min(i, last). -/
def staticMap (kinds : List BinKind) (n : Nat) : List CselAnswer :=
  (List.range n).map fun i => ((kinds[min i (kinds.length - 1)]?).map kindAnswer).getD 3#12

end Sys2Proof.Machine
end

