-- ==== Sys2Proof/Safety.lean ====
section
/-!
DEFINITION. The terms in which claims about the block are stated: when a command executes normally (R188), the invariants of
R29 and of the fault state, what a command that decodes bins may change, the bins a part of a command decodes, and the
reading of a list of bits as a number.
-/

namespace Sys2Proof.Machine

/-! ### When a command executes, and the invariants -/

/-- The command passes steps 1 to 3 of R188: it is not refused, is well formed, and its precondition holds. -/
def Ready (i : Instr) (s : State) : Prop :=
  isRefused (opcode i) s = false ∧ i.wellFormed = true ∧ precondition i s = true

/-- The block takes the next command word (R30): it waits on no port and its last response is taken. -/
def Idle (s : State) : Prop := s.wait = none ∧ s.rspHeld = false

/-- The invariants between commands of R29. -/
def EngineInv (s : State) : Prop :=
  (s.engState = .active → 256 ≤ s.codIRange.toNat ∧ s.codIRange.toNat ≤ 510 ∧ s.codIOffset.toNat < s.codIRange.toNat) ∧
  (s.engState = .terminated →
    254 ≤ s.codIRange.toNat ∧ s.codIRange.toNat ≤ 508 ∧ s.codIRange.toNat ≤ s.codIOffset.toNat) ∧
  (s.engState = .uninit → s.FAULT = .none → s.codIRange = 0 ∧ s.codIOffset = 0)

/-- The fault state (R186, R184): a pending fault comes with engState UNINIT and ctxValid 0, and its code is never 4. -/
def FaultInv (s : State) : Prop :=
  (s.FAULT ≠ .none → s.engState = .uninit ∧ s.ctxValid = false) ∧ s.FAULT ≠ .unsupportedFeature

/-- State 63 stands in entry 276 alone, with valMPS 0, while the store is valid (R116, R118). -/
def ContextInv (s : State) : Prop :=
  s.ctxValid = true →
    s.ctxRead 276#10 = ⟨63#6, false⟩ ∧ ∀ c : CtxIdx, c ≠ 276#10 → (s.ctxRead c).pStateIdx ≠ 63#6

/-- The machine's invariant: R29 between commands (a command stuck on a port has not ended), with the fault state and the
contexts. -/
def Inv (s : State) : Prop := (s.wait = none → EngineInv s) ∧ FaultInv s ∧ ContextInv s

/-! ### What a command that decodes bins may change -/

/-- Some answer of the list names context entry `c`. -/
def NamedBy (answers : List CselAnswer) (c : CtxIdx) : Prop := ∃ a ∈ answers, answerKind a = some (.dec c)

/-- From `s` to `t` only the engine moved: codIRange, codIOffset, a terminate bin's end of the codeword, the bits and
CSEL answers taken (each from the front, in order) with the requests sent, and the context entries of `fixed` or named
by an answer taken. -/
structure BinFrame (fixed : List CtxIdx) (s t : State) : Prop where
  ctxValid : t.ctxValid = s.ctxValid
  fault : t.FAULT = s.FAULT
  rom : t.rom = s.rom
  bitEnd : t.bitEnd = s.bitEnd
  alignsLeft : t.alignsLeft = s.alignsLeft
  cmds : t.cmds = s.cmds
  rsps : t.rsps = s.rsps
  rspHeld : t.rspHeld = s.rspHeld
  wait : t.wait = s.wait
  freeCount : t.freeCount = s.freeCount
  engState : t.engState = s.engState ∨ (s.engState = .active ∧ t.engState = .terminated)
  bits : ∃ taken : List Bool, s.bits = taken ++ t.bits ∧ t.pos = s.pos + taken.length
  requests : ∃ sent : List CselRequest, t.cselReqs = s.cselReqs ++ sent
  ctx : ∃ taken : List CselAnswer, s.cselAns = taken ++ t.cselAns ∧
    ∀ c : CtxIdx, c ∉ fixed → ¬ NamedBy taken c → t.ctxRead c = s.ctxRead c

/-- The context entries that a table's decision bins use. -/
def treeContexts : BinTree → List CtxIdx
  | .leaf _ => []
  | .node (.dec c) zero one => c :: (treeContexts zero ++ treeContexts one)
  | .node .byp zero one => treeContexts zero ++ treeContexts one
  | .node .trm zero one => treeContexts zero ++ treeContexts one

/-- The context entries each command names itself, by its operands or its table (R61, R102); the commands that ask over CSEL
name none. -/
def ownContexts : Instr → List CtxIdx
  | .ctxinit _ _ => []
  | .align _ => []
  | .enginit => []
  | .dec c => [c]
  | .byp => []
  | .trm => []
  | .u => []
  | .tu _ => []
  | .fl _ => []
  | .uegk _ _ _ => []
  | .qpd => []
  | .cbp _ => []
  | .mbtI ia => [ctxIdxOf 3 ia.toNat, 6#10, 7#10, 8#10, 9#10, 10#10]
  | .mbtSI ia ib => [ctxIdxOf 0 ia.toNat, ctxIdxOf 3 ib.toNat, 6#10, 7#10, 8#10, 9#10, 10#10]
  | .mbtP => [14#10, 15#10, 16#10, 17#10, 18#10, 19#10, 20#10]
  | .mbtB ia => [ctxIdxOf 27 ia.toNat, 30#10, 31#10, 32#10, 33#10, 34#10, 35#10]
  | .smbtP => [21#10, 22#10, 23#10]
  | .smbtB => [36#10, 37#10, 38#10, 39#10]
  | .ctxrd _ => []
  | .statrd => []

/-- The commands that ask the host for the kinds of bins over CSEL, with their opcodes' first query: U, TU, FL, UEGK's
prefix part, QPD and CBP (R34), in the forms that have a first bin to ask for. -/
def AsksFirst : Instr → Prop
  | .u => True
  | .tu cmax => cmax ≠ 0#16
  | .fl cmax => cmax ≠ 0#16
  | .uegk _ _ uc => uc ≠ 0#8
  | .qpd => True
  | .cbp _ => True
  | .ctxinit _ _ => False
  | .align _ => False
  | .enginit => False
  | .dec _ => False
  | .byp => False
  | .trm => False
  | .mbtI _ => False
  | .mbtSI _ _ => False
  | .mbtP => False
  | .mbtB _ => False
  | .smbtP => False
  | .smbtB => False
  | .ctxrd _ => False
  | .statrd => False

/-! ### Tables as prefix codes -/

/-- The codewords of a table, with the bin kinds along each: (value, bins, kinds). -/
def codewords : BinTree → List (Nat × List Bool × List BinKind)
  | .leaf v => [(v, [], [])]
  | .node kind zero one =>
    ((codewords zero).map fun w => (w.1, false :: w.2.1, kind :: w.2.2)) ++
      ((codewords one).map fun w => (w.1, true :: w.2.1, kind :: w.2.2))

/-- The length of a table's longest codeword. -/
def treeDepth : BinTree → Nat
  | .leaf _ => 0
  | .node _ zero one => max (treeDepth zero) (treeDepth one) + 1

/-! ### The bins a command decodes -/

/-- Bins of the given kinds, decoded one after another from `s`, have the given values and leave the state answered; none
when some bin has another value or does not decode. -/
def decodesBins : List BinKind → List Bool → State → Option State
  | [], [], s => some s
  | kind :: kinds, b :: bins, s =>
    match binOf kind s with
    | .ok b' s' => if b' = b then decodesBins kinds bins s' else none
    | .raise _ _ => none
    | .wait _ _ => none
  | [], _ :: _, _ => none
  | _ :: _, [], _ => none

/-- The next bins of one part of a command, asked for over CSEL and decoded from `s`, have the values `bins`, and leave the
state answered; `done` are the part's bins before them. None when some bin has another value or does not decode. -/
def fetchesBins (opc : Opcode) (part : Bool) : List Bool → List Bool → State → Option State
  | _, [], s => some s
  | done, b :: bins, s =>
    match fetchBin opc part done.length (prevOf done) s with
    | .ok b' s' => if b' = b then fetchesBins opc part (done ++ [b]) bins s' else none
    | .raise _ _ => none
    | .wait _ _ => none

/-- The bins of a unary part of value v that ends with a 0-bin. -/
def unaryBins (v : Nat) : List Bool := List.replicate v true ++ [false]

/-! ### What the tree commands do -/

/-- A tree command `i` with table `t` completes from every state in which it executes normally, the invariants of R29 hold
and the bit source has the seven bits per bin that a bin can need (R105): it responds OK with a value of its table, and
leaves the engine TERMINATED for the value `pcm` (I_PCM) and ACTIVE for every other. -/
def TreeCompletes (i : Instr) (t : BinTree) (pcm : Option Nat) : Prop :=
  ∀ s : State, Ready i s → EngineInv s → 7 * treeDepth t ≤ s.bits.length →
    ∃ (u : State) (v : Nat), exec i s = .next u ∧ u.FAULT = .none ∧ u.wait = s.wait ∧
      u.rsps = s.rsps ++ [⟨0#3, BitVec.ofNat 32 v⟩] ∧ v ∈ (codewords t).map (·.1) ∧
      u.engState = (if pcm = some v then .terminated else .active)

/-- The response of a tree command is the codeword its bins spell (R161 to R167). -/
def TreeReturns (i : Instr) (t : BinTree) : Prop :=
  ∀ (s u : State) (v : Nat) (bins : List Bool) (kinds : List BinKind), Ready i s → (v, bins, kinds) ∈ codewords t →
    decodesBins kinds bins s = some u → exec i s = .next (u.respond 0#3 (BitVec.ofNat 32 v))

/-! ### Numbers -/

/-- The number a list of bits is, the first bit most significant (R52). -/
def msbValue (bits : List Bool) : Nat := bits.foldl (fun v b => 2 * v + b.toNat) 0

/-- How many doublings RenormD makes from a range: the least n with range * 2^n >= 256 (R95). -/
def renormShift (range : Nat) : Nat := if 256 ≤ range then 0 else 8 - Nat.log2 range

/-- The state after RenormD's `n` doublings from `s` (R95). -/
def renormed (n : Nat) (s : State) : State :=
  { s with
    codIRange := BitVec.ofNat 9 (s.codIRange.toNat * 2 ^ n)
    codIOffset := BitVec.ofNat 9 (s.codIOffset.toNat * 2 ^ n + msbValue (s.bits.take n))
    bits := s.bits.drop n
    pos := s.pos + n }

/-- The state after the bins of `n` bypass answers, asked for over CSEL under opcode `opc` as a unary run asks (R77, R96, R133):
a long division of the offset and the next n bits by the range. -/
def bypassed (opc : Opcode) (n : Nat) (s : State) : State :=
  { s with
    codIOffset := BitVec.ofNat 9 ((s.codIOffset.toNat * 2 ^ n + msbValue (s.bits.take n)) % s.codIRange.toNat)
    bits := s.bits.drop n
    pos := s.pos + n
    cselAns := s.cselAns.drop n
    cselReqs := s.cselReqs ++ (List.range n).map fun j => cselRequest opc false j (ones j) }

/-- The bits left before the next byte boundary (R101). -/
def alignGap (s : State) : Nat := (8 - s.pos % 8) % 8

/-- All that bears on what a command does: the state less what the outside alone keeps (the logs of responses and requests,
the words to come, the count of free values) and with the position only as far as byte alignment sees it. -/
def sliceView (s : State) : State :=
  { s with pos := s.pos % 8, cmds := [], rsps := [], rspHeld := false, cselReqs := [], freeCount := 0 }

end Sys2Proof.Machine
end

