-- ==== Sys2Proof/Certificates/Slice0/Obligations.lean ====
section
/-!
DEFINITION. The statements for the provers, each formalising rules of the spec. They are grouped as the spec's files are: words,
reset and faults, the engine, the contexts, binarizations, trees, read-back, and the machine as a whole.
-/

open Sys2Proof Sys2Proof.Machine

/-! ### Words (30_encoding.md) -/

/-- Every well-formed command is what its own word decodes to: no operand bit of any encoding is lost (R70 to R72, R74). -/
def Obligations.DecodeOfEncodeIsTheCommand : Prop :=
  ∀ i : Instr, i.wellFormed = true → decode (encode i) = .ok i

/-- Every word that decodes is the word of the command it decodes to, which is well formed: decoding reads every bit. -/
def Obligations.EncodeOfDecodeIsTheWord : Prop :=
  ∀ (w : Word) (i : Instr), decode w = .ok i → encode i = w ∧ i.wellFormed = true

/-- A word that decodes matches the mask and the match value (OPC << 26) of its command's row of the opcode map (R74); a word that
matches a row decodes to a command of that row, unless an increment field of it holds 3 and it is rejected for that; and
a word matches the rows of at most one opcode. -/
def Obligations.WordsSelectTheirOpcodeRow : Prop :=
  (∀ (w : Word) (i : Instr), decode w = .ok i → w &&& rowMask i = place (opcode i) 26) ∧
  (∀ (w : Word) (i : Instr), w &&& rowMask i = place (opcode i) 26 →
    (∃ j : Instr, decode w = .ok j ∧ opcode j = opcode i) ∨
    (decode w = .error .reservedIncrement ∧
      (((opcode i = 0x10#6 ∨ opcode i = 0x13#6) ∧ w.extractLsb' 0 2 = 3#2) ∨
        (opcode i = 0x11#6 ∧ (w.extractLsb' 0 2 = 3#2 ∨ w.extractLsb' 2 2 = 3#2))))) ∧
  (∀ (w : Word) (i j : Instr), w &&& rowMask i = place (opcode i) 26 → w &&& rowMask j = place (opcode j) 26 →
    opcode i = opcode j)

/-- Words written out bit by bit from R71 and R74, one or more of every family, with the commands they stand for. -/
def Obligations.SampleWordsDecodeAsWritten : Prop :=
  decode 0b000001_00000000000000000_01_1111010#32 = .ok (.ctxinit 0b1111010#7 1#2) ∧
  decode 0b000010_0000000000000000000000000_1#32 = .ok (.align true) ∧
  decode 0b000100_0000000000000000_0100010100#32 = .ok (.dec 276#10) ∧
  decode 0b000110_00000000000000000000000000#32 = .ok .trm ∧
  decode 0b001001_0000000000_0010011100010000#32 = .ok (.tu 10000#16) ∧
  decode 0b001011_0000000000000_00001001_0011_1#32 = .ok (.uegk true 3#4 9#8) ∧
  decode 0b001101_000000000000000000000000_10#32 = .ok (.cbp 2#2) ∧
  decode 0b010001_0000000000000000000000_10_01#32 = .ok (.mbtSI 1#2 2#2) ∧
  decode 0b010011_000000000000000000000000_10#32 = .ok (.mbtB 2#2) ∧
  decode 0b111100_0000000000000000_1111111111#32 = .ok (.ctxrd 1023#10) ∧
  decode 0b111101_00000000000000000000000000#32 = .ok .statrd ∧
  decode 0b010001_0000000000000000000000_11_01#32 = .error .reservedIncrement ∧
  decode 0b001001_0000000001_0000000000000011#32 = .error .reservedOperandBit ∧
  decode 0#32 = .error .reservedOpcode

/-- The reserved opcodes are exactly 0x00, 0x07, 0x0E, 0x0F, 0x16 to 0x3B, 0x3E and 0x3F (R75). -/
def Obligations.ReservedOpcodesAreExactlyTheListed : Prop :=
  ∀ w : Word, decode w = .error .reservedOpcode ↔
    ((opcodeField w).toNat ∈ [0x00, 0x07, 0x0E, 0x0F, 0x3E, 0x3F] ∨
      (0x16 ≤ (opcodeField w).toNat ∧ (opcodeField w).toNat ≤ 0x3B))

/-! ### Steps, reset and faults (10_state.md, 60_exceptions.md, 70_reset_and_hazards.md) -/

/-- A step at an idle block takes the next command word and is exec of the command it decodes to, at the state with the word
taken (R21, R30). The second clause is the model's choice, not a rule of the spec (log entry 7): a word placed by
withFetchWord, which makes the block idle, is the one the next step runs. -/
def Obligations.StepRunsTheDecodedCommand : Prop :=
  (∀ (s : State) (w : Word) (rest : List Word) (i : Instr), Idle s → s.cmds = w :: rest → decode w = .ok i →
    step s = exec i { s with cmds := rest }) ∧
  (∀ (s : State) (w : Word) (i : Instr), decode w = .ok i →
    step (s.withFetchWord 32 w.toNat) = exec i { s with rspHeld := false, wait := none })

/-- While the block waits on a port, while its last response is not taken, and while no word is presented, it holds (R30,
R32). The second clause is the model's choice, not a rule of the spec (log entry 9): exec always answers a next state, also
for a command stuck on a port. -/
def Obligations.BlockHoldsWhileItWaits : Prop :=
  (∀ s : State, (s.wait ≠ none ∨ s.rspHeld = true ∨ s.cmds = []) → step s = .next s) ∧
  (∀ (i : Instr) (s : State), ∃ t : State, exec i s = .next t)

/-- After power-on the registers hold the values of reset (R210), and STATRD shows the STATUS word 0 (R211); the reset event sets the
same registers in any state, abandons a command that waits on a port, leaves the block idle, and touches neither the bit
source nor the ROM nor what the host has presented and will answer. That a response the host has not yet taken is withdrawn,
its command being in progress, is the model's reading of R210 and U8 (log entry 20). -/
def Obligations.ResetLeavesTheSpecifiedRegisters : Prop :=
  (State.reset.FAULT = .none ∧ State.reset.engState = .uninit ∧ State.reset.ctxValid = false ∧
    State.reset.codIRange = 0 ∧ State.reset.codIOffset = 0 ∧
    exec .statrd State.reset = .next (State.reset.respond 0#3 0#32)) ∧
  (∀ s : State, s.resetEvent.FAULT = .none ∧ s.resetEvent.engState = .uninit ∧ s.resetEvent.ctxValid = false ∧
    s.resetEvent.codIRange = 0 ∧ s.resetEvent.codIOffset = 0 ∧ s.resetEvent.wait = none ∧
    s.resetEvent.rspHeld = false ∧ s.resetEvent.rsps = (if s.rspHeld then s.rsps.dropLast else s.rsps) ∧
    s.resetEvent.bits = s.bits ∧ s.resetEvent.pos = s.pos ∧ s.resetEvent.bitEnd = s.bitEnd ∧
    s.resetEvent.alignsLeft = s.alignsLeft ∧ s.resetEvent.rom = s.rom ∧ s.resetEvent.cmds = s.cmds ∧
    s.resetEvent.cselAns = s.cselAns ∧ s.resetEvent.cselReqs = s.cselReqs)

/-- A word that is not well formed raises InvalidDerivationRequest when no fault is pending (R72, R79, R188), with no other
effect than fault entry. -/
def Obligations.IllegalWordRaisesInvalidDerivation : Prop :=
  ∀ (s : State) (w : Word) (rest : List Word) (e : DecodeError), Idle s → s.cmds = w :: rest → s.FAULT = .none →
    decode w = .error e → step s = .next (enterFault .invalidDerivationRequest { s with cmds := rest })

/-- Refusal (R187): while a fault is pending, a word whose opcode field is neither CTXINIT's nor STATRD's changes nothing but
the response, whatever its other bits are. -/
def Obligations.PendingFaultRefusesEveryOtherWord : Prop :=
  ∀ (s : State) (w : Word) (rest : List Word), Idle s → s.cmds = w :: rest → s.FAULT ≠ .none →
    opcodeField w ≠ 0x01#6 → opcodeField w ≠ 0x3D#6 →
    step s = .next { s with cmds := rest, rsps := s.rsps ++ [⟨faultCode s.FAULT, 0#32⟩] }

/-- Nesting (R191): while a fault is pending, a step refuses the word, or runs a CTXINIT or STATRD that responds OK, or takes a
fault for a CTXINIT or STATRD word with a non-zero reserved bit; that fault responds with its own code 5, leaves FAULT at the
first code, and applies the rest of fault entry. -/
def Obligations.FirstFaultIsKept : Prop :=
  ∀ (s t : State) (w : Word) (rest : List Word), Idle s → s.cmds = w :: rest → s.FAULT ≠ .none → step s = .next t →
    (opcodeField w ≠ 0x01#6 ∧ opcodeField w ≠ 0x3D#6 ∧
      t = { s with cmds := rest, rsps := s.rsps ++ [⟨faultCode s.FAULT, 0#32⟩] }) ∨
    (((∃ qp sel, decode w = .ok (.ctxinit qp sel)) ∨ decode w = .ok .statrd) ∧
      ∃ v : Word, t.rsps = s.rsps ++ [⟨0#3, v⟩]) ∨
    ((opcodeField w = 0x01#6 ∨ opcodeField w = 0x3D#6) ∧ decode w = .error .reservedOperandBit ∧
      t = enterFault .invalidDerivationRequest { s with cmds := rest } ∧
      t.rsps = s.rsps ++ [⟨5#3, 0#32⟩] ∧ t.FAULT = s.FAULT ∧ t.engState = .uninit ∧ t.ctxValid = false ∧
      t.bits = s.bits ∧ t.pos = s.pos ∧ t.rom = s.rom)

/-- A command that faults ends its slice (R186): FAULT takes the code, the engine is UNINIT, the contexts are invalid, the
response carries the code and the value 0, and the bits taken stay taken. -/
def Obligations.FaultingCommandEndsTheSlice : Prop :=
  ∀ (i : Instr) (s t : State), s.FAULT = .none → exec i s = .next t → t.FAULT ≠ .none →
    t.engState = .uninit ∧ t.ctxValid = false ∧ t.rsps = s.rsps ++ [⟨faultCode t.FAULT, 0#32⟩] ∧ t.wait = s.wait ∧
    t.rom = s.rom ∧ ∃ taken : List Bool, s.bits = taken ++ t.bits ∧ t.pos = s.pos + taken.length

/-- The precondition table of R188: a command outside its engState and ctxValid condition raises InvalidDerivationRequest and
does nothing else. The last clause is the model's, not a rule of the spec (log entry 11): exec of a command with an
increment of 3 does the same; no step calls exec so, since no word decodes to such a command. -/
def Obligations.FailedPreconditionsFault : Prop :=
  ∀ s : State, s.FAULT = .none →
    (s.engState = .active → ∀ i : Instr, (i = .enginit ∨ ∃ f, i = .align f) →
      exec i s = .next (enterFault .invalidDerivationRequest s)) ∧
    (s.engState ≠ .active → ∀ i : Instr, (i = .byp ∨ i = .trm) →
      exec i s = .next (enterFault .invalidDerivationRequest s)) ∧
    ((s.engState ≠ .active ∨ s.ctxValid = false) → ∀ i : Instr,
      ((∃ c, i = .dec c) ∨ i = .u ∨ (∃ c, i = .tu c) ∨ (∃ c, i = .fl c) ∨ (∃ g k c, i = .uegk g k c) ∨ i = .qpd ∨
        (∃ c, i = .cbp c) ∨ (∃ a, i = .mbtI a) ∨ (∃ a b, i = .mbtSI a b) ∨ i = .mbtP ∨ (∃ a, i = .mbtB a) ∨ i = .smbtP ∨
        i = .smbtB) →
      exec i s = .next (enterFault .invalidDerivationRequest s)) ∧
    (s.ctxValid = false → ∀ c, exec (.ctxrd c) s = .next (enterFault .invalidDerivationRequest s)) ∧
    (∀ i : Instr, i.wellFormed = false → exec i s = .next (enterFault .invalidDerivationRequest s))

/-- UnsupportedFeature is never raised (R184): no step puts code 4 into FAULT or into a response; nor does one respond with the
codes 6 and 7 (R180). -/
def Obligations.UnsupportedFeatureIsNeverRaised : Prop :=
  ∀ s t : State, s.FAULT ≠ .unsupportedFeature → step s = .next t →
    t.FAULT ≠ .unsupportedFeature ∧
    ∀ r ∈ t.rsps, r ∈ s.rsps ∨ (r.status ≠ 4#3 ∧ r.status ≠ 6#3 ∧ r.status ≠ 7#3)

/-- Where two faults come from (R182, R183): StructuralViolation is raised by ALIGN and ENGINIT alone, UnboundedLoopDetected by U,
QPD, TU with CMAX above 10000, and UEGK alone. -/
def Obligations.LoopAndStructureFaultsHaveTheirCommands : Prop :=
  ∀ (i : Instr) (s t : State), s.FAULT = .none → exec i s = .next t →
    (t.FAULT = .structuralViolation → i = .enginit ∨ ∃ f, i = .align f) ∧
    (t.FAULT = .unboundedLoopDetected →
      i = .u ∨ i = .qpd ∨ (∃ cmax : BitVec 16, i = .tu cmax ∧ 10000 < cmax.toNat) ∨ ∃ g k uc, i = .uegk g k uc)

/-- StreamExhaustion is raised only when every bit was taken and the source answers EXHAUSTED, and never by CTXINIT, STATRD or
CTXRD (R50, R181). -/
def Obligations.StreamExhaustionComesAtTheEndOfTheBits : Prop :=
  ∀ (i : Instr) (s t : State), s.FAULT = .none → exec i s = .next t → t.FAULT = .streamExhaustion →
    t.bits = [] ∧ s.bitEnd = .exhausted ∧ t.pos = s.pos + s.bits.length ∧
    (∀ qp sel, i ≠ .ctxinit qp sel) ∧ i ≠ .statrd ∧ ∀ c, i ≠ .ctxrd c

/-! ### The engine (20_memory.md, 40_engine.md) -/

/-- ReadBits(n) takes n bits, the first one read being the most significant (R52). -/
def Obligations.ReadBitsMostSignificantFirst : Prop :=
  ∀ (n : Nat) (s : State), n ≤ s.bits.length →
    readBits n 0 s = .ok (msbValue (s.bits.take n)) { s with bits := s.bits.drop n, pos := s.pos + n }

/-- ENGINIT primes the engine (R100): codIRange 510, codIOffset the next nine bits, which are taken, engState ACTIVE, the response
(OK, 0); nothing else changes. -/
def Obligations.EnginitPrimesTheEngine : Prop :=
  ∀ s : State, s.FAULT = .none → s.engState ≠ .active → 9 ≤ s.bits.length → msbValue (s.bits.take 9) < 510 →
    exec .enginit s = .next { s with
      codIRange := 510#9
      codIOffset := BitVec.ofNat 9 (msbValue (s.bits.take 9))
      engState := .active
      bits := s.bits.drop 9
      pos := s.pos + 9
      rsps := s.rsps ++ [⟨0#3, 0#32⟩] }

/-- ENGINIT's faults (R100, R182): the offsets 510 and 511 are a StructuralViolation after all nine bits; too few bits are a
StreamExhaustion with those bits taken. -/
def Obligations.EnginitFaults : Prop :=
  ∀ s : State, s.FAULT = .none → s.engState ≠ .active →
    (9 ≤ s.bits.length → 510 ≤ msbValue (s.bits.take 9) → exec .enginit s =
      .next (enterFault .structuralViolation { s with bits := s.bits.drop 9, pos := s.pos + 9 })) ∧
    (s.bits.length < 9 → s.bitEnd = .exhausted → exec .enginit s =
      .next (enterFault .streamExhaustion { s with bits := [], pos := s.pos + s.bits.length }))

/-- ALIGN F takes the bits up to the next byte boundary when each equals F, and responds with their number (R101); nothing else
changes. That it ends rests on the bit source answering the aligned? requests this takes, one more than the bits; a source
that answers only k of them leaves ALIGN waiting on the bit port for ever, after k bits (R32). How many requests the source
answers is the model's field alignsLeft (log entry 5). -/
def Obligations.AlignSkipsToTheByteBoundary : Prop :=
  ∀ (s : State) (f : Bool), s.FAULT = .none → s.engState ≠ .active →
    (alignGap s ≤ s.bits.length → (∀ b ∈ s.bits.take (alignGap s), b = f) →
      (∀ k : Nat, s.alignsLeft = some k → alignGap s + 1 ≤ k) →
      exec (.align f) s = .next { s with
        bits := s.bits.drop (alignGap s)
        pos := s.pos + alignGap s
        alignsLeft := s.alignsLeft.map (· - (alignGap s + 1))
        rsps := s.rsps ++ [⟨0#3, BitVec.ofNat 32 (alignGap s)⟩] }) ∧
    (∀ k : Nat, s.alignsLeft = some k → k ≤ alignGap s → k ≤ s.bits.length → (∀ b ∈ s.bits.take k, b = f) →
      exec (.align f) s = .next { s with
        bits := s.bits.drop k
        pos := s.pos + k
        alignsLeft := some 0
        wait := some .bit })

/-- ALIGN's faults (R101): the first bit that differs from F is a StructuralViolation and is taken; bits that end before the
boundary are a StreamExhaustion. That ALIGN gets so far rests on the bit source answering the n + 1 aligned? requests
before that bit, which the model counts in its field alignsLeft (log entry 5). -/
def Obligations.AlignFaults : Prop :=
  ∀ (s : State) (f : Bool) (n : Nat), s.FAULT = .none → s.engState ≠ .active → n < alignGap s →
    (∀ k : Nat, s.alignsLeft = some k → n + 1 ≤ k) →
    (∀ rest : List Bool, s.bits = List.replicate n f ++ (!f) :: rest → exec (.align f) s =
      .next (enterFault .structuralViolation { s with
        bits := rest, pos := s.pos + n + 1, alignsLeft := s.alignsLeft.map (· - (n + 1)) })) ∧
    (s.bits = List.replicate n f → s.bitEnd = .exhausted → exec (.align f) s =
      .next (enterFault .streamExhaustion { s with
        bits := [], pos := s.pos + n, alignsLeft := s.alignsLeft.map (· - (n + 1)) }))

/-- DEC on its LPS path (R93, R102): the bin is the LPS, the interval the LPS sub-range, renormalized; the entry moves along
TransIdxLPS and flips its MPS in state 0. -/
def Obligations.DecTakesTheLpsPath : Prop :=
  ∀ (s : State) (c : CtxIdx) (p : BitVec 6) (m : Bool) (rLPS rMPS : Nat),
    s.FAULT = .none → s.engState = .active → s.ctxValid = true → EngineInv s → s.ctxRead c = ⟨p, m⟩ →
    rLPS = rangeLPS p (s.codIRange.extractLsb' 6 2) → rMPS = s.codIRange.toNat - rLPS →
    rMPS ≤ s.codIOffset.toNat → renormShift rLPS ≤ s.bits.length →
    exec (.dec c) s = .next ((renormed (renormShift rLPS)
      ((s.setEngine rLPS (s.codIOffset.toNat - rMPS)).ctxWrite c
        ⟨transIdxLPS p, if p = 0#6 then !m else m⟩)).respond 0#3 (if m then 0#32 else 1#32))

/-- DEC on its MPS path (R93, R102): the bin is the MPS, the interval the rest of the range, renormalized by at most one
doubling (R105); the entry moves along TransIdxMPS. -/
def Obligations.DecTakesTheMpsPath : Prop :=
  ∀ (s : State) (c : CtxIdx) (p : BitVec 6) (m : Bool) (rLPS rMPS : Nat),
    s.FAULT = .none → s.engState = .active → s.ctxValid = true → EngineInv s → s.ctxRead c = ⟨p, m⟩ →
    rLPS = rangeLPS p (s.codIRange.extractLsb' 6 2) → rMPS = s.codIRange.toNat - rLPS →
    s.codIOffset.toNat < rMPS → renormShift rMPS ≤ s.bits.length →
    renormShift rMPS ≤ 1 ∧
    exec (.dec c) s = .next ((renormed (renormShift rMPS)
      ((s.setEngine rMPS s.codIOffset.toNat).ctxWrite c ⟨transIdxMPS p, m⟩)).respond 0#3 (if m then 1#32 else 0#32))

/-- DEC whose renormalization runs out of bits is a StreamExhaustion with every bit taken (R102, R181). -/
def Obligations.DecRunsOutOfBits : Prop :=
  ∀ (s : State) (c : CtxIdx) (rLPS rMPS : Nat),
    s.FAULT = .none → s.engState = .active → s.ctxValid = true → EngineInv s →
    rLPS = rangeLPS (s.ctxRead c).pStateIdx (s.codIRange.extractLsb' 6 2) → rMPS = s.codIRange.toNat - rLPS →
    s.bits.length < renormShift (if rMPS ≤ s.codIOffset.toNat then rLPS else rMPS) → s.bitEnd = .exhausted →
    exec (.dec c) s = .next (enterFault .streamExhaustion { s with bits := [], pos := s.pos + s.bits.length })

/-- BYP (R96, R103): t = 2 * codIOffset + bit; the bin is 1 when t reaches codIRange, which is then subtracted; only the offset
moves, and one bit is taken. Without a bit it is a StreamExhaustion. -/
def Obligations.BypDecodesOneBypassBin : Prop :=
  ∀ s : State, s.FAULT = .none → s.engState = .active →
    (∀ (b : Bool) (rest : List Bool) (t : Nat), s.bits = b :: rest → t = 2 * s.codIOffset.toNat + b.toNat →
      exec .byp s = .next { s with
        codIOffset := BitVec.ofNat 9 (if s.codIRange.toNat ≤ t then t - s.codIRange.toNat else t)
        bits := rest
        pos := s.pos + 1
        rsps := s.rsps ++ [⟨0#3, if s.codIRange.toNat ≤ t then 1#32 else 0#32⟩] }) ∧
    (s.bits = [] → s.bitEnd = .exhausted → exec .byp s = .next (enterFault .streamExhaustion s))

/-- TRM (R97, R104): the bin is 1 when codIOffset >= codIRange - 2, and then the engine is TERMINATED and no bit is taken; else
it is 0, and the range less 2 is renormalized with at most one bit. -/
def Obligations.TrmDecodesOneTerminateBin : Prop :=
  ∀ s : State, s.FAULT = .none → s.engState = .active → EngineInv s →
    (s.codIRange.toNat - 2 ≤ s.codIOffset.toNat → exec .trm s = .next { s with
      codIRange := BitVec.ofNat 9 (s.codIRange.toNat - 2)
      engState := .terminated
      rsps := s.rsps ++ [⟨0#3, 1#32⟩] }) ∧
    (s.codIOffset.toNat < s.codIRange.toNat - 2 → 258 ≤ s.codIRange.toNat → exec .trm s = .next { s with
      codIRange := BitVec.ofNat 9 (s.codIRange.toNat - 2)
      rsps := s.rsps ++ [⟨0#3, 0#32⟩] }) ∧
    (s.codIOffset.toNat < s.codIRange.toNat - 2 → s.codIRange.toNat < 258 →
      ∀ (b : Bool) (rest : List Bool), s.bits = b :: rest → exec .trm s = .next { s with
        codIRange := BitVec.ofNat 9 (2 * (s.codIRange.toNat - 2))
        codIOffset := BitVec.ofNat 9 (2 * s.codIOffset.toNat + b.toNat)
        bits := rest
        pos := s.pos + 1
        rsps := s.rsps ++ [⟨0#3, 0#32⟩] }) ∧
    (s.codIOffset.toNat < s.codIRange.toNat - 2 → s.codIRange.toNat < 258 → s.bits = [] → s.bitEnd = .exhausted →
      exec .trm s = .next (enterFault .streamExhaustion s))

/-- A run of n bypass bins is a long division (R96): the bins spell the quotient of codIOffset * 2^n + (the next n bits) by
codIRange, first bin most significant, and codIOffset ends as the remainder. -/
def Obligations.BypassBinsAreALongDivision : Prop :=
  ∀ (n : Nat) (s : State), s.engState = .active → s.codIOffset.toNat < s.codIRange.toNat → n ≤ s.bits.length →
    ∃ bins : List Bool, bins.length = n ∧
      msbValue bins = (s.codIOffset.toNat * 2 ^ n + msbValue (s.bits.take n)) / s.codIRange.toNat ∧
      decodesBins (List.replicate n .byp) bins s = some { s with
        codIOffset := BitVec.ofNat 9 ((s.codIOffset.toNat * 2 ^ n + msbValue (s.bits.take n)) % s.codIRange.toNat)
        bits := s.bits.drop n
        pos := s.pos + n }

/-! ### The contexts (41_probability_state.md) -/

/-- The update of a context variable (R116): state 63 absorbs; no other state reaches it (an MPS leads to 1..62, an LPS to
0..38); valMPS changes on an LPS in state 0 and nowhere else. -/
def Obligations.ProbabilityUpdateProperties : Prop :=
  ∀ (p : BitVec 6) (m b : Bool),
    (p = 63#6 → applyBin ⟨p, m⟩ b = ⟨63#6, m⟩) ∧
    (p ≠ 63#6 → b = m → 1 ≤ (applyBin ⟨p, m⟩ b).pStateIdx.toNat ∧ (applyBin ⟨p, m⟩ b).pStateIdx.toNat ≤ 62) ∧
    (p ≠ 63#6 → b ≠ m → (applyBin ⟨p, m⟩ b).pStateIdx.toNat ≤ 38) ∧
    ((applyBin ⟨p, m⟩ b).valMPS ≠ m ↔ b ≠ m ∧ p = 0#6)

/-- The initial context variable (R117): with QPc = Clip3(0, 51, QP) and pre = Clip3(1, 126, floor(m * QPc / 16) + n), it is
(63 - pre, 0) up to 63 and (pre - 64, 1) above; the product stays in -6528..6477. -/
def Obligations.InitialContextFormula : Prop :=
  ∀ m n qp : Int, -128 ≤ m → m ≤ 127 → -128 ≤ n → n ≤ 127 → -64 ≤ qp → qp ≤ 63 →
    -6528 ≤ m * max 0 (min 51 qp) ∧ m * max 0 (min 51 qp) ≤ 6477 ∧
    ∀ pre : Int, pre = max 1 (min 126 (m * max 0 (min 51 qp) / 16 + n)) →
      (pre ≤ 63 → (initCtx m n qp).valMPS = false ∧ ((initCtx m n qp).pStateIdx.toNat : Int) = 63 - pre) ∧
      (64 ≤ pre → (initCtx m n qp).valMPS = true ∧ ((initCtx m n qp).pStateIdx.toNat : Int) = pre - 64) ∧
      (initCtx m n qp).pStateIdx.toNat ≤ 62

/-- CTXINIT completes in every state (R119): every entry but 276 is initialized from the ROM, entry 276 is (63, 0) (R118), the
control state and the engine registers are those of a new slice, and nothing else changes but the response. -/
def Obligations.CtxinitGivesAFreshSlice : Prop :=
  ∀ (s : State) (qp : BitVec 7) (sel : BitVec 2), ∃ t : State, exec (.ctxinit qp sel) s = .next t ∧
    (∀ c : CtxIdx, c ≠ 276#10 →
      t.ctxRead c = initCtx (romEntry s.rom sel c).1 (romEntry s.rom sel c).2 qp.toInt) ∧
    t.ctxRead 276#10 = ⟨63#6, false⟩ ∧
    t = { s with
      ctx := t.ctx
      ctxValid := true
      engState := .uninit
      codIRange := 0#9
      codIOffset := 0#9
      FAULT := .none
      rsps := s.rsps ++ [⟨0#3, 0#32⟩] }

/-! ### Binarizations (42_binarization.md) -/

/-- U returns the number of 1-bins before the first 0-bin (R134), for every count below the ceiling. -/
def Obligations.UReturnsTheUnaryCount : Prop :=
  ∀ (s t : State) (v : Nat), s.FAULT = .none → s.engState = .active → s.ctxValid = true → v < 10000 →
    fetchesBins 0x08#6 false [] (unaryBins v) s = some t →
    exec .u s = .next (t.respond 0#3 (BitVec.ofNat 32 v))

/-- U, QPD and UEGK below saturation on bypass bins, from the state alone (R77, R96, R133, R134, R137, R138): when the host
answers BYP and the next v + 1 bypass bins are v ones and a zero, U returns v, QPD the v-th value of 0, 1, -1, 2, -2, ...,
and UEGK with no sign bin to read v; the requests of R77 were sent with PREV all ones. -/
def Obligations.UnaryCommandsOnBypassBins : Prop :=
  ∀ (s : State) (v n : Nat) (rest : List CselAnswer), s.FAULT = .none → s.engState = .active → s.ctxValid = true →
    EngineInv s → v < 10000 → n = v + 1 → n ≤ s.bits.length → s.cselAns = List.replicate n 1#12 ++ rest →
    (s.codIOffset.toNat * 2 ^ n + msbValue (s.bits.take n)) / s.codIRange.toNat = 2 ^ n - 2 →
    exec .u s = .next ((bypassed 0x08#6 n s).respond 0#3 (BitVec.ofNat 32 v)) ∧
    exec .qpd s = .next ((bypassed 0x0C#6 n s).respond 0#3
      (if v % 2 = 1 then BitVec.ofNat 32 ((v + 1) / 2) else BitVec.ofInt 32 (-((v / 2 : Nat) : Int)))) ∧
    ∀ (sgn : Bool) (k : BitVec 4) (uc : BitVec 8), v < uc.toNat → (sgn = false ∨ v = 0) →
      exec (.uegk sgn k uc) s = .next ((bypassed 0x0B#6 n s).respond 0#3 (BitVec.ofNat 32 v))

/-- U, QPD and TU with CMAX above 10000 raise UnboundedLoopDetected after 10000 1-bins, before another bin (R133). -/
def Obligations.UnaryRunsFaultAtTheCeiling : Prop :=
  ∀ s t : State, s.FAULT = .none → s.engState = .active → s.ctxValid = true →
    (fetchesBins 0x08#6 false [] (List.replicate 10000 true) s = some t →
      exec .u s = .next (enterFault .unboundedLoopDetected t)) ∧
    (fetchesBins 0x0C#6 false [] (List.replicate 10000 true) s = some t →
      exec .qpd s = .next (enterFault .unboundedLoopDetected t)) ∧
    (∀ cmax : BitVec 16, 10000 < cmax.toNat → fetchesBins 0x09#6 false [] (List.replicate 10000 true) s = some t →
      exec (.tu cmax) s = .next (enterFault .unboundedLoopDetected t))

/-- TU returns the count of 1-bins before a 0-bin, and CMAX after CMAX 1-bins without reading another bin (R135). -/
def Obligations.TuReturnsTheTruncatedCount : Prop :=
  ∀ (s t : State) (cmax : BitVec 16), s.FAULT = .none → s.engState = .active → s.ctxValid = true →
    (∀ v : Nat, v < cmax.toNat → v < 10000 → fetchesBins 0x09#6 false [] (unaryBins v) s = some t →
      exec (.tu cmax) s = .next (t.respond 0#3 (BitVec.ofNat 32 v))) ∧
    (cmax.toNat ≤ 10000 → fetchesBins 0x09#6 false [] (List.replicate cmax.toNat true) s = some t →
      exec (.tu cmax) s = .next (t.respond 0#3 (cmax.setWidth 32)))

/-- FL reads the bit length of CMAX in bins, the first one least significant (R136). -/
def Obligations.FlReadsLeastSignificantFirst : Prop :=
  ∀ (s t : State) (cmax : BitVec 16) (bins : List Bool), s.FAULT = .none → s.engState = .active → s.ctxValid = true →
    cmax.toNat + 1 ≤ 2 ^ bins.length → (∀ n : Nat, cmax.toNat + 1 ≤ 2 ^ n → bins.length ≤ n) →
    fetchesBins 0x0A#6 false [] bins s = some t →
    exec (.fl cmax) s = .next (t.respond 0#3 (BitVec.ofNat 32 (msbValue bins.reverse)))

/-- UEGK below saturation (R137): a prefix value v < UC is the magnitude; a sign bin follows exactly when S = 1 and v is not 0,
and 1 means negative. -/
def Obligations.UegkBelowSaturation : Prop :=
  ∀ (s t : State) (sgn : Bool) (k : BitVec 4) (uc : BitVec 8) (v : Nat), s.FAULT = .none → s.engState = .active →
    s.ctxValid = true → v < uc.toNat → fetchesBins 0x0B#6 false [] (unaryBins v) s = some t →
    ((sgn = false ∨ v = 0) → exec (.uegk sgn k uc) s = .next (t.respond 0#3 (BitVec.ofNat 32 v))) ∧
    (sgn = true → v ≠ 0 → ∀ (b : Bool) (u : State), decodesBins [.byp] [b] t = some u →
      exec (.uegk sgn k uc) s = .next (u.respond 0#3 (BitVec.ofInt 32 (if b then -(v : Int) else v))))

/-- UEGK with a saturated prefix part (R137): an escape run of j 1-bins and a 0-bin, then K + j verbatim bits x, most
significant first, give the magnitude UC + 2^K * (2^j - 1) + x; the sign follows as before. -/
def Obligations.UegkWithSuffix : Prop :=
  ∀ (s t u : State) (sgn : Bool) (k : BitVec 4) (uc : BitVec 8) (j m : Nat) (x : List Bool), s.FAULT = .none →
    s.engState = .active → s.ctxValid = true → k.toNat + j < 24 → x.length = k.toNat + j →
    m = uc.toNat + 2 ^ k.toNat * (2 ^ j - 1) + msbValue x →
    fetchesBins 0x0B#6 false [] (List.replicate uc.toNat true) s = some t →
    decodesBins (List.replicate (j + 1 + (k.toNat + j)) .byp) (List.replicate j true ++ false :: x) t = some u →
    ((sgn = false ∨ m = 0) → exec (.uegk sgn k uc) s = .next (u.respond 0#3 (BitVec.ofNat 32 m))) ∧
    (sgn = true → m ≠ 0 → ∀ (b : Bool) (w : State), decodesBins [.byp] [b] u = some w →
      exec (.uegk sgn k uc) s = .next (w.respond 0#3 (BitVec.ofInt 32 (if b then -(m : Int) else m))))

/-- The UEGK escape run faults when its order reaches 24, after 24 - K 1-bins and before another bin (R137). -/
def Obligations.UegkEscapeFaultsAtItsCeiling : Prop :=
  ∀ (s t u : State) (sgn : Bool) (k : BitVec 4) (uc : BitVec 8), s.FAULT = .none → s.engState = .active →
    s.ctxValid = true → fetchesBins 0x0B#6 false [] (List.replicate uc.toNat true) s = some t →
    decodesBins (List.replicate (24 - k.toNat) .byp) (List.replicate (24 - k.toNat) true) t = some u →
    exec (.uegk sgn k uc) s = .next (enterFault .unboundedLoopDetected u)

/-- The range of UEGK's results (R137): a command that ends OK returns a magnitude of at most UC + 2^24 - 2^K - 1, and no
negative value without S. -/
def Obligations.UegkResultRange : Prop :=
  ∀ (s t : State) (sgn : Bool) (k : BitVec 4) (uc : BitVec 8), s.FAULT = .none → s.engState = .active →
    s.ctxValid = true → s.wait = none → exec (.uegk sgn k uc) s = .next t → t.FAULT = .none → t.wait = none →
    ∃ v : Int, t.rsps = s.rsps ++ [⟨0#3, BitVec.ofInt 32 v⟩] ∧ |v| ≤ uc.toNat + 2 ^ 24 - 2 ^ k.toNat - 1 ∧
      |v| ≤ 16777469 ∧ (sgn = false → 0 ≤ v)

/-- QPD maps a unary codeNum c to 0, to (c + 1) / 2 when c is odd, and to -(c / 2) when it is even (R138). -/
def Obligations.QpdMapsTheCodeNumber : Prop :=
  ∀ (s t : State) (c : Nat), s.FAULT = .none → s.engState = .active → s.ctxValid = true → c < 10000 →
    fetchesBins 0x0C#6 false [] (unaryBins c) s = some t →
    (c % 2 = 1 → exec .qpd s = .next (t.respond 0#3 (BitVec.ofNat 32 ((c + 1) / 2)))) ∧
    (c % 2 = 0 → exec .qpd s = .next (t.respond 0#3 (BitVec.ofInt 32 (-((c / 2 : Nat) : Int)))))

/-- The codeNum-to-value map is a bijection from 0..9999 onto -4999..5000 (R138). -/
def Obligations.QpdMapIsABijection : Prop :=
  (∀ c : Nat, c < 10000 → -4999 ≤ qpDelta c ∧ qpDelta c ≤ 5000) ∧
  (∀ v : Int, -4999 ≤ v → v ≤ 5000 → ∃ c : Nat, c < 10000 ∧ qpDelta c = v ∧ ∀ d : Nat, qpDelta d = v → d = c)

/-- CBP (R139): four luma bins, the first one least significant; with CAT 1 or 2 a chroma value 0, 1 or 2 as a truncated unary
part of its own; the value is luma + 16 * chroma. -/
def Obligations.CbpComposesLumaAndChroma : Prop :=
  ∀ (s t : State) (cat : BitVec 2) (b0 b1 b2 b3 : Bool) (luma : Nat), s.FAULT = .none → s.engState = .active →
    s.ctxValid = true → luma = b0.toNat + 2 * b1.toNat + 4 * b2.toNat + 8 * b3.toNat →
    fetchesBins 0x0D#6 false [] [b0, b1, b2, b3] s = some t →
    ((cat = 0#2 ∨ cat = 3#2) → exec (.cbp cat) s = .next (t.respond 0#3 (BitVec.ofNat 32 luma))) ∧
    ((cat = 1#2 ∨ cat = 2#2) → ∀ (chroma : Nat) (bins : List Bool) (u : State),
      (chroma, bins) ∈ [(0, [false]), (1, [true, false]), (2, [true, true])] →
      fetchesBins 0x0D#6 true [] bins t = some u →
      exec (.cbp cat) s = .next (u.respond 0#3 (BitVec.ofNat 32 (luma + 16 * chroma))))

/-- TU up to 10000, FL and CBP complete from the state alone: with enough answers of kind DEC or BYP and seven bits per bin, they
respond OK with a value in their range (R135, R136, R139). -/
def Obligations.QueriedCommandsComplete : Prop :=
  ∀ (s : State) (n : Nat), s.FAULT = .none → s.engState = .active → s.ctxValid = true → EngineInv s →
    n ≤ s.cselAns.length → 7 * n ≤ s.bits.length →
    (∀ a ∈ s.cselAns.take n, answerKind a = some .byp ∨ ∃ c, answerKind a = some (.dec c)) →
    (∀ cmax : BitVec 16, cmax.toNat = n → n ≤ 10000 → ∃ (t : State) (v : Nat), exec (.tu cmax) s = .next t ∧
      t.FAULT = .none ∧ t.engState = .active ∧ v ≤ n ∧ t.rsps = s.rsps ++ [⟨0#3, BitVec.ofNat 32 v⟩]) ∧
    (∀ cmax : BitVec 16, cmax.toNat < 2 ^ n → n ≤ 16 → ∃ (t : State) (v : Nat), exec (.fl cmax) s = .next t ∧
      t.FAULT = .none ∧ t.engState = .active ∧ v < 2 ^ n ∧ t.rsps = s.rsps ++ [⟨0#3, BitVec.ofNat 32 v⟩]) ∧
    (n = 6 → ∀ cat : BitVec 2, ∃ (t : State) (v : Nat), exec (.cbp cat) s = .next t ∧ t.FAULT = .none ∧
      t.engState = .active ∧ v ≤ 47 ∧ (cat = 0#2 ∨ cat = 3#2 → v ≤ 15) ∧
      t.rsps = s.rsps ++ [⟨0#3, BitVec.ofNat 32 v⟩])

/-- A command's first CSEL answer, when of the reserved kind, raises InvalidDerivationRequest before any bit is read (R132): the
request was sent and the answer taken, and no bit was. -/
def Obligations.ReservedAnswerFaultsBeforeAnyBit : Prop :=
  ∀ (i : Instr) (s : State) (a : CselAnswer) (rest : List CselAnswer), Ready i s → AsksFirst i → s.cselAns = a :: rest →
    a.extractLsb' 0 2 = 3#2 →
    exec i s = .next (enterFault .invalidDerivationRequest { s with
      cselAns := rest, cselReqs := s.cselReqs ++ [cselRequest (opcode i) false 0 0#16] })

/-- The host answers the first query of a command TRM, and that terminate bin is 1: the command's next query raises
InvalidDerivationRequest, with both requests sent, both answers taken and no bit read (R132); in U, QPD and CBP, and in
TU, FL and UEGK with an operand of 2 or more, all of which ask again after a first bin of 1. -/
def Obligations.BinAfterTerminateFaults : Prop :=
  ∀ (i : Instr) (s : State) (a : CselAnswer) (rest : List CselAnswer),
    (i = .u ∨ i = .qpd ∨ (∃ c, i = .cbp c) ∨ (∃ c : BitVec 16, 2 ≤ c.toNat ∧ (i = .tu c ∨ i = .fl c)) ∨
      ∃ (g : Bool) (k : BitVec 4) (c : BitVec 8), 2 ≤ c.toNat ∧ i = .uegk g k c) →
    s.FAULT = .none → s.engState = .active → s.ctxValid = true → EngineInv s →
    s.codIRange.toNat - 2 ≤ s.codIOffset.toNat → s.cselAns = 2#12 :: a :: rest →
    exec i s = .next (enterFault .invalidDerivationRequest { s with
      cselAns := rest
      cselReqs := s.cselReqs ++ [cselRequest (opcode i) false 0 0#16, cselRequest (opcode i) false 1 1#16] })

/-- A command's first query, when the host never answers it, leaves the block in its command for ever (R32): the request was sent,
no bit was read, no response comes, every register holds, and every later step holds. -/
def Obligations.UnansweredQueryHoldsForEver : Prop :=
  ∀ (i : Instr) (s : State), Ready i s → AsksFirst i → s.cselAns = [] → ∃ t : State,
    exec i s = .next t ∧ step t = .next t ∧
    t = { s with cselReqs := s.cselReqs ++ [cselRequest (opcode i) false 0 0#16], wait := some .csel }

/-! ### Trees (43_mbtype_trees.md) -/

/-- Each tree command responds with the value of the codeword its bins spell, decoded with the table's kinds (R161 to R167). -/
def Obligations.TreeCommandsReturnTheirCodeword : Prop :=
  (∀ ia, TreeReturns (.mbtI ia) (mbtITree ia)) ∧ (∀ ia ib, TreeReturns (.mbtSI ia ib) (mbtSITree ia ib)) ∧
  TreeReturns .mbtP mbtPTree ∧ (∀ ia, TreeReturns (.mbtB ia) (mbtBTree ia)) ∧
  TreeReturns .smbtP smbtPTree ∧ TreeReturns .smbtB smbtBTree

/-- Each tree command completes from the state alone, with I_PCM the one value that leaves the engine TERMINATED (R162 to
R168). -/
def Obligations.TreeCommandsComplete : Prop :=
  (∀ ia, TreeCompletes (.mbtI ia) (mbtITree ia) (some 25)) ∧
  (∀ ia ib, TreeCompletes (.mbtSI ia ib) (mbtSITree ia ib) (some 26)) ∧
  TreeCompletes .mbtP mbtPTree (some 30) ∧
  (∀ ia, TreeCompletes (.mbtB ia) (mbtBTree ia) (some 48)) ∧
  TreeCompletes .smbtP smbtPTree none ∧ TreeCompletes .smbtB smbtBTree none

/-- Each tree is a complete prefix code (R168): every long enough bin sequence begins with exactly one codeword; and the
trees have exactly the values, codeword counts and depths of R168's table. -/
def Obligations.TreesAreCompletePrefixCodes : Prop :=
  (∀ (t : BinTree) (bins : List Bool), treeDepth t ≤ bins.length →
    ∃ w ∈ codewords t, w.2.1 <+: bins ∧ ∀ w' ∈ codewords t, w'.2.1 <+: bins → w' = w) ∧
  (∀ ia, ((codewords (mbtITree ia)).map (·.1)).Perm (List.range 26) ∧ treeDepth (mbtITree ia) = 7) ∧
  (∀ ia ib, ((codewords (mbtSITree ia ib)).map (·.1)).Perm (List.range 27) ∧ treeDepth (mbtSITree ia ib) = 8) ∧
  (((codewords mbtPTree).map (·.1)).Perm (List.range 4 ++ List.range' 5 26) ∧ treeDepth mbtPTree = 8) ∧
  (∀ ia, ((codewords (mbtBTree ia)).map (·.1)).Perm (List.range 49) ∧ treeDepth (mbtBTree ia) = 13) ∧
  (((codewords smbtPTree).map (·.1)).Perm (List.range 4) ∧ treeDepth smbtPTree = 3) ∧
  (((codewords smbtBTree).map (·.1)).Perm (List.range 13) ∧ treeDepth smbtBTree = 6)

/-! ### Read-back (44_control.md) -/

/-- STATRD completes in every state with the STATUS word, field by field, and changes nothing but the response (R28, R175). -/
def Obligations.StatrdReportsTheStatusWord : Prop :=
  ∀ s : State, ∃ w : Word, exec .statrd s = .next { s with rsps := s.rsps ++ [⟨0#3, w⟩] } ∧
    w.extractLsb' 0 9 = s.codIRange ∧ w.extractLsb' 9 9 = s.codIOffset ∧ w.extractLsb' 18 2 = engCode s.engState ∧
    w.getLsbD 20 = s.ctxValid ∧ w.extractLsb' 21 3 = faultCode s.FAULT ∧ w.extractLsb' 24 8 = 0#8

/-- CTXRD responds with the entry, pStateIdx in [5:0] and valMPS in [6], and changes nothing else (R55, R176). -/
def Obligations.CtxrdReadsOneEntry : Prop :=
  ∀ (s : State) (c : CtxIdx), s.FAULT = .none → s.ctxValid = true →
    ∃ w : Word, exec (.ctxrd c) s = .next { s with rsps := s.rsps ++ [⟨0#3, w⟩] } ∧
      w.extractLsb' 0 6 = (s.ctxRead c).pStateIdx ∧ w.getLsbD 6 = (s.ctxRead c).valMPS ∧ w.extractLsb' 7 25 = 0#25

/-! ### The machine as a whole -/

/-- The frame of DEC, BYP and TRM when no fault arises (R102 to R104): the command ends with its response, or waits on the bit
port, after a change of the engine registers and the bits alone: no context entry but DEC's own, no CSEL traffic; BYP keeps
codIRange, and only TRM moves engState. -/
def Obligations.FrameOfEngineBins : Prop :=
  ∀ (i : Instr) (s t : State), ((∃ c, i = .dec c) ∨ i = .byp ∨ i = .trm) → Ready i s → exec i s = .next t →
    t.FAULT = .none →
    (∃ u : State, BinFrame (ownContexts i) s u ∧ ((∃ v, t = u.respond 0#3 v) ∨ t = u.waitOn .bit)) ∧
    t.cselAns = s.cselAns ∧ t.cselReqs = s.cselReqs ∧
    (∀ c : CtxIdx, i ≠ .dec c → t.ctxRead c = s.ctxRead c) ∧ (i = .byp → t.codIRange = s.codIRange) ∧
    (i ≠ .trm → t.engState = s.engState)

/-- The frame of U, TU, FL, UEGK, QPD and CBP when no fault arises (R140): the command ends with its response, or waits on a
port, after a change of the engine, the bits and the CSEL traffic alone, and of no context entry but those named by the CSEL
answers taken. -/
def Obligations.FrameOfQueriedBinarizations : Prop :=
  ∀ (i : Instr) (s t : State),
    (i = .u ∨ (∃ c, i = .tu c) ∨ (∃ c, i = .fl c) ∨ (∃ g k c, i = .uegk g k c) ∨ i = .qpd ∨ ∃ c, i = .cbp c) →
    Ready i s → exec i s = .next t → t.FAULT = .none →
    ∃ u : State, BinFrame [] s u ∧ ((∃ v, t = u.respond 0#3 v) ∨ ∃ p, t = u.waitOn p)

/-- The frame of the tree commands when no fault arises (R61, R162 to R167): the command ends with its response, or waits on the
bit port, after a change of the engine, the bits and the context entries that R61 lists for the command; no CSEL traffic. -/
def Obligations.FrameOfTreeCommands : Prop :=
  ∀ (i : Instr) (s t : State),
    ((∃ a, i = .mbtI a) ∨ (∃ a b, i = .mbtSI a b) ∨ i = .mbtP ∨ (∃ a, i = .mbtB a) ∨ i = .smbtP ∨ i = .smbtB) →
    Ready i s → exec i s = .next t → t.FAULT = .none →
    (∃ u : State, BinFrame (ownContexts i) s u ∧ ((∃ v, t = u.respond 0#3 v) ∨ t = u.waitOn .bit)) ∧
    t.cselAns = s.cselAns ∧ t.cselReqs = s.cselReqs ∧
    (∀ c : CtxIdx, c ∉ ownContexts i → t.ctxRead c = s.ctxRead c) ∧
    ((i = .smbtP ∨ i = .smbtB) → t.engState = s.engState)

/-- The frame of ENGINIT and ALIGN when no fault arises (R100, R101): no context entry and no control state but ENGINIT's codIRange,
codIOffset and engState, no CSEL traffic; ALIGN writes no register at all; and ENGINIT takes no answer to aligned?, while ALIGN
takes some, which the model counts in its field alignsLeft (log entry 5). -/
def Obligations.FrameOfEnginitAndAlign : Prop :=
  ∀ (i : Instr) (s t : State), (i = .enginit ∨ ∃ f, i = .align f) → Ready i s → exec i s = .next t →
    t.FAULT = .none →
    t.ctx = s.ctx ∧ t.ctxValid = s.ctxValid ∧ t.rom = s.rom ∧ t.bitEnd = s.bitEnd ∧ t.cmds = s.cmds ∧
    t.rspHeld = s.rspHeld ∧ t.cselAns = s.cselAns ∧ t.cselReqs = s.cselReqs ∧ t.freeCount = s.freeCount ∧
    (i ≠ .enginit → t.codIRange = s.codIRange ∧ t.codIOffset = s.codIOffset ∧ t.engState = s.engState) ∧
    (i = .enginit → t.alignsLeft = s.alignsLeft) ∧
    (∃ asked : Nat, t.alignsLeft = s.alignsLeft.map (· - asked)) ∧
    (∃ taken : List Bool, s.bits = taken ++ t.bits ∧ t.pos = s.pos + taken.length)

/-- The bits are consumed in order, each exactly once, and the position counts them, whatever command runs and however it ends;
CTXINIT, STATRD and CTXRD take none; no command touches the ROM, the bit source's end or the words to come; and only ALIGN
asks aligned? (R36, R51, R53, R54, R57, R63). -/
def Obligations.BitsAreConsumedInOrder : Prop :=
  ∀ (i : Instr) (s t : State), exec i s = .next t →
    (∃ taken : List Bool, s.bits = taken ++ t.bits ∧ t.pos = s.pos + taken.length) ∧
    (((∃ qp sel, i = .ctxinit qp sel) ∨ i = .statrd ∨ ∃ c, i = .ctxrd c) → t.bits = s.bits ∧ t.pos = s.pos) ∧
    t.rom = s.rom ∧ t.bitEnd = s.bitEnd ∧ t.cmds = s.cmds ∧ ((∀ f, i ≠ .align f) → t.alignsLeft = s.alignsLeft)

/-- One response per command (R31, R78): a command that ends gives exactly one, with the value 0 unless its status is OK; a
command stuck on a port gives none. -/
def Obligations.OneResponsePerCommand : Prop :=
  ∀ (i : Instr) (s t : State), s.wait = none → exec i s = .next t →
    (t.wait = none → ∃ r : Response, t.rsps = s.rsps ++ [r] ∧ (r.status ≠ 0#3 → r.value = 0#32)) ∧
    (t.wait ≠ none → t.rsps = s.rsps)

/-- The invariant holds after reset. -/
def Obligations.InvariantHoldsAfterReset : Prop := Inv State.reset

/-- Every step keeps the invariant: R29 between commands, UNINIT and invalid contexts while a fault is pending (R186) and never
its code 4 (R184), and state 63 in entry 276 alone (R116, R118). -/
def Obligations.EveryStepKeepsTheInvariant : Prop :=
  ∀ s t : State, Inv s → step s = .next t → Inv t

/-- Slice isolation (R120): two blocks with the same ROM, whatever their registers, contexts and pending faults, that are given
the same words beginning with a CTXINIT, the same bit source at the same place within a byte and the same CSEL answers,
give the same responses and the same state, step by step, as long as no response reports a fault. A run of steps alone is
the model's choice (log entries 8 and 12): no response held back, no reset and no host's read of the bits between steps. -/
def Obligations.SlicesAreIsolated : Prop :=
  ∀ (n : Nat) (qp : BitVec 7) (sel : BitVec 2) (words : List Word) (a b a' : State) (given : List Response),
    Idle a → Idle b → a.rom = b.rom → a.bits = b.bits → a.bitEnd = b.bitEnd → a.alignsLeft = b.alignsLeft →
    a.pos % 8 = b.pos % 8 → a.cselAns = b.cselAns → a.cmds = encode (.ctxinit qp sel) :: words →
    b.cmds = a.cmds →
    Host.Core.run Sys2Proof.core (n + 1) a = .next a' → a'.rsps = a.rsps ++ given → (∀ r ∈ given, r.status = 0#3) →
    ∃ b' : State, Host.Core.run Sys2Proof.core (n + 1) b = .next b' ∧ b'.rsps = b.rsps ++ given ∧
      sliceView b' = sliceView a'
end

