-- ==== Sys2Proof/Laws/State.lean ====
section
/-!
SUPPORT. One lemma per field of State per update: what each named update of the state writes, and that it leaves every other
field as it was. All are true by unfolding; later proofs rewrite with them instead of unfolding an update.
-/

namespace Sys2Proof.Machine

/-! ### setEngine: codIRange and codIOffset -/

@[simp] theorem setEngine_codIRange (s : State) (range offset : Nat) : (s.setEngine range offset).codIRange = BitVec.ofNat 9 range := rfl
@[simp] theorem setEngine_codIOffset (s : State) (range offset : Nat) : (s.setEngine range offset).codIOffset = BitVec.ofNat 9 offset := rfl
@[simp] theorem setEngine_engState (s : State) (range offset : Nat) : (s.setEngine range offset).engState = s.engState := rfl
@[simp] theorem setEngine_ctxValid (s : State) (range offset : Nat) : (s.setEngine range offset).ctxValid = s.ctxValid := rfl
@[simp] theorem setEngine_FAULT (s : State) (range offset : Nat) : (s.setEngine range offset).FAULT = s.FAULT := rfl
@[simp] theorem setEngine_ctx (s : State) (range offset : Nat) : (s.setEngine range offset).ctx = s.ctx := rfl
@[simp] theorem setEngine_rom (s : State) (range offset : Nat) : (s.setEngine range offset).rom = s.rom := rfl
@[simp] theorem setEngine_bits (s : State) (range offset : Nat) : (s.setEngine range offset).bits = s.bits := rfl
@[simp] theorem setEngine_pos (s : State) (range offset : Nat) : (s.setEngine range offset).pos = s.pos := rfl
@[simp] theorem setEngine_bitEnd (s : State) (range offset : Nat) : (s.setEngine range offset).bitEnd = s.bitEnd := rfl
@[simp] theorem setEngine_alignsLeft (s : State) (range offset : Nat) : (s.setEngine range offset).alignsLeft = s.alignsLeft := rfl
@[simp] theorem setEngine_cmds (s : State) (range offset : Nat) : (s.setEngine range offset).cmds = s.cmds := rfl
@[simp] theorem setEngine_rsps (s : State) (range offset : Nat) : (s.setEngine range offset).rsps = s.rsps := rfl
@[simp] theorem setEngine_rspHeld (s : State) (range offset : Nat) : (s.setEngine range offset).rspHeld = s.rspHeld := rfl
@[simp] theorem setEngine_cselAns (s : State) (range offset : Nat) : (s.setEngine range offset).cselAns = s.cselAns := rfl
@[simp] theorem setEngine_cselReqs (s : State) (range offset : Nat) : (s.setEngine range offset).cselReqs = s.cselReqs := rfl
@[simp] theorem setEngine_wait (s : State) (range offset : Nat) : (s.setEngine range offset).wait = s.wait := rfl
@[simp] theorem setEngine_freeCount (s : State) (range offset : Nat) : (s.setEngine range offset).freeCount = s.freeCount := rfl

/-! ### setRange: codIRange -/

@[simp] theorem setRange_codIRange (s : State) (range : Nat) : (s.setRange range).codIRange = BitVec.ofNat 9 range := rfl
@[simp] theorem setRange_codIOffset (s : State) (range : Nat) : (s.setRange range).codIOffset = s.codIOffset := rfl
@[simp] theorem setRange_engState (s : State) (range : Nat) : (s.setRange range).engState = s.engState := rfl
@[simp] theorem setRange_ctxValid (s : State) (range : Nat) : (s.setRange range).ctxValid = s.ctxValid := rfl
@[simp] theorem setRange_FAULT (s : State) (range : Nat) : (s.setRange range).FAULT = s.FAULT := rfl
@[simp] theorem setRange_ctx (s : State) (range : Nat) : (s.setRange range).ctx = s.ctx := rfl
@[simp] theorem setRange_rom (s : State) (range : Nat) : (s.setRange range).rom = s.rom := rfl
@[simp] theorem setRange_bits (s : State) (range : Nat) : (s.setRange range).bits = s.bits := rfl
@[simp] theorem setRange_pos (s : State) (range : Nat) : (s.setRange range).pos = s.pos := rfl
@[simp] theorem setRange_bitEnd (s : State) (range : Nat) : (s.setRange range).bitEnd = s.bitEnd := rfl
@[simp] theorem setRange_alignsLeft (s : State) (range : Nat) : (s.setRange range).alignsLeft = s.alignsLeft := rfl
@[simp] theorem setRange_cmds (s : State) (range : Nat) : (s.setRange range).cmds = s.cmds := rfl
@[simp] theorem setRange_rsps (s : State) (range : Nat) : (s.setRange range).rsps = s.rsps := rfl
@[simp] theorem setRange_rspHeld (s : State) (range : Nat) : (s.setRange range).rspHeld = s.rspHeld := rfl
@[simp] theorem setRange_cselAns (s : State) (range : Nat) : (s.setRange range).cselAns = s.cselAns := rfl
@[simp] theorem setRange_cselReqs (s : State) (range : Nat) : (s.setRange range).cselReqs = s.cselReqs := rfl
@[simp] theorem setRange_wait (s : State) (range : Nat) : (s.setRange range).wait = s.wait := rfl
@[simp] theorem setRange_freeCount (s : State) (range : Nat) : (s.setRange range).freeCount = s.freeCount := rfl

/-! ### setOffset: codIOffset -/

@[simp] theorem setOffset_codIRange (s : State) (offset : Nat) : (s.setOffset offset).codIRange = s.codIRange := rfl
@[simp] theorem setOffset_codIOffset (s : State) (offset : Nat) : (s.setOffset offset).codIOffset = BitVec.ofNat 9 offset := rfl
@[simp] theorem setOffset_engState (s : State) (offset : Nat) : (s.setOffset offset).engState = s.engState := rfl
@[simp] theorem setOffset_ctxValid (s : State) (offset : Nat) : (s.setOffset offset).ctxValid = s.ctxValid := rfl
@[simp] theorem setOffset_FAULT (s : State) (offset : Nat) : (s.setOffset offset).FAULT = s.FAULT := rfl
@[simp] theorem setOffset_ctx (s : State) (offset : Nat) : (s.setOffset offset).ctx = s.ctx := rfl
@[simp] theorem setOffset_rom (s : State) (offset : Nat) : (s.setOffset offset).rom = s.rom := rfl
@[simp] theorem setOffset_bits (s : State) (offset : Nat) : (s.setOffset offset).bits = s.bits := rfl
@[simp] theorem setOffset_pos (s : State) (offset : Nat) : (s.setOffset offset).pos = s.pos := rfl
@[simp] theorem setOffset_bitEnd (s : State) (offset : Nat) : (s.setOffset offset).bitEnd = s.bitEnd := rfl
@[simp] theorem setOffset_alignsLeft (s : State) (offset : Nat) : (s.setOffset offset).alignsLeft = s.alignsLeft := rfl
@[simp] theorem setOffset_cmds (s : State) (offset : Nat) : (s.setOffset offset).cmds = s.cmds := rfl
@[simp] theorem setOffset_rsps (s : State) (offset : Nat) : (s.setOffset offset).rsps = s.rsps := rfl
@[simp] theorem setOffset_rspHeld (s : State) (offset : Nat) : (s.setOffset offset).rspHeld = s.rspHeld := rfl
@[simp] theorem setOffset_cselAns (s : State) (offset : Nat) : (s.setOffset offset).cselAns = s.cselAns := rfl
@[simp] theorem setOffset_cselReqs (s : State) (offset : Nat) : (s.setOffset offset).cselReqs = s.cselReqs := rfl
@[simp] theorem setOffset_wait (s : State) (offset : Nat) : (s.setOffset offset).wait = s.wait := rfl
@[simp] theorem setOffset_freeCount (s : State) (offset : Nat) : (s.setOffset offset).freeCount = s.freeCount := rfl

/-! ### setEngState: engState -/

@[simp] theorem setEngState_codIRange (s : State) (e : EngState) : (s.setEngState e).codIRange = s.codIRange := rfl
@[simp] theorem setEngState_codIOffset (s : State) (e : EngState) : (s.setEngState e).codIOffset = s.codIOffset := rfl
@[simp] theorem setEngState_engState (s : State) (e : EngState) : (s.setEngState e).engState = e := rfl
@[simp] theorem setEngState_ctxValid (s : State) (e : EngState) : (s.setEngState e).ctxValid = s.ctxValid := rfl
@[simp] theorem setEngState_FAULT (s : State) (e : EngState) : (s.setEngState e).FAULT = s.FAULT := rfl
@[simp] theorem setEngState_ctx (s : State) (e : EngState) : (s.setEngState e).ctx = s.ctx := rfl
@[simp] theorem setEngState_rom (s : State) (e : EngState) : (s.setEngState e).rom = s.rom := rfl
@[simp] theorem setEngState_bits (s : State) (e : EngState) : (s.setEngState e).bits = s.bits := rfl
@[simp] theorem setEngState_pos (s : State) (e : EngState) : (s.setEngState e).pos = s.pos := rfl
@[simp] theorem setEngState_bitEnd (s : State) (e : EngState) : (s.setEngState e).bitEnd = s.bitEnd := rfl
@[simp] theorem setEngState_alignsLeft (s : State) (e : EngState) : (s.setEngState e).alignsLeft = s.alignsLeft := rfl
@[simp] theorem setEngState_cmds (s : State) (e : EngState) : (s.setEngState e).cmds = s.cmds := rfl
@[simp] theorem setEngState_rsps (s : State) (e : EngState) : (s.setEngState e).rsps = s.rsps := rfl
@[simp] theorem setEngState_rspHeld (s : State) (e : EngState) : (s.setEngState e).rspHeld = s.rspHeld := rfl
@[simp] theorem setEngState_cselAns (s : State) (e : EngState) : (s.setEngState e).cselAns = s.cselAns := rfl
@[simp] theorem setEngState_cselReqs (s : State) (e : EngState) : (s.setEngState e).cselReqs = s.cselReqs := rfl
@[simp] theorem setEngState_wait (s : State) (e : EngState) : (s.setEngState e).wait = s.wait := rfl
@[simp] theorem setEngState_freeCount (s : State) (e : EngState) : (s.setEngState e).freeCount = s.freeCount := rfl

/-! ### takeBit: the bit source -/

@[simp] theorem takeBit_codIRange (s : State) (rest : List Bool) : (s.takeBit rest).codIRange = s.codIRange := rfl
@[simp] theorem takeBit_codIOffset (s : State) (rest : List Bool) : (s.takeBit rest).codIOffset = s.codIOffset := rfl
@[simp] theorem takeBit_engState (s : State) (rest : List Bool) : (s.takeBit rest).engState = s.engState := rfl
@[simp] theorem takeBit_ctxValid (s : State) (rest : List Bool) : (s.takeBit rest).ctxValid = s.ctxValid := rfl
@[simp] theorem takeBit_FAULT (s : State) (rest : List Bool) : (s.takeBit rest).FAULT = s.FAULT := rfl
@[simp] theorem takeBit_ctx (s : State) (rest : List Bool) : (s.takeBit rest).ctx = s.ctx := rfl
@[simp] theorem takeBit_rom (s : State) (rest : List Bool) : (s.takeBit rest).rom = s.rom := rfl
@[simp] theorem takeBit_bits (s : State) (rest : List Bool) : (s.takeBit rest).bits = rest := rfl
@[simp] theorem takeBit_pos (s : State) (rest : List Bool) : (s.takeBit rest).pos = s.pos + 1 := rfl
@[simp] theorem takeBit_bitEnd (s : State) (rest : List Bool) : (s.takeBit rest).bitEnd = s.bitEnd := rfl
@[simp] theorem takeBit_alignsLeft (s : State) (rest : List Bool) : (s.takeBit rest).alignsLeft = s.alignsLeft := rfl
@[simp] theorem takeBit_cmds (s : State) (rest : List Bool) : (s.takeBit rest).cmds = s.cmds := rfl
@[simp] theorem takeBit_rsps (s : State) (rest : List Bool) : (s.takeBit rest).rsps = s.rsps := rfl
@[simp] theorem takeBit_rspHeld (s : State) (rest : List Bool) : (s.takeBit rest).rspHeld = s.rspHeld := rfl
@[simp] theorem takeBit_cselAns (s : State) (rest : List Bool) : (s.takeBit rest).cselAns = s.cselAns := rfl
@[simp] theorem takeBit_cselReqs (s : State) (rest : List Bool) : (s.takeBit rest).cselReqs = s.cselReqs := rfl
@[simp] theorem takeBit_wait (s : State) (rest : List Bool) : (s.takeBit rest).wait = s.wait := rfl
@[simp] theorem takeBit_freeCount (s : State) (rest : List Bool) : (s.takeBit rest).freeCount = s.freeCount := rfl

/-! ### takeAligned: the answers to aligned? to come -/

@[simp] theorem takeAligned_codIRange (s : State) : (s.takeAligned).codIRange = s.codIRange := rfl
@[simp] theorem takeAligned_codIOffset (s : State) : (s.takeAligned).codIOffset = s.codIOffset := rfl
@[simp] theorem takeAligned_engState (s : State) : (s.takeAligned).engState = s.engState := rfl
@[simp] theorem takeAligned_ctxValid (s : State) : (s.takeAligned).ctxValid = s.ctxValid := rfl
@[simp] theorem takeAligned_FAULT (s : State) : (s.takeAligned).FAULT = s.FAULT := rfl
@[simp] theorem takeAligned_ctx (s : State) : (s.takeAligned).ctx = s.ctx := rfl
@[simp] theorem takeAligned_rom (s : State) : (s.takeAligned).rom = s.rom := rfl
@[simp] theorem takeAligned_bits (s : State) : (s.takeAligned).bits = s.bits := rfl
@[simp] theorem takeAligned_pos (s : State) : (s.takeAligned).pos = s.pos := rfl
@[simp] theorem takeAligned_bitEnd (s : State) : (s.takeAligned).bitEnd = s.bitEnd := rfl
@[simp] theorem takeAligned_alignsLeft (s : State) : (s.takeAligned).alignsLeft = s.alignsLeft.map (· - 1) := rfl
@[simp] theorem takeAligned_cmds (s : State) : (s.takeAligned).cmds = s.cmds := rfl
@[simp] theorem takeAligned_rsps (s : State) : (s.takeAligned).rsps = s.rsps := rfl
@[simp] theorem takeAligned_rspHeld (s : State) : (s.takeAligned).rspHeld = s.rspHeld := rfl
@[simp] theorem takeAligned_cselAns (s : State) : (s.takeAligned).cselAns = s.cselAns := rfl
@[simp] theorem takeAligned_cselReqs (s : State) : (s.takeAligned).cselReqs = s.cselReqs := rfl
@[simp] theorem takeAligned_wait (s : State) : (s.takeAligned).wait = s.wait := rfl
@[simp] theorem takeAligned_freeCount (s : State) : (s.takeAligned).freeCount = s.freeCount := rfl

/-! ### ctxWrite: one context store entry -/

@[simp] theorem ctxWrite_codIRange (s : State) (c : CtxIdx) (v : CtxVar) : (s.ctxWrite c v).codIRange = s.codIRange := rfl
@[simp] theorem ctxWrite_codIOffset (s : State) (c : CtxIdx) (v : CtxVar) : (s.ctxWrite c v).codIOffset = s.codIOffset := rfl
@[simp] theorem ctxWrite_engState (s : State) (c : CtxIdx) (v : CtxVar) : (s.ctxWrite c v).engState = s.engState := rfl
@[simp] theorem ctxWrite_ctxValid (s : State) (c : CtxIdx) (v : CtxVar) : (s.ctxWrite c v).ctxValid = s.ctxValid := rfl
@[simp] theorem ctxWrite_FAULT (s : State) (c : CtxIdx) (v : CtxVar) : (s.ctxWrite c v).FAULT = s.FAULT := rfl
@[simp] theorem ctxWrite_ctx (s : State) (c : CtxIdx) (v : CtxVar) : (s.ctxWrite c v).ctx = s.ctx.set c.toNat v (c.isLt) := rfl
@[simp] theorem ctxWrite_rom (s : State) (c : CtxIdx) (v : CtxVar) : (s.ctxWrite c v).rom = s.rom := rfl
@[simp] theorem ctxWrite_bits (s : State) (c : CtxIdx) (v : CtxVar) : (s.ctxWrite c v).bits = s.bits := rfl
@[simp] theorem ctxWrite_pos (s : State) (c : CtxIdx) (v : CtxVar) : (s.ctxWrite c v).pos = s.pos := rfl
@[simp] theorem ctxWrite_bitEnd (s : State) (c : CtxIdx) (v : CtxVar) : (s.ctxWrite c v).bitEnd = s.bitEnd := rfl
@[simp] theorem ctxWrite_alignsLeft (s : State) (c : CtxIdx) (v : CtxVar) : (s.ctxWrite c v).alignsLeft = s.alignsLeft := rfl
@[simp] theorem ctxWrite_cmds (s : State) (c : CtxIdx) (v : CtxVar) : (s.ctxWrite c v).cmds = s.cmds := rfl
@[simp] theorem ctxWrite_rsps (s : State) (c : CtxIdx) (v : CtxVar) : (s.ctxWrite c v).rsps = s.rsps := rfl
@[simp] theorem ctxWrite_rspHeld (s : State) (c : CtxIdx) (v : CtxVar) : (s.ctxWrite c v).rspHeld = s.rspHeld := rfl
@[simp] theorem ctxWrite_cselAns (s : State) (c : CtxIdx) (v : CtxVar) : (s.ctxWrite c v).cselAns = s.cselAns := rfl
@[simp] theorem ctxWrite_cselReqs (s : State) (c : CtxIdx) (v : CtxVar) : (s.ctxWrite c v).cselReqs = s.cselReqs := rfl
@[simp] theorem ctxWrite_wait (s : State) (c : CtxIdx) (v : CtxVar) : (s.ctxWrite c v).wait = s.wait := rfl
@[simp] theorem ctxWrite_freeCount (s : State) (c : CtxIdx) (v : CtxVar) : (s.ctxWrite c v).freeCount = s.freeCount := rfl

/-! ### sendRequest: the CSEL requests sent -/

@[simp] theorem sendRequest_codIRange (s : State) (req : CselRequest) : (s.sendRequest req).codIRange = s.codIRange := rfl
@[simp] theorem sendRequest_codIOffset (s : State) (req : CselRequest) : (s.sendRequest req).codIOffset = s.codIOffset := rfl
@[simp] theorem sendRequest_engState (s : State) (req : CselRequest) : (s.sendRequest req).engState = s.engState := rfl
@[simp] theorem sendRequest_ctxValid (s : State) (req : CselRequest) : (s.sendRequest req).ctxValid = s.ctxValid := rfl
@[simp] theorem sendRequest_FAULT (s : State) (req : CselRequest) : (s.sendRequest req).FAULT = s.FAULT := rfl
@[simp] theorem sendRequest_ctx (s : State) (req : CselRequest) : (s.sendRequest req).ctx = s.ctx := rfl
@[simp] theorem sendRequest_rom (s : State) (req : CselRequest) : (s.sendRequest req).rom = s.rom := rfl
@[simp] theorem sendRequest_bits (s : State) (req : CselRequest) : (s.sendRequest req).bits = s.bits := rfl
@[simp] theorem sendRequest_pos (s : State) (req : CselRequest) : (s.sendRequest req).pos = s.pos := rfl
@[simp] theorem sendRequest_bitEnd (s : State) (req : CselRequest) : (s.sendRequest req).bitEnd = s.bitEnd := rfl
@[simp] theorem sendRequest_alignsLeft (s : State) (req : CselRequest) : (s.sendRequest req).alignsLeft = s.alignsLeft := rfl
@[simp] theorem sendRequest_cmds (s : State) (req : CselRequest) : (s.sendRequest req).cmds = s.cmds := rfl
@[simp] theorem sendRequest_rsps (s : State) (req : CselRequest) : (s.sendRequest req).rsps = s.rsps := rfl
@[simp] theorem sendRequest_rspHeld (s : State) (req : CselRequest) : (s.sendRequest req).rspHeld = s.rspHeld := rfl
@[simp] theorem sendRequest_cselAns (s : State) (req : CselRequest) : (s.sendRequest req).cselAns = s.cselAns := rfl
@[simp] theorem sendRequest_cselReqs (s : State) (req : CselRequest) : (s.sendRequest req).cselReqs = s.cselReqs ++ [req] := rfl
@[simp] theorem sendRequest_wait (s : State) (req : CselRequest) : (s.sendRequest req).wait = s.wait := rfl
@[simp] theorem sendRequest_freeCount (s : State) (req : CselRequest) : (s.sendRequest req).freeCount = s.freeCount := rfl

/-! ### takeAnswer: the CSEL answers to come -/

@[simp] theorem takeAnswer_codIRange (s : State) (rest : List CselAnswer) : (s.takeAnswer rest).codIRange = s.codIRange := rfl
@[simp] theorem takeAnswer_codIOffset (s : State) (rest : List CselAnswer) : (s.takeAnswer rest).codIOffset = s.codIOffset := rfl
@[simp] theorem takeAnswer_engState (s : State) (rest : List CselAnswer) : (s.takeAnswer rest).engState = s.engState := rfl
@[simp] theorem takeAnswer_ctxValid (s : State) (rest : List CselAnswer) : (s.takeAnswer rest).ctxValid = s.ctxValid := rfl
@[simp] theorem takeAnswer_FAULT (s : State) (rest : List CselAnswer) : (s.takeAnswer rest).FAULT = s.FAULT := rfl
@[simp] theorem takeAnswer_ctx (s : State) (rest : List CselAnswer) : (s.takeAnswer rest).ctx = s.ctx := rfl
@[simp] theorem takeAnswer_rom (s : State) (rest : List CselAnswer) : (s.takeAnswer rest).rom = s.rom := rfl
@[simp] theorem takeAnswer_bits (s : State) (rest : List CselAnswer) : (s.takeAnswer rest).bits = s.bits := rfl
@[simp] theorem takeAnswer_pos (s : State) (rest : List CselAnswer) : (s.takeAnswer rest).pos = s.pos := rfl
@[simp] theorem takeAnswer_bitEnd (s : State) (rest : List CselAnswer) : (s.takeAnswer rest).bitEnd = s.bitEnd := rfl
@[simp] theorem takeAnswer_alignsLeft (s : State) (rest : List CselAnswer) : (s.takeAnswer rest).alignsLeft = s.alignsLeft := rfl
@[simp] theorem takeAnswer_cmds (s : State) (rest : List CselAnswer) : (s.takeAnswer rest).cmds = s.cmds := rfl
@[simp] theorem takeAnswer_rsps (s : State) (rest : List CselAnswer) : (s.takeAnswer rest).rsps = s.rsps := rfl
@[simp] theorem takeAnswer_rspHeld (s : State) (rest : List CselAnswer) : (s.takeAnswer rest).rspHeld = s.rspHeld := rfl
@[simp] theorem takeAnswer_cselAns (s : State) (rest : List CselAnswer) : (s.takeAnswer rest).cselAns = rest := rfl
@[simp] theorem takeAnswer_cselReqs (s : State) (rest : List CselAnswer) : (s.takeAnswer rest).cselReqs = s.cselReqs := rfl
@[simp] theorem takeAnswer_wait (s : State) (rest : List CselAnswer) : (s.takeAnswer rest).wait = s.wait := rfl
@[simp] theorem takeAnswer_freeCount (s : State) (rest : List CselAnswer) : (s.takeAnswer rest).freeCount = s.freeCount := rfl

/-! ### respond: the responses delivered -/

@[simp] theorem respond_codIRange (s : State) (status : BitVec 3) (value : Word) : (s.respond status value).codIRange = s.codIRange := rfl
@[simp] theorem respond_codIOffset (s : State) (status : BitVec 3) (value : Word) : (s.respond status value).codIOffset = s.codIOffset := rfl
@[simp] theorem respond_engState (s : State) (status : BitVec 3) (value : Word) : (s.respond status value).engState = s.engState := rfl
@[simp] theorem respond_ctxValid (s : State) (status : BitVec 3) (value : Word) : (s.respond status value).ctxValid = s.ctxValid := rfl
@[simp] theorem respond_FAULT (s : State) (status : BitVec 3) (value : Word) : (s.respond status value).FAULT = s.FAULT := rfl
@[simp] theorem respond_ctx (s : State) (status : BitVec 3) (value : Word) : (s.respond status value).ctx = s.ctx := rfl
@[simp] theorem respond_rom (s : State) (status : BitVec 3) (value : Word) : (s.respond status value).rom = s.rom := rfl
@[simp] theorem respond_bits (s : State) (status : BitVec 3) (value : Word) : (s.respond status value).bits = s.bits := rfl
@[simp] theorem respond_pos (s : State) (status : BitVec 3) (value : Word) : (s.respond status value).pos = s.pos := rfl
@[simp] theorem respond_bitEnd (s : State) (status : BitVec 3) (value : Word) : (s.respond status value).bitEnd = s.bitEnd := rfl
@[simp] theorem respond_alignsLeft (s : State) (status : BitVec 3) (value : Word) : (s.respond status value).alignsLeft = s.alignsLeft := rfl
@[simp] theorem respond_cmds (s : State) (status : BitVec 3) (value : Word) : (s.respond status value).cmds = s.cmds := rfl
@[simp] theorem respond_rsps (s : State) (status : BitVec 3) (value : Word) : (s.respond status value).rsps = s.rsps ++ [⟨status, value⟩] := rfl
@[simp] theorem respond_rspHeld (s : State) (status : BitVec 3) (value : Word) : (s.respond status value).rspHeld = s.rspHeld := rfl
@[simp] theorem respond_cselAns (s : State) (status : BitVec 3) (value : Word) : (s.respond status value).cselAns = s.cselAns := rfl
@[simp] theorem respond_cselReqs (s : State) (status : BitVec 3) (value : Word) : (s.respond status value).cselReqs = s.cselReqs := rfl
@[simp] theorem respond_wait (s : State) (status : BitVec 3) (value : Word) : (s.respond status value).wait = s.wait := rfl
@[simp] theorem respond_freeCount (s : State) (status : BitVec 3) (value : Word) : (s.respond status value).freeCount = s.freeCount := rfl

/-! ### waitOn: the port waited on -/

@[simp] theorem waitOn_codIRange (s : State) (p : Port) : (s.waitOn p).codIRange = s.codIRange := rfl
@[simp] theorem waitOn_codIOffset (s : State) (p : Port) : (s.waitOn p).codIOffset = s.codIOffset := rfl
@[simp] theorem waitOn_engState (s : State) (p : Port) : (s.waitOn p).engState = s.engState := rfl
@[simp] theorem waitOn_ctxValid (s : State) (p : Port) : (s.waitOn p).ctxValid = s.ctxValid := rfl
@[simp] theorem waitOn_FAULT (s : State) (p : Port) : (s.waitOn p).FAULT = s.FAULT := rfl
@[simp] theorem waitOn_ctx (s : State) (p : Port) : (s.waitOn p).ctx = s.ctx := rfl
@[simp] theorem waitOn_rom (s : State) (p : Port) : (s.waitOn p).rom = s.rom := rfl
@[simp] theorem waitOn_bits (s : State) (p : Port) : (s.waitOn p).bits = s.bits := rfl
@[simp] theorem waitOn_pos (s : State) (p : Port) : (s.waitOn p).pos = s.pos := rfl
@[simp] theorem waitOn_bitEnd (s : State) (p : Port) : (s.waitOn p).bitEnd = s.bitEnd := rfl
@[simp] theorem waitOn_alignsLeft (s : State) (p : Port) : (s.waitOn p).alignsLeft = s.alignsLeft := rfl
@[simp] theorem waitOn_cmds (s : State) (p : Port) : (s.waitOn p).cmds = s.cmds := rfl
@[simp] theorem waitOn_rsps (s : State) (p : Port) : (s.waitOn p).rsps = s.rsps := rfl
@[simp] theorem waitOn_rspHeld (s : State) (p : Port) : (s.waitOn p).rspHeld = s.rspHeld := rfl
@[simp] theorem waitOn_cselAns (s : State) (p : Port) : (s.waitOn p).cselAns = s.cselAns := rfl
@[simp] theorem waitOn_cselReqs (s : State) (p : Port) : (s.waitOn p).cselReqs = s.cselReqs := rfl
@[simp] theorem waitOn_wait (s : State) (p : Port) : (s.waitOn p).wait = some p := rfl
@[simp] theorem waitOn_freeCount (s : State) (p : Port) : (s.waitOn p).freeCount = s.freeCount := rfl

/-! ### forgetCtx: the context store, forgotten -/

@[simp] theorem forgetCtx_codIRange (s : State) : (s.forgetCtx).codIRange = s.codIRange := rfl
@[simp] theorem forgetCtx_codIOffset (s : State) : (s.forgetCtx).codIOffset = s.codIOffset := rfl
@[simp] theorem forgetCtx_engState (s : State) : (s.forgetCtx).engState = s.engState := rfl
@[simp] theorem forgetCtx_ctxValid (s : State) : (s.forgetCtx).ctxValid = s.ctxValid := rfl
@[simp] theorem forgetCtx_FAULT (s : State) : (s.forgetCtx).FAULT = s.FAULT := rfl
@[simp] theorem forgetCtx_ctx (s : State) : (s.forgetCtx).ctx = ctxTabulate fun i => unpackCtx (Config.freeCtx s.freeCount i.toNat) := rfl
@[simp] theorem forgetCtx_rom (s : State) : (s.forgetCtx).rom = s.rom := rfl
@[simp] theorem forgetCtx_bits (s : State) : (s.forgetCtx).bits = s.bits := rfl
@[simp] theorem forgetCtx_pos (s : State) : (s.forgetCtx).pos = s.pos := rfl
@[simp] theorem forgetCtx_bitEnd (s : State) : (s.forgetCtx).bitEnd = s.bitEnd := rfl
@[simp] theorem forgetCtx_alignsLeft (s : State) : (s.forgetCtx).alignsLeft = s.alignsLeft := rfl
@[simp] theorem forgetCtx_cmds (s : State) : (s.forgetCtx).cmds = s.cmds := rfl
@[simp] theorem forgetCtx_rsps (s : State) : (s.forgetCtx).rsps = s.rsps := rfl
@[simp] theorem forgetCtx_rspHeld (s : State) : (s.forgetCtx).rspHeld = s.rspHeld := rfl
@[simp] theorem forgetCtx_cselAns (s : State) : (s.forgetCtx).cselAns = s.cselAns := rfl
@[simp] theorem forgetCtx_cselReqs (s : State) : (s.forgetCtx).cselReqs = s.cselReqs := rfl
@[simp] theorem forgetCtx_wait (s : State) : (s.forgetCtx).wait = s.wait := rfl
@[simp] theorem forgetCtx_freeCount (s : State) : (s.forgetCtx).freeCount = s.freeCount + 1 := rfl

/-! ### faultRegisters: the registers at fault entry -/

@[simp] theorem faultRegisters_codIRange (s : State) (f : FaultCode) : (s.faultRegisters f).codIRange = Config.freeRange s.freeCount := rfl
@[simp] theorem faultRegisters_codIOffset (s : State) (f : FaultCode) : (s.faultRegisters f).codIOffset = Config.freeOffset s.freeCount := rfl
@[simp] theorem faultRegisters_engState (s : State) (f : FaultCode) : (s.faultRegisters f).engState = .uninit := rfl
@[simp] theorem faultRegisters_ctxValid (s : State) (f : FaultCode) : (s.faultRegisters f).ctxValid = false := rfl
@[simp] theorem faultRegisters_FAULT (s : State) (f : FaultCode) : (s.faultRegisters f).FAULT = keepFirst s.FAULT f := rfl
@[simp] theorem faultRegisters_ctx (s : State) (f : FaultCode) : (s.faultRegisters f).ctx = s.ctx := rfl
@[simp] theorem faultRegisters_rom (s : State) (f : FaultCode) : (s.faultRegisters f).rom = s.rom := rfl
@[simp] theorem faultRegisters_bits (s : State) (f : FaultCode) : (s.faultRegisters f).bits = s.bits := rfl
@[simp] theorem faultRegisters_pos (s : State) (f : FaultCode) : (s.faultRegisters f).pos = s.pos := rfl
@[simp] theorem faultRegisters_bitEnd (s : State) (f : FaultCode) : (s.faultRegisters f).bitEnd = s.bitEnd := rfl
@[simp] theorem faultRegisters_alignsLeft (s : State) (f : FaultCode) : (s.faultRegisters f).alignsLeft = s.alignsLeft := rfl
@[simp] theorem faultRegisters_cmds (s : State) (f : FaultCode) : (s.faultRegisters f).cmds = s.cmds := rfl
@[simp] theorem faultRegisters_rsps (s : State) (f : FaultCode) : (s.faultRegisters f).rsps = s.rsps := rfl
@[simp] theorem faultRegisters_rspHeld (s : State) (f : FaultCode) : (s.faultRegisters f).rspHeld = s.rspHeld := rfl
@[simp] theorem faultRegisters_cselAns (s : State) (f : FaultCode) : (s.faultRegisters f).cselAns = s.cselAns := rfl
@[simp] theorem faultRegisters_cselReqs (s : State) (f : FaultCode) : (s.faultRegisters f).cselReqs = s.cselReqs := rfl
@[simp] theorem faultRegisters_wait (s : State) (f : FaultCode) : (s.faultRegisters f).wait = s.wait := rfl
@[simp] theorem faultRegisters_freeCount (s : State) (f : FaultCode) : (s.faultRegisters f).freeCount = s.freeCount := rfl

/-! ### freshRegisters: the registers and the store at CTXINIT -/

@[simp] theorem freshRegisters_codIRange (s : State) (qp : BitVec 7) (sel : BitVec 2) : (s.freshRegisters qp sel).codIRange = 0 := rfl
@[simp] theorem freshRegisters_codIOffset (s : State) (qp : BitVec 7) (sel : BitVec 2) : (s.freshRegisters qp sel).codIOffset = 0 := rfl
@[simp] theorem freshRegisters_engState (s : State) (qp : BitVec 7) (sel : BitVec 2) : (s.freshRegisters qp sel).engState = .uninit := rfl
@[simp] theorem freshRegisters_ctxValid (s : State) (qp : BitVec 7) (sel : BitVec 2) : (s.freshRegisters qp sel).ctxValid = true := rfl
@[simp] theorem freshRegisters_FAULT (s : State) (qp : BitVec 7) (sel : BitVec 2) : (s.freshRegisters qp sel).FAULT = .none := rfl
@[simp] theorem freshRegisters_ctx (s : State) (qp : BitVec 7) (sel : BitVec 2) : (s.freshRegisters qp sel).ctx = ctxTabulate (initEntry s.rom qp sel) := rfl
@[simp] theorem freshRegisters_rom (s : State) (qp : BitVec 7) (sel : BitVec 2) : (s.freshRegisters qp sel).rom = s.rom := rfl
@[simp] theorem freshRegisters_bits (s : State) (qp : BitVec 7) (sel : BitVec 2) : (s.freshRegisters qp sel).bits = s.bits := rfl
@[simp] theorem freshRegisters_pos (s : State) (qp : BitVec 7) (sel : BitVec 2) : (s.freshRegisters qp sel).pos = s.pos := rfl
@[simp] theorem freshRegisters_bitEnd (s : State) (qp : BitVec 7) (sel : BitVec 2) : (s.freshRegisters qp sel).bitEnd = s.bitEnd := rfl
@[simp] theorem freshRegisters_alignsLeft (s : State) (qp : BitVec 7) (sel : BitVec 2) : (s.freshRegisters qp sel).alignsLeft = s.alignsLeft := rfl
@[simp] theorem freshRegisters_cmds (s : State) (qp : BitVec 7) (sel : BitVec 2) : (s.freshRegisters qp sel).cmds = s.cmds := rfl
@[simp] theorem freshRegisters_rsps (s : State) (qp : BitVec 7) (sel : BitVec 2) : (s.freshRegisters qp sel).rsps = s.rsps := rfl
@[simp] theorem freshRegisters_rspHeld (s : State) (qp : BitVec 7) (sel : BitVec 2) : (s.freshRegisters qp sel).rspHeld = s.rspHeld := rfl
@[simp] theorem freshRegisters_cselAns (s : State) (qp : BitVec 7) (sel : BitVec 2) : (s.freshRegisters qp sel).cselAns = s.cselAns := rfl
@[simp] theorem freshRegisters_cselReqs (s : State) (qp : BitVec 7) (sel : BitVec 2) : (s.freshRegisters qp sel).cselReqs = s.cselReqs := rfl
@[simp] theorem freshRegisters_wait (s : State) (qp : BitVec 7) (sel : BitVec 2) : (s.freshRegisters qp sel).wait = s.wait := rfl
@[simp] theorem freshRegisters_freeCount (s : State) (qp : BitVec 7) (sel : BitVec 2) : (s.freshRegisters qp sel).freeCount = s.freeCount := rfl

/-! ### resetRegisters: the registers at reset -/

@[simp] theorem resetRegisters_codIRange (s : State) : (s.resetRegisters).codIRange = 0 := rfl
@[simp] theorem resetRegisters_codIOffset (s : State) : (s.resetRegisters).codIOffset = 0 := rfl
@[simp] theorem resetRegisters_engState (s : State) : (s.resetRegisters).engState = .uninit := rfl
@[simp] theorem resetRegisters_ctxValid (s : State) : (s.resetRegisters).ctxValid = false := rfl
@[simp] theorem resetRegisters_FAULT (s : State) : (s.resetRegisters).FAULT = .none := rfl
@[simp] theorem resetRegisters_ctx (s : State) : (s.resetRegisters).ctx = s.ctx := rfl
@[simp] theorem resetRegisters_rom (s : State) : (s.resetRegisters).rom = s.rom := rfl
@[simp] theorem resetRegisters_bits (s : State) : (s.resetRegisters).bits = s.bits := rfl
@[simp] theorem resetRegisters_pos (s : State) : (s.resetRegisters).pos = s.pos := rfl
@[simp] theorem resetRegisters_bitEnd (s : State) : (s.resetRegisters).bitEnd = s.bitEnd := rfl
@[simp] theorem resetRegisters_alignsLeft (s : State) : (s.resetRegisters).alignsLeft = s.alignsLeft := rfl
@[simp] theorem resetRegisters_cmds (s : State) : (s.resetRegisters).cmds = s.cmds := rfl
@[simp] theorem resetRegisters_rsps (s : State) : (s.resetRegisters).rsps = if s.rspHeld then s.rsps.dropLast else s.rsps := rfl
@[simp] theorem resetRegisters_rspHeld (s : State) : (s.resetRegisters).rspHeld = false := rfl
@[simp] theorem resetRegisters_cselAns (s : State) : (s.resetRegisters).cselAns = s.cselAns := rfl
@[simp] theorem resetRegisters_cselReqs (s : State) : (s.resetRegisters).cselReqs = s.cselReqs := rfl
@[simp] theorem resetRegisters_wait (s : State) : (s.resetRegisters).wait = none := rfl
@[simp] theorem resetRegisters_freeCount (s : State) : (s.resetRegisters).freeCount = s.freeCount := rfl

end Sys2Proof.Machine
end

