-- ==== Sys2Proof/Laws/Ops.lean ====
section
/-!
SUPPORT. One lemma per shared operation that says everything it can do: sequencing, the context store, the bit port, the CSEL
port, fault entry, and the frame of a command (R188).
-/

namespace Sys2Proof.Machine

/-! ### Sequencing -/

@[simp] theorem bind_ok {α β : Type} (a : α) (s : State) (k : α → State → Res β) : (Res.ok a s).bind k = k a s := rfl
@[simp] theorem bind_raise {α β : Type} (f : FaultCode) (s : State) (k : α → State → Res β) :
    (Res.raise f s).bind k = .raise f s := rfl
@[simp] theorem bind_wait {α β : Type} (p : Port) (s : State) (k : α → State → Res β) :
    (Res.wait p s).bind k = .wait p s := rfl
@[simp] theorem map_ok {α β : Type} (g : α → β) (a : α) (s : State) : (Res.ok a s).map g = .ok (g a) s := rfl
@[simp] theorem map_raise {α β : Type} (g : α → β) (f : FaultCode) (s : State) :
    (Res.raise f s).map g = .raise f s := rfl
@[simp] theorem map_wait {α β : Type} (g : α → β) (p : Port) (s : State) : (Res.wait p s).map g = .wait p s := rfl

theorem bind_eq_ok {α β : Type} {r : Res α} {k : α → State → Res β} {b : β} {t : State} :
    r.bind k = .ok b t ↔ ∃ a s, r = .ok a s ∧ k a s = .ok b t := by
  cases r <;> simp [Res.bind]

theorem bind_eq_raise {α β : Type} {r : Res α} {k : α → State → Res β} {f : FaultCode} {t : State} :
    r.bind k = .raise f t ↔ r = .raise f t ∨ ∃ a s, r = .ok a s ∧ k a s = .raise f t := by
  cases r <;> simp [Res.bind]

theorem bind_eq_wait {α β : Type} {r : Res α} {k : α → State → Res β} {p : Port} {t : State} :
    r.bind k = .wait p t ↔ r = .wait p t ∨ ∃ a s, r = .ok a s ∧ k a s = .wait p t := by
  cases r <;> simp [Res.bind]

theorem map_eq_ok {α β : Type} {g : α → β} {r : Res α} {b : β} {t : State} :
    r.map g = .ok b t ↔ ∃ a, r = .ok a t ∧ g a = b := by
  cases r <;> simp [Res.map, Res.bind, and_comm]

theorem map_eq_raise {α β : Type} {g : α → β} {r : Res α} {f : FaultCode} {t : State} :
    r.map g = .raise f t ↔ r = .raise f t := by
  cases r <;> simp [Res.map, Res.bind]

theorem map_eq_wait {α β : Type} {g : α → β} {r : Res α} {p : Port} {t : State} :
    r.map g = .wait p t ↔ r = .wait p t := by
  cases r <;> simp [Res.map, Res.bind]

/-- The state a piece of a command reaches, however it ends. -/
def Res.state {α : Type} : Res α → State
  | .ok _ s => s
  | .raise _ s => s
  | .wait _ s => s

@[simp] theorem state_ok {α : Type} (a : α) (s : State) : (Res.ok a s).state = s := rfl
@[simp] theorem state_raise {α : Type} (f : FaultCode) (s : State) : (Res.raise (α := α) f s).state = s := rfl
@[simp] theorem state_wait {α : Type} (p : Port) (s : State) : (Res.wait (α := α) p s).state = s := rfl
@[simp] theorem state_map {α β : Type} (g : α → β) (r : Res α) : (r.map g).state = r.state := by
  cases r <;> rfl

/-- A transitive relation from start to end holds through a sequence when it holds through both pieces. -/
theorem state_bind {α β : Type} {R : State → State → Prop} (htrans : ∀ {a b c}, R a b → R b c → R a c)
    {s : State} {r : Res α} {k : α → State → Res β} (h : R s r.state)
    (hk : ∀ a s', r = .ok a s' → R s' (k a s').state) : R s (r.bind k).state := by
  cases r with
  | ok a s' => exact htrans h (hk a s' rfl)
  | raise f s' => exact h
  | wait p s' => exact h

/-! ### The context store -/

theorem ctxTabulate_get (f : CtxIdx → CtxVar) (c : CtxIdx) : (ctxTabulate f)[c.toNat]'(c.isLt) = f c := by
  unfold ctxTabulate
  simp

@[simp] theorem ctxRead_ctxWrite_same (s : State) (c : CtxIdx) (v : CtxVar) : (s.ctxWrite c v).ctxRead c = v := by
  simp [State.ctxRead]

theorem ctxRead_ctxWrite_other (s : State) {c d : CtxIdx} (v : CtxVar) (h : d ≠ c) :
    (s.ctxWrite c v).ctxRead d = s.ctxRead d := by
  have hn : c.toNat ≠ d.toNat := fun e => h (BitVec.eq_of_toNat_eq e).symm
  simp [State.ctxRead, hn]

theorem ctxRead_congr {s t : State} (h : t.ctx = s.ctx) (c : CtxIdx) : t.ctxRead c = s.ctxRead c := by
  simp only [State.ctxRead, h]

/-! ### The bit port -/

theorem readBit_cons {s : State} {b : Bool} {rest : List Bool} (h : s.bits = b :: rest) :
    readBit s = .ok b (s.takeBit rest) := by
  simp [readBit, h]

theorem readBit_exhausted {s : State} (h : s.bits = []) (he : s.bitEnd = .exhausted) :
    readBit s = .raise .streamExhaustion s := by
  simp [readBit, h, he]

theorem readBit_silent {s : State} (h : s.bits = []) (he : s.bitEnd = .silent) : readBit s = .wait .bit s := by
  simp [readBit, h, he]

/-- Everything ReadBit can do (R50). -/
theorem readBit_cases (s : State) :
    (∃ b rest, s.bits = b :: rest ∧ readBit s = .ok b (s.takeBit rest)) ∨
    (s.bits = [] ∧ s.bitEnd = .exhausted ∧ readBit s = .raise .streamExhaustion s) ∨
    (s.bits = [] ∧ s.bitEnd = .silent ∧ readBit s = .wait .bit s) := by
  cases hb : s.bits with
  | cons b rest => exact .inl ⟨b, rest, rfl, readBit_cons hb⟩
  | nil =>
    cases he : s.bitEnd with
    | exhausted => exact .inr (.inl ⟨rfl, rfl, readBit_exhausted hb he⟩)
    | silent => exact .inr (.inr ⟨rfl, rfl, readBit_silent hb he⟩)

/-- Everything asking `aligned?` can do (R32, R53). -/
theorem askAligned_cases (s : State) :
    (s.alignsLeft = some 0 ∧ askAligned s = .wait .bit s) ∨
    (s.alignsLeft ≠ some 0 ∧ askAligned s = .ok (byteAligned s) s.takeAligned) := by
  by_cases h : s.alignsLeft = some 0
  · exact .inl ⟨h, if_pos h⟩
  · exact .inr ⟨h, if_neg h⟩

/-- With every `aligned?` answered, asking changes nothing. -/
theorem takeAligned_none {s : State} (h : s.alignsLeft = none) : s.takeAligned = s := by
  rw [State.takeAligned, h, Option.map_none, ← h]

/-! ### The CSEL port -/

/-- Everything the context query can do (R131): the request is sent in either case. -/
theorem csel_cases (opc : Opcode) (part : Bool) (binIdx : Nat) (prev : BitVec 16) (s : State) :
    (∃ a rest, s.cselAns = a :: rest ∧ csel opc part binIdx prev s =
      .ok a ((s.sendRequest (cselRequest opc part binIdx prev)).takeAnswer rest)) ∨
    (s.cselAns = [] ∧ csel opc part binIdx prev s = .wait .csel (s.sendRequest (cselRequest opc part binIdx prev))) := by
  cases h : s.cselAns with
  | cons a rest => exact .inl ⟨a, rest, rfl, by simp [csel, h]⟩
  | nil => exact .inr ⟨rfl, by simp [csel, h]⟩

/-! ### Commands -/

theorem runCommand_refused {i : Instr} {body : State → Res Word} {s : State} (h : isRefused (opcode i) s = true) :
    runCommand i body s = refuse s := by
  simp [runCommand, h]

theorem runCommand_ready {i : Instr} {body : State → Res Word} {s : State} (h : Ready i s) :
    runCommand i body s = finish (body s) := by
  simp [runCommand, h.1, h.2.1, h.2.2]

/-- Everything a command can do (R188). -/
theorem runCommand_cases (i : Instr) (body : State → Res Word) (s : State) :
    (isRefused (opcode i) s = true ∧ runCommand i body s = refuse s) ∨
    (isRefused (opcode i) s = false ∧ (i.wellFormed = false ∨ precondition i s = false) ∧
      runCommand i body s = enterFault .invalidDerivationRequest s) ∨
    (Ready i s ∧ runCommand i body s = finish (body s)) := by
  by_cases h1 : isRefused (opcode i) s = true
  · exact .inl ⟨h1, runCommand_refused h1⟩
  have h1' : isRefused (opcode i) s = false := by simpa using h1
  by_cases h2 : i.wellFormed = true
  · by_cases h3 : precondition i s = true
    · exact .inr (.inr ⟨⟨h1', h2, h3⟩, runCommand_ready ⟨h1', h2, h3⟩⟩)
    · refine .inr (.inl ⟨h1', .inr (by simpa using h3), ?_⟩)
      simp [runCommand, h1', h2, h3]
  · refine .inr (.inl ⟨h1', .inl (by simpa using h2), ?_⟩)
    simp [runCommand, h1', h2]

/-- Fault entry leaves the ports' other sides alone, but for the response (R186). -/
theorem enterFault_outside (f : FaultCode) (s : State) :
    (enterFault f s).rom = s.rom ∧ (enterFault f s).bits = s.bits ∧ (enterFault f s).pos = s.pos ∧
    (enterFault f s).bitEnd = s.bitEnd ∧ (enterFault f s).alignsLeft = s.alignsLeft ∧ (enterFault f s).cmds = s.cmds ∧ (enterFault f s).rspHeld = s.rspHeld ∧
    (enterFault f s).cselAns = s.cselAns ∧ (enterFault f s).cselReqs = s.cselReqs ∧ (enterFault f s).wait = s.wait := by
  simp [enterFault]

/-- The first fault with none pending is the one kept (R191). -/
@[simp] theorem keepFirst_none (f : FaultCode) : keepFirst .none f = f := rfl

/-- A pending fault is kept (R191). -/
theorem keepFirst_pending {held : FaultCode} (f : FaultCode) (h : held ≠ .none) : keepFirst held f = held := if_neg h

/-- The control state at fault entry (R186, R191). -/
theorem enterFault_control (f : FaultCode) (s : State) :
    (enterFault f s).FAULT = (if s.FAULT = .none then f else s.FAULT) ∧ (enterFault f s).engState = .uninit ∧
    (enterFault f s).ctxValid = false ∧ (enterFault f s).rsps = s.rsps ++ [⟨faultCode f, 0⟩] := by
  simp [enterFault, keepFirst]

/-- A command that is not refused and not exempt from refusal starts with no fault pending. -/
theorem fault_none_of_not_refused {i : Instr} {s : State} (h : isRefused (opcode i) s = false)
    (h1 : opcode i ≠ 0x01#6) (h2 : opcode i ≠ 0x3D#6) : s.FAULT = .none := by
  simp [isRefused] at h
  by_contra hne
  exact h2 (h hne h1)

end Sys2Proof.Machine
end

