-- ==== Sys2Proof/Laws/Frame.lean ====
section
/-!
SUPPORT. What a command that decodes bins may change, said once per shared operation: each stays within a `BinFrame`, however
it ends.
-/

namespace Sys2Proof.Machine

theorem NamedBy.append_left {l m : List CselAnswer} {c : CtxIdx} (h : NamedBy l c) : NamedBy (l ++ m) c := by
  obtain ⟨a, ha, hk⟩ := h
  exact ⟨a, List.mem_append_left _ ha, hk⟩

theorem NamedBy.append_right {l m : List CselAnswer} {c : CtxIdx} (h : NamedBy m c) : NamedBy (l ++ m) c := by
  obtain ⟨a, ha, hk⟩ := h
  exact ⟨a, List.mem_append_right _ ha, hk⟩

theorem BinFrame.refl (fixed : List CtxIdx) (s : State) : BinFrame fixed s s where
  ctxValid := rfl
  fault := rfl
  rom := rfl
  bitEnd := rfl
  alignsLeft := rfl
  cmds := rfl
  rsps := rfl
  rspHeld := rfl
  wait := rfl
  freeCount := rfl
  engState := .inl rfl
  bits := ⟨[], rfl, rfl⟩
  requests := ⟨[], (List.append_nil _).symm⟩
  ctx := ⟨[], rfl, fun _ _ _ => rfl⟩

theorem BinFrame.trans {fixed : List CtxIdx} {a b c : State} (h1 : BinFrame fixed a b) (h2 : BinFrame fixed b c) :
    BinFrame fixed a c where
  ctxValid := h2.ctxValid.trans h1.ctxValid
  fault := h2.fault.trans h1.fault
  rom := h2.rom.trans h1.rom
  bitEnd := h2.bitEnd.trans h1.bitEnd
  alignsLeft := h2.alignsLeft.trans h1.alignsLeft
  cmds := h2.cmds.trans h1.cmds
  rsps := h2.rsps.trans h1.rsps
  rspHeld := h2.rspHeld.trans h1.rspHeld
  wait := h2.wait.trans h1.wait
  freeCount := h2.freeCount.trans h1.freeCount
  engState := by
    rcases h1.engState with e | ⟨e, e'⟩ <;> rcases h2.engState with d | ⟨d, d'⟩ <;> simp_all
  bits := by
    obtain ⟨l, hl, hp⟩ := h1.bits
    obtain ⟨m, hm, hq⟩ := h2.bits
    exact ⟨l ++ m, by rw [hl, hm, List.append_assoc], by rw [hq, hp, List.length_append]; omega⟩
  requests := by
    obtain ⟨l, hl⟩ := h1.requests
    obtain ⟨m, hm⟩ := h2.requests
    exact ⟨l ++ m, by rw [hm, hl, List.append_assoc]⟩
  ctx := by
    obtain ⟨l, hl, hc⟩ := h1.ctx
    obtain ⟨m, hm, hd⟩ := h2.ctx
    refine ⟨l ++ m, by rw [hl, hm, List.append_assoc], fun c hf hn => ?_⟩
    rw [hd c hf fun h => hn h.append_right, hc c hf fun h => hn h.append_left]

/-- A frame holds through a sequence when it holds through both pieces. -/
theorem BinFrame.bind {α β : Type} {fixed : List CtxIdx} {s : State} {r : Res α} {k : α → State → Res β}
    (h : BinFrame fixed s r.state) (hk : ∀ a s', r = .ok a s' → BinFrame fixed s' (k a s').state) :
    BinFrame fixed s (r.bind k).state :=
  state_bind (R := BinFrame fixed) BinFrame.trans h hk

/-- A wider list of fixed entries frames more. -/
theorem BinFrame.mono {fixed fixed' : List CtxIdx} (hsub : ∀ c ∈ fixed, c ∈ fixed') {s t : State}
    (h : BinFrame fixed s t) : BinFrame fixed' s t where
  ctxValid := h.ctxValid
  fault := h.fault
  rom := h.rom
  bitEnd := h.bitEnd
  alignsLeft := h.alignsLeft
  cmds := h.cmds
  rsps := h.rsps
  rspHeld := h.rspHeld
  wait := h.wait
  freeCount := h.freeCount
  engState := h.engState
  bits := h.bits
  requests := h.requests
  ctx := by
    obtain ⟨l, hl, hc⟩ := h.ctx
    exact ⟨l, hl, fun c hf hn => hc c (fun hm => hf (hsub c hm)) hn⟩

/-- Writing the engine registers stays within the frame. -/
theorem setEngine_frame (fixed : List CtxIdx) (s : State) (r o : Nat) : BinFrame fixed s (s.setEngine r o) :=
  ⟨rfl, rfl, rfl, rfl, rfl, rfl, rfl, rfl, rfl, rfl, .inl rfl, ⟨[], rfl, rfl⟩, ⟨[], (List.append_nil _).symm⟩, ⟨[], rfl, fun _ _ _ => rfl⟩⟩

theorem setOffset_frame (fixed : List CtxIdx) (s : State) (o : Nat) : BinFrame fixed s (s.setOffset o) :=
  ⟨rfl, rfl, rfl, rfl, rfl, rfl, rfl, rfl, rfl, rfl, .inl rfl, ⟨[], rfl, rfl⟩, ⟨[], (List.append_nil _).symm⟩, ⟨[], rfl, fun _ _ _ => rfl⟩⟩

theorem setRange_frame (fixed : List CtxIdx) (s : State) (r : Nat) : BinFrame fixed s (s.setRange r) :=
  ⟨rfl, rfl, rfl, rfl, rfl, rfl, rfl, rfl, rfl, rfl, .inl rfl, ⟨[], rfl, rfl⟩, ⟨[], (List.append_nil _).symm⟩, ⟨[], rfl, fun _ _ _ => rfl⟩⟩

theorem ctxWrite_frame {fixed : List CtxIdx} {c : CtxIdx} (h : c ∈ fixed) (s : State) (v : CtxVar) :
    BinFrame fixed s (s.ctxWrite c v) :=
  ⟨rfl, rfl, rfl, rfl, rfl, rfl, rfl, rfl, rfl, rfl, .inl rfl, ⟨[], rfl, rfl⟩, ⟨[], (List.append_nil _).symm⟩,
    ⟨[], rfl, fun _ hd _ => ctxRead_ctxWrite_other s v fun e => hd (e ▸ h)⟩⟩

theorem readBit_frame (fixed : List CtxIdx) (s : State) : BinFrame fixed s (readBit s).state := by
  obtain ⟨b, rest, hb, e⟩ | ⟨-, -, e⟩ | ⟨-, -, e⟩ := readBit_cases s <;> rw [e]
  · exact ⟨rfl, rfl, rfl, rfl, rfl, rfl, rfl, rfl, rfl, rfl, .inl rfl, ⟨[b], by simp [hb], rfl⟩, ⟨[], (List.append_nil _).symm⟩,
      ⟨[], rfl, fun _ _ _ => rfl⟩⟩
  · exact .refl fixed s
  · exact .refl fixed s

theorem readBits_frame (fixed : List CtxIdx) (n v : Nat) (s : State) : BinFrame fixed s (readBits n v s).state := by
  induction n generalizing v s with
  | zero => exact .refl fixed s
  | succ n ih => exact BinFrame.bind (readBit_frame fixed s) fun b s' _ => ih _ s'

theorem renormLoop_frame (fixed : List CtxIdx) (fuel : Nat) (s : State) :
    BinFrame fixed s (renormLoop fuel s).state := by
  induction fuel generalizing s with
  | zero => exact .refl fixed s
  | succ n ih =>
    unfold renormLoop
    split
    · exact BinFrame.bind ((setRange_frame fixed s _).trans (readBit_frame fixed _)) fun b s' _ =>
        (setOffset_frame fixed s' _).trans (ih _)
    · exact .refl fixed s

theorem renormD_frame (fixed : List CtxIdx) (s : State) : BinFrame fixed s (renormD s).state :=
  renormLoop_frame fixed _ s

theorem decodeDecision_frame {fixed : List CtxIdx} {c : CtxIdx} (h : c ∈ fixed) (s : State) :
    BinFrame fixed s (decodeDecision c s).state := by
  unfold decodeDecision
  rw [state_map]
  exact ((setEngine_frame fixed s _ _).trans (ctxWrite_frame h _ _)).trans (renormD_frame fixed _)

theorem decodeBypass_frame (fixed : List CtxIdx) (s : State) : BinFrame fixed s (decodeBypass s).state := by
  unfold decodeBypass
  refine BinFrame.bind (readBit_frame fixed s) fun b s' _ => ?_
  dsimp only
  split <;> exact setOffset_frame fixed s' _

theorem decodeTerminate_frame (fixed : List CtxIdx) {s : State} (ha : s.engState = .active) :
    BinFrame fixed s (decodeTerminate s).state := by
  unfold decodeTerminate
  dsimp only
  split
  · exact ⟨rfl, rfl, rfl, rfl, rfl, rfl, rfl, rfl, rfl, rfl, .inr ⟨ha, rfl⟩, ⟨[], rfl, rfl⟩, ⟨[], (List.append_nil _).symm⟩,
      ⟨[], rfl, fun _ _ _ => rfl⟩⟩
  · rw [state_map]
    exact (setRange_frame fixed s _).trans (renormD_frame fixed _)

theorem engActive_iff (s : State) : engActive s = true ↔ s.engState = .active := by simp [engActive]

/-- Every bin of a command stays within the frame of the entries its kind names (R132). -/
theorem binOf_frame {fixed : List CtxIdx} {kind : BinKind} (h : ∀ c, kind = .dec c → c ∈ fixed) (s : State) :
    BinFrame fixed s (binOf kind s).state := by
  unfold binOf
  split
  · rename_i ha
    cases kind with
    | dec c => exact decodeDecision_frame (h c rfl) s
    | byp => exact decodeBypass_frame fixed s
    | trm => exact decodeTerminate_frame fixed ((engActive_iff s).1 ha)
  · exact .refl fixed s

/-- A bin decoded after an answer was taken: the entry named is accounted to that answer. -/
theorem BinFrame.answer {s t : State} {a : CselAnswer} {rest : List CselAnswer} {req : CselRequest}
    {fixed named : List CtxIdx} (ha : s.cselAns = a :: rest)
    (hnamed : ∀ c ∈ named, answerKind a = some (.dec c))
    (h : BinFrame named ((s.sendRequest req).takeAnswer rest) t) : BinFrame fixed s t where
  ctxValid := h.ctxValid
  fault := h.fault
  rom := h.rom
  bitEnd := h.bitEnd
  alignsLeft := h.alignsLeft
  cmds := h.cmds
  rsps := h.rsps
  rspHeld := h.rspHeld
  wait := h.wait
  freeCount := h.freeCount
  engState := h.engState
  bits := h.bits
  requests := by
    obtain ⟨l, hl⟩ := h.requests
    exact ⟨req :: l, by rw [hl]; simp⟩
  ctx := by
    obtain ⟨l, hl, hc⟩ := h.ctx
    refine ⟨a :: l, by simpa [ha] using hl, fun c _ hn => ?_⟩
    have := hc c (fun hm => hn ⟨a, by simp, hnamed c hm⟩) fun hm => hn (NamedBy.append_right (l := [a]) hm)
    simpa [State.ctxRead] using this

theorem fetchBin_frame (fixed : List CtxIdx) (opc : Opcode) (part : Bool) (n : Nat) (prev : BitVec 16) (s : State) :
    BinFrame fixed s (fetchBin opc part n prev s).state := by
  unfold fetchBin
  obtain ⟨a, rest, ha, e⟩ | ⟨ha, e⟩ := csel_cases opc part n prev s
  · rw [e, bind_ok]
    cases hk : answerKind a with
    | none => exact BinFrame.answer (named := []) ha (by simp) (.refl [] _)
    | some kind =>
      cases kind with
      | dec c => exact BinFrame.answer (named := [c]) ha (by simp [hk]) (binOf_frame (by simp) _)
      | byp => exact BinFrame.answer (named := []) ha (by simp) (binOf_frame (by simp) _)
      | trm => exact BinFrame.answer (named := []) ha (by simp) (binOf_frame (by simp) _)
  · rw [e]
    exact ⟨rfl, rfl, rfl, rfl, rfl, rfl, rfl, rfl, rfl, rfl, .inl rfl, ⟨[], rfl, rfl⟩, ⟨[_], rfl⟩, ⟨[], rfl, fun _ _ _ => rfl⟩⟩

theorem tuLoop_frame (fixed : List CtxIdx) (opc : Opcode) (cMax : Option Nat) (part : Bool) (room count : Nat) (s : State) :
    BinFrame fixed s (tuLoop opc cMax part room count s).state := by
  induction room generalizing count s with
  | zero => unfold tuLoop; split <;> exact .refl fixed s
  | succ n ih =>
    unfold tuLoop
    split
    · exact .refl fixed s
    · refine BinFrame.bind (fetchBin_frame fixed opc part _ _ s) fun b s' _ => ?_
      split
      · exact ih _ s'
      · exact .refl fixed s'

theorem tuCore_frame (fixed : List CtxIdx) (opc : Opcode) (cMax : Option Nat) (part : Bool) (s : State) :
    BinFrame fixed s (tuCore opc cMax part s).state := tuLoop_frame fixed opc cMax part _ _ s

theorem flLoop_frame (fixed : List CtxIdx) (opc : Opcode) (part : Bool) (n : Nat) (bins : List Bool) (s : State) :
    BinFrame fixed s (flLoop opc part n bins s).state := by
  induction n generalizing bins s with
  | zero => exact .refl fixed s
  | succ n ih => exact BinFrame.bind (fetchBin_frame fixed opc part _ _ s) fun b s' _ => ih _ s'

theorem escapeLoop_frame (fixed : List CtxIdx) (room kk suf : Nat) (s : State) :
    BinFrame fixed s (escapeLoop room kk suf s).state := by
  induction room generalizing kk suf s with
  | zero => exact .refl fixed s
  | succ n ih =>
    refine BinFrame.bind (binOf_frame (by simp) s) fun b s' _ => ?_
    split
    · exact ih _ _ s'
    · exact .refl fixed s'

theorem verbatimLoop_frame (fixed : List CtxIdx) (kk suf : Nat) (s : State) :
    BinFrame fixed s (verbatimLoop kk suf s).state := by
  induction kk generalizing suf s with
  | zero => exact .refl fixed s
  | succ n ih => exact BinFrame.bind (binOf_frame (by simp) s) fun b s' _ => ih _ s'

theorem uegMagnitude_frame (fixed : List CtxIdx) (k uc : Nat) (s : State) :
    BinFrame fixed s (uegMagnitude k uc s).state := by
  refine BinFrame.bind (tuCore_frame fixed _ _ _ s) fun v s' _ => ?_
  split
  · rw [state_map]
    exact BinFrame.bind (escapeLoop_frame fixed _ _ _ s') fun e s'' _ => verbatimLoop_frame fixed _ _ s''
  · exact .refl fixed s'

theorem uegSign_frame (fixed : List CtxIdx) (sgn : Bool) (v : Nat) (s : State) :
    BinFrame fixed s (uegSign sgn v s).state := by
  unfold uegSign
  split
  · rw [state_map]; exact binOf_frame (by simp) s
  · exact .refl fixed s

theorem cbpChroma_frame (fixed : List CtxIdx) (cat : BitVec 2) (s : State) :
    BinFrame fixed s (cbpChroma cat s).state := by
  unfold cbpChroma
  split
  · exact tuCore_frame fixed _ _ _ s
  · exact .refl fixed s

/-- A tree's walk changes no context but the tree's own. -/
theorem runTree_frame (t : BinTree) (s : State) : BinFrame (treeContexts t) s (runTree t s).state := by
  induction t generalizing s with
  | leaf v => exact .refl _ s
  | node kind zero one ihz iho =>
    have hz : ∀ c ∈ treeContexts zero, c ∈ treeContexts (.node kind zero one) := by
      intro c hc; cases kind <;> simp [treeContexts, hc]
    have ho : ∀ c ∈ treeContexts one, c ∈ treeContexts (.node kind zero one) := by
      intro c hc; cases kind <;> simp [treeContexts, hc]
    refine BinFrame.bind (binOf_frame ?_ s) fun b s' _ => ?_
    · rintro c rfl; simp [treeContexts]
    · split
      · exact (iho s').mono ho
      · exact (ihz s').mono hz

/-! ### ALIGN: bits and answers to aligned? alone -/

/-- From `s` to `t` only the bit port moved: bits were taken, from the front and counted, and answers to `aligned?`. -/
def BitPortOnly (s t : State) : Prop :=
  ∃ (taken : List Bool) (asked : Nat), s.bits = taken ++ t.bits ∧
    t = { s with bits := t.bits, pos := s.pos + taken.length, alignsLeft := s.alignsLeft.map (· - asked) }

theorem BitPortOnly.refl (s : State) : BitPortOnly s s :=
  ⟨[], 0, rfl, by simp⟩

theorem BitPortOnly.trans {a b c : State} (h1 : BitPortOnly a b) (h2 : BitPortOnly b c) : BitPortOnly a c := by
  obtain ⟨l, m, hl, e1⟩ := h1
  obtain ⟨l', m', hl', e2⟩ := h2
  refine ⟨l ++ l', m + m', by rw [hl, hl', List.append_assoc], ?_⟩
  rw [e2, e1]
  simp [Nat.add_assoc, Function.comp_def, Nat.sub_sub]

theorem readBit_bitPort (s : State) : BitPortOnly s (readBit s).state := by
  obtain ⟨b, rest, hb, e⟩ | ⟨-, -, e⟩ | ⟨-, -, e⟩ := readBit_cases s <;> rw [e]
  · exact ⟨[b], 0, by simp [hb], by simp [State.takeBit]⟩
  · exact .refl s
  · exact .refl s

theorem askAligned_bitPort (s : State) : BitPortOnly s (askAligned s).state := by
  obtain ⟨-, e⟩ | ⟨-, e⟩ := askAligned_cases s <;> rw [e]
  · exact .refl s
  · exact ⟨[], 1, rfl, rfl⟩

theorem alignLoop_bitPort (f : Bool) (fuel n : Nat) (s : State) : BitPortOnly s (alignLoop f fuel n s).state := by
  induction fuel generalizing n s with
  | zero => exact .refl s
  | succ k ih =>
    refine state_bind (R := BitPortOnly) BitPortOnly.trans (askAligned_bitPort s) fun a s1 _ => ?_
    split
    · exact .refl s1
    · refine state_bind (R := BitPortOnly) BitPortOnly.trans (readBit_bitPort s1) fun b s2 _ => ?_
      split
      · exact ih _ s2
      · exact .refl s2

end Sys2Proof.Machine
end

