-- ==== Sys2Proof/Laws/Engine.lean ====
section
/-!
SUPPORT. The arithmetic of the engine (R105): the bounds of the LPS sub-range, renormalization in closed form, and the
invariants of R29 through one bin.
-/

namespace Sys2Proof.Machine

/-! ### Numbers -/

theorem foldl_msb (l : List Bool) (v : Nat) :
    l.foldl (fun v b => 2 * v + b.toNat) v = v * 2 ^ l.length + msbValue l := by
  induction l generalizing v with
  | nil => simp [msbValue]
  | cons b rest ih =>
    simp only [msbValue, List.foldl_cons, List.length_cons] at ih ⊢
    rw [ih (2 * v + b.toNat), ih (2 * 0 + b.toNat), Nat.pow_succ]
    ring

@[simp] theorem msbValue_nil : msbValue [] = 0 := rfl

theorem msbValue_cons (b : Bool) (l : List Bool) : msbValue (b :: l) = b.toNat * 2 ^ l.length + msbValue l := by
  have := foldl_msb l (2 * 0 + b.toNat)
  simpa [msbValue] using this

theorem msbValue_lt (l : List Bool) : msbValue l < 2 ^ l.length := by
  induction l with
  | nil => simp
  | cons b rest ih =>
    rw [msbValue_cons, List.length_cons, Nat.pow_succ]
    have : b.toNat ≤ 1 := Bool.toNat_le b
    nlinarith

theorem msbValue_append (l m : List Bool) : msbValue (l ++ m) = msbValue l * 2 ^ m.length + msbValue m := by
  rw [msbValue, List.foldl_append, foldl_msb]
  rfl

/-! ### The table -/

/-- The entries of RangeTabLPS: at least 2, and at most 128, 176, 208 or 240 by column (R105). -/
theorem rangeTab_bounds : ∀ p < 64, ∀ q < 4,
    2 ≤ (rangeTabLPS.getD p []).getD q 0 ∧ (rangeTabLPS.getD p []).getD q 0 ≤ [128, 176, 208, 240].getD q 0 := by
  decide +kernel

theorem rangeLPS_ge (p : BitVec 6) (q : BitVec 2) : 2 ≤ rangeLPS p q :=
  (rangeTab_bounds p.toNat p.isLt q.toNat q.isLt).1

theorem rangeLPS_le (p : BitVec 6) (q : BitVec 2) : rangeLPS p q ≤ [128, 176, 208, 240].getD q.toNat 0 :=
  (rangeTab_bounds p.toNat p.isLt q.toNat q.isLt).2

theorem rangeIdx_toNat (r : BitVec 9) : (rangeIdx r).toNat = r.toNat / 64 % 4 := by
  simp [rangeIdx, BitVec.extractLsb'_toNat, Nat.shiftRight_eq_div_pow]

/-- Both sub-ranges of a decision are proper (R105). -/
theorem lps_bounds (p : BitVec 6) (r : BitVec 9) (h1 : 256 ≤ r.toNat) (h2 : r.toNat ≤ 510) :
    2 ≤ rangeLPS p (rangeIdx r) ∧ rangeLPS p (rangeIdx r) ≤ 240 ∧ rangeLPS p (rangeIdx r) + 128 ≤ r.toNat := by
  have hge := rangeLPS_ge p (rangeIdx r)
  have hle := rangeLPS_le p (rangeIdx r)
  rw [rangeIdx_toNat] at hle
  have hq : r.toNat / 64 % 4 = 0 ∨ r.toNat / 64 % 4 = 1 ∨ r.toNat / 64 % 4 = 2 ∨ r.toNat / 64 % 4 = 3 := by omega
  rcases hq with h | h | h | h <;> rw [h] at hle <;> simp at hle <;> omega

/-! ### Renormalization -/

/-- Renormalization that ends leaves 256 <= codIRange <= 510 and codIOffset < codIRange, from any range 1..510 with the
offset below it (R105). -/
theorem renormLoop_bounds {fuel : Nat} {s t : State} (hf : s.bits.length < fuel) (hr : 1 ≤ s.codIRange.toNat)
    (hr' : s.codIRange.toNat ≤ 510) (ho : s.codIOffset.toNat < s.codIRange.toNat) (h : renormLoop fuel s = .ok () t) :
    256 ≤ t.codIRange.toNat ∧ t.codIRange.toNat ≤ 510 ∧ t.codIOffset.toNat < t.codIRange.toNat ∧
      t.engState = s.engState := by
  induction fuel generalizing s with
  | zero => omega
  | succ n ih =>
    unfold renormLoop at h
    split at h
    · rename_i hlt
      obtain ⟨b, s', hb, hk⟩ := bind_eq_ok.1 h
      obtain ⟨b', rest, hbits, e⟩ | ⟨-, -, e⟩ | ⟨-, -, e⟩ := readBit_cases (s.setRange (2 * s.codIRange.toNat))
      · rw [e] at hb
        cases hb
        have hb1 : b.toNat ≤ 1 := Bool.toNat_le b
        rw [setRange_bits] at hbits
        have hlen : rest.length < n := by rw [hbits, List.length_cons] at hf; omega
        have := ih (s := ((s.setRange (2 * s.codIRange.toNat)).takeBit rest).setOffset (2 * s.codIOffset.toNat + b.toNat))
          (by simpa using hlen) (by simp; omega) (by simp; omega) (by simp; omega) hk
        simpa using this
      · rw [e] at hb; cases hb
      · rw [e] at hb; cases hb
    · cases h
      exact ⟨by omega, hr', ho, rfl⟩

theorem renormD_bounds {s t : State} (hr : 1 ≤ s.codIRange.toNat) (hr' : s.codIRange.toNat ≤ 510)
    (ho : s.codIOffset.toNat < s.codIRange.toNat) (h : renormD s = .ok () t) :
    256 ≤ t.codIRange.toNat ∧ t.codIRange.toNat ≤ 510 ∧ t.codIOffset.toNat < t.codIRange.toNat ∧
      t.engState = s.engState :=
  renormLoop_bounds (Nat.lt_succ_self _) hr hr' ho h

/-- One doubling more is one doubling of the doubled state. -/
theorem renormed_succ {s : State} {b : Bool} {rest : List Bool} (n : Nat) (hb : s.bits = b :: rest)
    (hr : s.codIRange.toNat < 256) (ho : s.codIOffset.toNat < 256) (hn : n ≤ rest.length) :
    renormed n (((s.setRange (2 * s.codIRange.toNat)).takeBit rest).setOffset (2 * s.codIOffset.toNat + b.toNat)) =
      renormed (n + 1) s := by
  have hb1 : b.toNat ≤ 1 := Bool.toNat_le b
  have e1 : (2 * s.codIRange.toNat) % 512 = 2 * s.codIRange.toNat := Nat.mod_eq_of_lt (by omega)
  have e2 : (2 * s.codIOffset.toNat + b.toNat) % 512 = 2 * s.codIOffset.toNat + b.toNat := Nat.mod_eq_of_lt (by omega)
  have hlen : (rest.take n).length = n := by simp [hn]
  simp only [renormed, State.setRange, State.setOffset, State.takeBit, hb, List.take_succ_cons, List.drop_succ_cons, msbValue_cons, hlen,
    BitVec.toNat_ofNat, e1, e2, Nat.pow_succ]
  have e3 : 2 * s.codIRange.toNat * 2 ^ n = s.codIRange.toNat * (2 ^ n * 2) := by ring
  have e4 : (2 * s.codIOffset.toNat + b.toNat) * 2 ^ n + msbValue (rest.take n) =
      s.codIOffset.toNat * (2 ^ n * 2) + (b.toNat * 2 ^ n + msbValue (rest.take n)) := by ring
  have e5 : s.pos + 1 + n = s.pos + (n + 1) := by omega
  rw [e3, e4, e5]

/-- RenormD in closed form (R95), when the bit source has the bits. -/
theorem renormLoop_eq (n : Nat) {fuel : Nat} {s : State} (hfuel : n < fuel)
    (hlow : ∀ j < n, s.codIRange.toNat * 2 ^ j < 256) (hhigh : 256 ≤ s.codIRange.toNat * 2 ^ n)
    (ho : s.codIOffset.toNat < s.codIRange.toNat) (hbits : n ≤ s.bits.length) (hr : s.codIRange.toNat < 512) :
    renormLoop fuel s = .ok () (renormed n s) := by
  induction n generalizing fuel s with
  | zero =>
    obtain ⟨fuel, rfl⟩ : ∃ k, fuel = k + 1 := ⟨fuel - 1, by omega⟩
    have : ¬ s.codIRange.toNat < 256 := by simpa using hhigh
    simp [renormLoop, this, renormed]
  | succ n ih =>
    obtain ⟨fuel, rfl⟩ : ∃ k, fuel = k + 1 := ⟨fuel - 1, by omega⟩
    have hlt : s.codIRange.toNat < 256 := by simpa using hlow 0 (by omega)
    obtain ⟨b, rest, hb⟩ : ∃ b rest, s.bits = b :: rest := by
      cases hs : s.bits with
      | nil => rw [hs] at hbits; simp at hbits
      | cons b rest => exact ⟨b, rest, rfl⟩
    have hlen : n ≤ rest.length := by rw [hb] at hbits; simpa using hbits
    have hb1 : b.toNat ≤ 1 := Bool.toNat_le b
    have hstep : renormLoop (fuel + 1) s = renormLoop fuel
        (((s.setRange (2 * s.codIRange.toNat)).takeBit rest).setOffset (2 * s.codIOffset.toNat + b.toNat)) := by
      conv_lhs => unfold renormLoop
      rw [if_pos hlt, readBit_cons (s := s.setRange _) hb, bind_ok]
      rfl
    have e1 : (2 * s.codIRange.toNat) % 512 = 2 * s.codIRange.toNat := Nat.mod_eq_of_lt (by omega)
    have e2 : (2 * s.codIOffset.toNat + b.toNat) % 512 = 2 * s.codIOffset.toNat + b.toNat :=
      Nat.mod_eq_of_lt (by omega)
    rw [hstep, ih (by omega) ?_ ?_ ?_ (by simpa using hlen) ?_, renormed_succ n hb hlt (by omega) hlen]
    · intro j hj
      have := hlow (j + 1) (by omega)
      simp only [setOffset_codIRange, takeBit_codIRange, setRange_codIRange, BitVec.toNat_ofNat, e1]
      rw [Nat.pow_succ] at this
      nlinarith
    · simp only [setOffset_codIRange, takeBit_codIRange, setRange_codIRange, BitVec.toNat_ofNat, e1]
      rw [Nat.pow_succ] at hhigh
      nlinarith
    · simp only [setOffset_codIRange, takeBit_codIRange, setRange_codIRange, setOffset_codIOffset, BitVec.toNat_ofNat, e1, e2]
      omega
    · simp only [setOffset_codIRange, takeBit_codIRange, setRange_codIRange, BitVec.toNat_ofNat, e1]
      omega

/-- The number of doublings is the least that brings the range to 256 or more. -/
theorem renormShift_spec {r : Nat} (h : 1 ≤ r) :
    (∀ j < renormShift r, r * 2 ^ j < 256) ∧ 256 ≤ r * 2 ^ renormShift r := by
  unfold renormShift
  split
  · exact ⟨by simp, by simpa⟩
  · rename_i hlt
    have hr : r < 256 := by omega
    have hne : r ≠ 0 := by omega
    have hlo : 2 ^ Nat.log2 r ≤ r := Nat.log2_self_le hne
    have hhi : r < 2 ^ (Nat.log2 r + 1) := Nat.lt_log2_self
    have h8 : Nat.log2 r < 8 := (Nat.log2_lt hne).2 (by simpa using hr)
    refine ⟨fun j hj => ?_, ?_⟩
    · calc r * 2 ^ j < 2 ^ (Nat.log2 r + 1) * 2 ^ j := Nat.mul_lt_mul_of_pos_right hhi (by positivity)
        _ = 2 ^ (Nat.log2 r + 1 + j) := (Nat.pow_add _ _ _).symm
        _ ≤ 2 ^ 8 := Nat.pow_le_pow_right (by norm_num) (by omega)
    · calc 256 = 2 ^ (Nat.log2 r + (8 - Nat.log2 r)) := by rw [Nat.add_sub_cancel' (by omega)]
        _ = 2 ^ Nat.log2 r * 2 ^ (8 - Nat.log2 r) := Nat.pow_add _ _ _
        _ ≤ r * 2 ^ (8 - Nat.log2 r) := Nat.mul_le_mul_right _ hlo

/-- RenormD in closed form (R95). -/
theorem renormD_eq {s : State} (hr : 1 ≤ s.codIRange.toNat) (ho : s.codIOffset.toNat < s.codIRange.toNat)
    (hbits : renormShift s.codIRange.toNat ≤ s.bits.length) :
    renormD s = .ok () (renormed (renormShift s.codIRange.toNat) s) :=
  renormLoop_eq _ (by omega) (renormShift_spec hr).1 (renormShift_spec hr).2 ho hbits s.codIRange.isLt

/-! ### The invariants of R29 through one bin -/

/-- ACTIVE with the bounds of R29. -/
def ActiveOk (s : State) : Prop :=
  s.engState = .active ∧ 256 ≤ s.codIRange.toNat ∧ s.codIRange.toNat ≤ 510 ∧ s.codIOffset.toNat < s.codIRange.toNat

/-- TERMINATED with the bounds of R29. -/
def TerminatedOk (s : State) : Prop :=
  s.engState = .terminated ∧ 254 ≤ s.codIRange.toNat ∧ s.codIRange.toNat ≤ 508 ∧
    s.codIRange.toNat ≤ s.codIOffset.toNat

theorem EngineInv.activeOk {s : State} (h : EngineInv s) (ha : s.engState = .active) : ActiveOk s := ⟨ha, h.1 ha⟩

theorem ActiveOk.engineInv {s : State} (h : ActiveOk s) : EngineInv s := by
  refine ⟨fun _ => h.2, ?_, ?_⟩ <;> intro e <;> rw [h.1] at e <;> cases e

theorem TerminatedOk.engineInv {s : State} (h : TerminatedOk s) : EngineInv s := by
  refine ⟨?_, fun _ => h.2, ?_⟩ <;> intro e <;> rw [h.1] at e <;> cases e

/-- What the interval split of a decision leaves (R105). -/
theorem decisionSplit_bounds (v : CtxVar) {s : State} (h : ActiveOk s) :
    2 ≤ (decisionSplit v s.codIRange s.codIOffset).2.1 ∧ (decisionSplit v s.codIRange s.codIOffset).2.1 ≤ 510 ∧
    (decisionSplit v s.codIRange s.codIOffset).2.2 < (decisionSplit v s.codIRange s.codIOffset).2.1 := by
  obtain ⟨-, h1, h2, h3⟩ := h
  obtain ⟨b1, b2, b3⟩ := lps_bounds v.pStateIdx s.codIRange h1 h2
  unfold decisionSplit
  dsimp only
  split <;> dsimp only <;> omega

theorem decodeDecision_ok {c : CtxIdx} {s t : State} {b : Bool} (h : ActiveOk s) (e : decodeDecision c s = .ok b t) :
    ActiveOk t := by
  unfold decodeDecision at e
  obtain ⟨u, hu, -⟩ := map_eq_ok.1 e
  obtain ⟨b1, b2, b3⟩ := decisionSplit_bounds (s.ctxRead c) h
  have := renormD_bounds (by simp; omega) (by simp; omega) (by simp; omega) hu
  exact ⟨by simpa using this.2.2.2.trans h.1, this.1, this.2.1, this.2.2.1⟩

theorem decodeBypass_ok {s t : State} {b : Bool} (h : ActiveOk s) (e : decodeBypass s = .ok b t) : ActiveOk t := by
  unfold decodeBypass at e
  obtain ⟨x, s', hx, hk⟩ := bind_eq_ok.1 e
  obtain ⟨x', rest, hbits, ex⟩ | ⟨-, -, ex⟩ | ⟨-, -, ex⟩ := readBit_cases s <;> rw [ex] at hx <;> cases hx
  have hx1 : x.toNat ≤ 1 := Bool.toNat_le x
  obtain ⟨h0, h1, h2, h3⟩ := h
  dsimp only at hk
  split at hk <;> cases hk
  · exact ⟨h0, by simpa using h1, by simpa using h2, by simp; omega⟩
  · exact ⟨h0, by simpa using h1, by simpa using h2, by simp; omega⟩

theorem decodeTerminate_ok {s t : State} {b : Bool} (h : ActiveOk s) (e : decodeTerminate s = .ok b t) :
    (ActiveOk t ∧ b = false) ∨ (TerminatedOk t ∧ b = true) := by
  obtain ⟨h0, h1, h2, h3⟩ := h
  unfold decodeTerminate at e
  dsimp only at e
  split at e
  · cases e
    refine .inr ⟨⟨rfl, ?_, ?_, ?_⟩, rfl⟩ <;> simp <;> omega
  · obtain ⟨u, hu, hb⟩ := map_eq_ok.1 e
    have := renormD_bounds (by simp; omega) (by simp; omega) (by simp; omega) hu
    exact .inl ⟨⟨by simpa using this.2.2.2.trans h0, this.1, this.2.1, this.2.2.1⟩, hb.symm⟩

/-- A bin leaves an ACTIVE engine within the bounds of R29; only a terminate bin of 1 ends it. -/
theorem binOf_ok {kind : BinKind} {s t : State} {b : Bool} (h : ActiveOk s) (e : binOf kind s = .ok b t) :
    ActiveOk t ∨ (TerminatedOk t ∧ kind = .trm ∧ b = true) := by
  have ha : engActive s = true := (engActive_iff s).2 h.1
  rw [binOf, if_pos ha] at e
  cases kind with
  | dec c => exact .inl (decodeDecision_ok h e)
  | byp => exact .inl (decodeBypass_ok h e)
  | trm =>
    obtain ⟨h', -⟩ | ⟨h', hb⟩ := decodeTerminate_ok h e
    · exact .inl h'
    · exact .inr ⟨h', rfl, hb⟩

end Sys2Proof.Machine
end

