-- ==== Sys2Proof/Laws/Bins.lean ====
section
/-!
SUPPORT. One lemma per loop that reads bins: what the unary, fixed-length, escape and verbatim loops and a table's walk answer
when the bins they read are known, and the bounds of R29 through each.
-/

namespace Sys2Proof.Machine

/-! ### Bins one after another -/

theorem fetchesBins_cons {opc : Opcode} {part : Bool} {done bins : List Bool} {b : Bool} {s t : State} :
    fetchesBins opc part done (b :: bins) s = some t ↔
      ∃ s', fetchBin opc part done.length (prevOf done) s = .ok b s' ∧
        fetchesBins opc part (done ++ [b]) bins s' = some t := by
  rw [fetchesBins]
  cases fetchBin opc part done.length (prevOf done) s with
  | ok b' s' => by_cases h : b' = b <;> simp [h]
  | raise f s' => simp
  | wait p s' => simp

theorem decodesBins_cons {kind : BinKind} {kinds : List BinKind} {b : Bool} {bins : List Bool} {s t : State} :
    decodesBins (kind :: kinds) (b :: bins) s = some t ↔
      ∃ s', binOf kind s = .ok b s' ∧ decodesBins kinds bins s' = some t := by
  rw [decodesBins]
  cases binOf kind s with
  | ok b' s' => by_cases h : b' = b <;> simp [h]
  | raise f s' => simp
  | wait p s' => simp

@[simp] theorem fetchesBins_nil {opc : Opcode} {part : Bool} {done : List Bool} {s t : State} :
    fetchesBins opc part done [] s = some t ↔ s = t := by simp [fetchesBins]

@[simp] theorem decodesBins_nil {s t : State} : decodesBins [] [] s = some t ↔ s = t := by simp [decodesBins]

theorem fetchesBins_append {opc : Opcode} {part : Bool} {done bins more : List Bool} {s t : State} :
    fetchesBins opc part done (bins ++ more) s = some t ↔
      ∃ u, fetchesBins opc part done bins s = some u ∧ fetchesBins opc part (done ++ bins) more u = some t := by
  induction bins generalizing done s with
  | nil => simp
  | cons b bins ih =>
    simp only [List.cons_append, fetchesBins_cons, ih]
    constructor
    · rintro ⟨s', h, u, h1, h2⟩
      exact ⟨u, ⟨s', h, h1⟩, by simpa using h2⟩
    · rintro ⟨u, ⟨s', h, h1⟩, h2⟩
      exact ⟨s', h, u, h1, by simpa using h2⟩

/-! ### The PREV field -/

theorem binsValue_ones (n : Nat) : binsValue (List.replicate n true) = 2 ^ n - 1 := by
  induction n with
  | zero => rfl
  | succ n ih =>
    have := Nat.one_le_two_pow (n := n)
    rw [List.replicate_succ, binsValue, ih, Nat.pow_succ]
    simp
    omega

/-- The PREV of a unary run is all ones (R133). -/
theorem prevOf_ones (n : Nat) : prevOf (List.replicate n true) = ones n := by
  rw [prevOf, ones, List.take_replicate, binsValue_ones, Nat.min_comm]

theorem binsValue_eq_msbValue (l : List Bool) : binsValue l = msbValue l.reverse := by
  induction l with
  | nil => rfl
  | cons b l ih =>
    rw [List.reverse_cons, msbValue_append, binsValue, ih, msbValue_cons]
    simp
    omega

/-! ### The unary loop -/

/-- A run of 1-bins below the maximum takes the loop as far on (R133). -/
theorem tuLoop_ones {opc : Opcode} {cMax : Option Nat} {part : Bool} (n room count : Nat) {s t : State}
    (h : fetchesBins opc part (List.replicate count true) (List.replicate n true) s = some t)
    (hmax : ∀ j < count + n, ¬ cMax.any (· ≤ j) = true) :
    tuLoop opc cMax part (room + n) count s = tuLoop opc cMax part room (count + n) t := by
  induction n generalizing count s with
  | zero => simp at h; rw [h]; rfl
  | succ n ih =>
    rw [List.replicate_succ, fetchesBins_cons] at h
    obtain ⟨s', h1, h2⟩ := h
    rw [List.length_replicate, prevOf_ones] at h1
    rw [← List.replicate_succ'] at h2
    rw [show room + (n + 1) = (room + n) + 1 by omega, tuLoop, if_neg (hmax count (by omega)), h1, bind_ok, if_pos rfl,
      ih (count + 1) h2 (fun j hj => hmax j (by omega)), show count + 1 + n = count + (n + 1) by omega]

/-- The unary loop stopped by a 0-bin (R133). -/
theorem tuCore_zero {opc : Opcode} {cMax : Option Nat} {part : Bool} {v : Nat} {s t : State} (hv : v < unaryCeil)
    (hmax : ∀ j ≤ v, ¬ cMax.any (· ≤ j) = true) (h : fetchesBins opc part [] (unaryBins v) s = some t) :
    tuCore opc cMax part s = .ok v t := by
  obtain ⟨u, h1, h2⟩ := fetchesBins_append.1 h
  obtain ⟨s', h3, h4⟩ := fetchesBins_cons.1 h2
  have hroom : unaryCeil = (unaryCeil - v - 1 + 1) + v := by omega
  rw [tuCore, hroom, tuLoop_ones v _ 0 (by simpa using h1) (fun j hj => hmax j (by omega)), tuLoop, Nat.zero_add,
    if_neg (hmax v (Nat.le_refl v))]
  rw [List.nil_append, List.length_replicate, prevOf_ones] at h3
  rw [h3, bind_ok]
  simpa using h4

/-- The unary loop stopped by its maximum (R133). -/
theorem tuCore_max {opc : Opcode} {part : Bool} {v : Nat} {s t : State} (hv : v ≤ unaryCeil)
    (h : fetchesBins opc part [] (List.replicate v true) s = some t) : tuCore opc (some v) part s = .ok v t := by
  have hroom : unaryCeil = (unaryCeil - v) + v := by omega
  rw [tuCore, hroom, tuLoop_ones v _ 0 (by simpa using h) (fun j hj => by simp; omega), Nat.zero_add]
  cases unaryCeil - v <;> simp [tuLoop]

/-- The unary loop stopped by the ceiling (R133). -/
theorem tuCore_ceiling {opc : Opcode} {cMax : Option Nat} {part : Bool} {s t : State}
    (hmax : ∀ j ≤ unaryCeil, ¬ cMax.any (· ≤ j) = true)
    (h : fetchesBins opc part [] (List.replicate unaryCeil true) s = some t) :
    tuCore opc cMax part s = .raise .unboundedLoopDetected t := by
  have e := tuLoop_ones (opc := opc) (cMax := cMax) (part := part) unaryCeil 0 0 (by simpa using h)
    (fun j hj => hmax j (by omega))
  rw [Nat.zero_add] at e
  rw [tuCore, e, tuLoop, if_neg (hmax _ (by omega))]

/-! ### The fixed-length loop -/

theorem flLoop_bins {opc : Opcode} {part : Bool} (bins done : List Bool) {s t : State}
    (h : fetchesBins opc part done bins s = some t) :
    flLoop opc part bins.length done s = .ok (binsValue (done ++ bins)) t := by
  induction bins generalizing done s with
  | nil => simp at h; simp [flLoop, h]
  | cons b bins ih =>
    obtain ⟨s', h1, h2⟩ := fetchesBins_cons.1 h
    rw [List.length_cons, flLoop, h1, bind_ok, ih (done ++ [b]) h2]
    simp

/-! ### The UEGk suffix -/

/-- The escape run of `n` 1-bins and a 0-bin (R137). -/
theorem escapeLoop_zero (n room kk suf : Nat) {s t : State} (hn : n < room)
    (h : decodesBins (List.replicate (n + 1) .byp) (List.replicate n true ++ [false]) s = some t) :
    escapeLoop room kk suf s = .ok (kk + n, suf + 2 ^ kk * (2 ^ n - 1)) t := by
  induction n generalizing room kk suf s with
  | zero =>
    obtain ⟨room, rfl⟩ : ∃ r, room = r + 1 := ⟨room - 1, by omega⟩
    obtain ⟨s', h1, h2⟩ := decodesBins_cons.1 h
    simp at h2
    rw [escapeLoop, h1, bind_ok]
    simp [h2]
  | succ n ih =>
    obtain ⟨room, rfl⟩ : ∃ r, room = r + 1 := ⟨room - 1, by omega⟩
    rw [List.replicate_succ (n := n + 1), List.replicate_succ (n := n) (a := true), List.cons_append] at h
    obtain ⟨s', h1, h2⟩ := decodesBins_cons.1 h
    rw [escapeLoop, h1, bind_ok, if_pos rfl, ih room (kk + 1) _ (by omega) h2]
    have h2n := Nat.one_le_two_pow (n := n)
    have e : suf + 2 ^ kk + 2 ^ (kk + 1) * (2 ^ n - 1) = suf + 2 ^ kk * (2 ^ (n + 1) - 1) := by
      obtain ⟨m, hm⟩ : ∃ m, 2 ^ n = m + 1 := ⟨2 ^ n - 1, by omega⟩
      rw [Nat.pow_succ, Nat.pow_succ, hm, Nat.add_sub_cancel, show (m + 1) * 2 - 1 = 2 * m + 1 by omega]
      ring
    rw [e, show kk + 1 + n = kk + (n + 1) by omega]

/-- The escape run that reaches its ceiling (R137). -/
theorem escapeLoop_ceiling (room kk suf : Nat) {s t : State}
    (h : decodesBins (List.replicate room .byp) (List.replicate room true) s = some t) :
    escapeLoop room kk suf s = .raise .unboundedLoopDetected t := by
  induction room generalizing kk suf s with
  | zero => simp at h; simp [escapeLoop, h]
  | succ n ih =>
    rw [List.replicate_succ, List.replicate_succ] at h
    obtain ⟨s', h1, h2⟩ := decodesBins_cons.1 h
    rw [escapeLoop, h1, bind_ok, if_pos rfl, ih _ _ h2]

/-- The verbatim bits of the suffix, most significant first (R137). -/
theorem verbatimLoop_bins (x : List Bool) (suf : Nat) {s t : State}
    (h : decodesBins (List.replicate x.length .byp) x s = some t) :
    verbatimLoop x.length suf s = .ok (suf + msbValue x) t := by
  induction x generalizing suf s with
  | nil => simp at h; simp [verbatimLoop, h]
  | cons b x ih =>
    rw [List.length_cons, List.replicate_succ] at h
    obtain ⟨s', h1, h2⟩ := decodesBins_cons.1 h
    rw [List.length_cons, verbatimLoop, h1, bind_ok, ih _ h2, msbValue_cons, Nat.add_assoc]

theorem decodesBins_append {kinds more : List BinKind} {bins tail : List Bool} (hl : kinds.length = bins.length)
    {s t : State} : decodesBins (kinds ++ more) (bins ++ tail) s = some t ↔
      ∃ u, decodesBins kinds bins s = some u ∧ decodesBins more tail u = some t := by
  induction kinds generalizing bins s with
  | nil =>
    obtain rfl : bins = [] := List.length_eq_zero_iff.1 hl.symm
    simp
  | cons k kinds ih =>
    cases bins with
    | nil => simp at hl
    | cons b bins =>
      simp only [List.cons_append, decodesBins_cons, ih (by simpa using hl)]
      constructor
      · rintro ⟨s', h, u, h1, h2⟩; exact ⟨u, ⟨s', h, h1⟩, h2⟩
      · rintro ⟨u, ⟨s', h, h1⟩, h2⟩; exact ⟨s', h, u, h1, h2⟩

/-! ### Trees -/

/-- The walk of a table along one of its codewords (R168, R170). -/
theorem runTree_codeword (t : BinTree) {v : Nat} {bins : List Bool} {kinds : List BinKind} {s u : State}
    (hw : (v, bins, kinds) ∈ codewords t) (h : decodesBins kinds bins s = some u) : runTree t s = .ok v u := by
  induction t generalizing v bins kinds s with
  | leaf x => simp [codewords] at hw; obtain ⟨rfl, rfl, rfl⟩ := hw; simp at h; simp [runTree, h]
  | node kind zero one ihz iho =>
    simp only [codewords, List.mem_append, List.mem_map] at hw
    obtain ⟨w, hw, e⟩ | ⟨w, hw, e⟩ := hw <;> cases e <;> obtain ⟨s', h1, h2⟩ := decodesBins_cons.1 h
    · rw [runTree, h1, bind_ok]; exact ihz hw h2
    · rw [runTree, h1, bind_ok]; exact iho hw h2

end Sys2Proof.Machine
end

