-- ==== Sys2Proof/Laws/Commands.lean ====
section
/-!
SUPPORT. Every command as one body run in the frame of R188, what the bodies may change, and the faults they can raise.
-/

namespace Sys2Proof.Machine

/-- The pseudocode of each command, as `exec` runs it. -/
def commandBody : Instr → State → Res Word
  | .ctxinit qp sel, s => .ok 0 (freshSlice qp sel s)
  | .align f, s => (alignLoop f 8 0 s).map (BitVec.ofNat 32)
  | .enginit, s => enginitBody s
  | .dec c, s => (decodeDecision c s).map bitWord
  | .byp, s => (decodeBypass s).map bitWord
  | .trm, s => (decodeTerminate s).map bitWord
  | .u, s => (tuCore 0x08#6 none false s).map natWord
  | .tu cmax, s => (tuCore 0x09#6 (some cmax.toNat) false s).map natWord
  | .fl cmax, s => (flCore 0x0A#6 cmax.toNat false s).map natWord
  | .uegk sgn k uc, s => ((uegMagnitude k.toNat uc.toNat s).bind fun v s' => uegSign sgn v s').map valueWord
  | .qpd, s => (tuCore 0x0C#6 none false s).map fun c => valueWord (qpDelta c)
  | .cbp cat, s => (flCore 0x0D#6 15 false s).bind fun luma s' =>
      (cbpChroma cat s').map fun chroma => natWord (luma + 16 * chroma)
  | .mbtI ia, s => treeBody (mbtITree ia) s
  | .mbtSI ia ib, s => treeBody (mbtSITree ia ib) s
  | .mbtP, s => treeBody mbtPTree s
  | .mbtB ia, s => treeBody (mbtBTree ia) s
  | .smbtP, s => treeBody smbtPTree s
  | .smbtB, s => treeBody smbtBTree s
  | .ctxrd c, s => .ok ((packCtx (s.ctxRead c)).setWidth 32) s
  | .statrd, s => .ok (statusWord s) s

/-- Every command is its body run in the frame of R188. -/
theorem exec_eq (i : Instr) (s : State) : exec i s = .next (runCommand i (commandBody i) s) := by
  cases i <;> rfl

theorem exec_next {i : Instr} {s t : State} : exec i s = .next t ↔ runCommand i (commandBody i) s = t := by
  rw [exec_eq]; constructor
  · intro h; cases h; rfl
  · intro h; rw [h]

/-- A command that executes normally is its body and the command's end. -/
theorem exec_ready {i : Instr} {s : State} (h : Ready i s) : exec i s = .next (finish (commandBody i s)) := by
  rw [exec_eq, runCommand_ready h]

/-- When a command executes normally: with no fault pending, well formed, and in its row of R188's table. -/
theorem ready_of {i : Instr} {s : State} (hf : s.FAULT = .none) (hw : i.wellFormed = true)
    (hp : precondition i s = true) : Ready i s :=
  ⟨by simp [isRefused, hf], hw, hp⟩

/-- Everything `exec` can do (R187, R188). -/
theorem exec_cases {i : Instr} {s t : State} (h : exec i s = .next t) :
    (isRefused (opcode i) s = true ∧ t = refuse s) ∨
    (isRefused (opcode i) s = false ∧ (i.wellFormed = false ∨ precondition i s = false) ∧
      t = enterFault .invalidDerivationRequest s) ∨
    (Ready i s ∧ t = finish (commandBody i s)) := by
  rw [exec_next] at h
  obtain ⟨h1, e⟩ | ⟨h1, h2, e⟩ | ⟨h1, e⟩ := runCommand_cases i (commandBody i) s <;> rw [e] at h
  · exact .inl ⟨h1, h.symm⟩
  · exact .inr (.inl ⟨h1, h2, h.symm⟩)
  · exact .inr (.inr ⟨h1, h.symm⟩)

/-! ### What a body may change -/

/-- The contexts of each table are those R61 lists for its command. -/
theorem treeContexts_own (i : Instr) (t : BinTree)
    (h : (∃ a, i = .mbtI a ∧ t = mbtITree a) ∨ (∃ a b, i = .mbtSI a b ∧ t = mbtSITree a b) ∨ (i = .mbtP ∧ t = mbtPTree) ∨
      (∃ a, i = .mbtB a ∧ t = mbtBTree a) ∨ (i = .smbtP ∧ t = smbtPTree) ∨ (i = .smbtB ∧ t = smbtBTree)) :
    ∀ c ∈ treeContexts t, c ∈ ownContexts i := by
  intro c hc
  obtain ⟨a, rfl, rfl⟩ | ⟨a, b, rfl, rfl⟩ | ⟨rfl, rfl⟩ | ⟨a, rfl, rfl⟩ | ⟨rfl, rfl⟩ | ⟨rfl, rfl⟩ := h <;>
    simp [mbtITree, mbtSITree, mbtPTree, mbtBTree, mbtBGroup, smbtPTree, smbtBTree, iTree, i16Tree, iTreeKinds, groupTree,
      mapTree, decAt, treeContexts, ctxIdxOf, ownContexts] at hc ⊢ <;> grind

/-- Every body but CTXINIT's, ENGINIT's and ALIGN's stays within the frame of the command's own contexts. -/
theorem commandBody_frame {i : Instr} (h1 : ∀ qp sel, i ≠ .ctxinit qp sel) (h2 : i ≠ .enginit)
    (h3 : ∀ f, i ≠ .align f) {s : State} (hp : precondition i s = true) : BinFrame (ownContexts i) s (commandBody i s).state := by
  cases i with
  | ctxinit qp sel => exact absurd rfl (h1 qp sel)
  | enginit => exact absurd rfl h2
  | align f => exact absurd rfl (h3 f)
  | dec c => rw [commandBody, state_map]; exact decodeDecision_frame (by simp [ownContexts]) s
  | byp => rw [commandBody, state_map]; exact decodeBypass_frame _ s
  | trm =>
    rw [commandBody, state_map]
    exact decodeTerminate_frame _ ((engActive_iff s).1 (by simpa [precondition] using hp))
  | u => rw [commandBody, state_map]; exact tuCore_frame _ _ _ _ s
  | tu c => rw [commandBody, state_map]; exact tuCore_frame _ _ _ _ s
  | fl c => rw [commandBody, state_map]; exact flLoop_frame _ _ _ _ _ s
  | uegk g k c =>
    rw [commandBody, state_map]
    exact BinFrame.bind (uegMagnitude_frame _ _ _ s) fun v s' _ => uegSign_frame _ _ _ s'
  | qpd => rw [commandBody, state_map]; exact tuCore_frame _ _ _ _ s
  | cbp c =>
    rw [commandBody]
    refine BinFrame.bind (flLoop_frame _ _ _ _ _ s) fun v s' _ => ?_
    rw [state_map]
    exact cbpChroma_frame _ _ s'
  | mbtI a => rw [commandBody, treeBody, state_map]; exact (runTree_frame _ s).mono (treeContexts_own _ _ (by simp))
  | mbtSI a b => rw [commandBody, treeBody, state_map]; exact (runTree_frame _ s).mono (treeContexts_own _ _ (by simp))
  | mbtP => rw [commandBody, treeBody, state_map]; exact (runTree_frame _ s).mono (treeContexts_own _ _ (by simp))
  | mbtB a => rw [commandBody, treeBody, state_map]; exact (runTree_frame _ s).mono (treeContexts_own _ _ (by simp))
  | smbtP => rw [commandBody, treeBody, state_map]; exact (runTree_frame _ s).mono (treeContexts_own _ _ (by simp))
  | smbtB => rw [commandBody, treeBody, state_map]; exact (runTree_frame _ s).mono (treeContexts_own _ _ (by simp))
  | ctxrd c => exact .refl _ s
  | statrd => exact .refl _ s

/-- Everything ENGINIT's pseudocode can do (R100). -/
theorem enginitBody_cases (s : State) :
    (∃ v t, readBits 9 0 s = .ok v t ∧ 510 ≤ v ∧ enginitBody s = .raise .structuralViolation t) ∨
    (∃ v t, readBits 9 0 s = .ok v t ∧ v < 510 ∧ enginitBody s = .ok 0 ((t.setEngine 510 v).setEngState .active)) ∨
    (∃ f t, readBits 9 0 s = .raise f t ∧ enginitBody s = .raise f t) ∨
    (∃ p t, readBits 9 0 s = .wait p t ∧ enginitBody s = .wait p t) := by
  unfold enginitBody
  cases h : readBits 9 0 s with
  | ok v t =>
    by_cases hv : 510 ≤ v
    · exact .inl ⟨v, t, rfl, hv, by simp [hv]⟩
    · exact .inr (.inl ⟨v, t, rfl, by omega, by simp [hv]⟩)
  | raise f t => exact .inr (.inr (.inl ⟨f, t, rfl, rfl⟩))
  | wait p t => exact .inr (.inr (.inr ⟨p, t, rfl, rfl⟩))

/-- ALIGN's body moves the bit port alone (R101). -/
theorem alignBody_bitPort (f : Bool) (s : State) : BitPortOnly s (commandBody (.align f) s).state := by
  rw [commandBody, state_map]
  exact alignLoop_bitPort f 8 0 s

/-- What no body changes, whatever the command: the bits are taken from the front and counted, and the ROM, the end of the bits,
the words to come, the responses, and the count of free values stand; only ALIGN asks `aligned?`. -/
theorem commandBody_outside {i : Instr} {s : State} (hp : precondition i s = true) :
    (∃ taken, s.bits = taken ++ (commandBody i s).state.bits ∧ (commandBody i s).state.pos = s.pos + taken.length) ∧
    (commandBody i s).state.rom = s.rom ∧ (commandBody i s).state.bitEnd = s.bitEnd ∧
    (commandBody i s).state.cmds = s.cmds ∧ (commandBody i s).state.rsps = s.rsps ∧
    (commandBody i s).state.rspHeld = s.rspHeld ∧ (commandBody i s).state.wait = s.wait ∧
    (commandBody i s).state.freeCount = s.freeCount ∧
    ((∀ f, i ≠ .align f) → (commandBody i s).state.alignsLeft = s.alignsLeft) := by
  by_cases h1 : ∃ qp sel, i = .ctxinit qp sel
  · obtain ⟨qp, sel, rfl⟩ := h1
    exact ⟨⟨[], rfl, rfl⟩, rfl, rfl, rfl, rfl, rfl, rfl, rfl, fun _ => rfl⟩
  by_cases h2 : i = .enginit
  · subst h2
    have h := readBits_frame [] 9 0 s
    rw [commandBody]
    obtain ⟨v, t, e, -, e'⟩ | ⟨v, t, e, -, e'⟩ | ⟨f, t, e, e'⟩ | ⟨p, t, e, e'⟩ := enginitBody_cases s <;> rw [e] at h <;>
      rw [e'] <;> exact ⟨h.bits, h.rom, h.bitEnd, h.cmds, h.rsps, h.rspHeld, h.wait, h.freeCount, fun _ => h.alignsLeft⟩
  by_cases h3 : ∃ f, i = .align f
  · obtain ⟨f, rfl⟩ := h3
    obtain ⟨taken, asked, hb, e⟩ := alignBody_bitPort f s
    refine ⟨⟨taken, hb, by rw [e]⟩, ?_, ?_, ?_, ?_, ?_, ?_, ?_, fun h => absurd rfl (h f)⟩ <;> rw [e]
  · have h := commandBody_frame (fun qp sel e => h1 ⟨qp, sel, e⟩) h2 (fun f e => h3 ⟨f, e⟩) hp
    exact ⟨h.bits, h.rom, h.bitEnd, h.cmds, h.rsps, h.rspHeld, h.wait, h.freeCount, fun _ => h.alignsLeft⟩

/-! ### The faults a body can raise -/

/-- Every fault a piece of a command raises, with the state at that point, is one that `P` allows. -/
def Raises {α : Type} (P : FaultCode → State → Prop) (r : Res α) : Prop := ∀ f t, r = .raise f t → P f t

theorem Raises.ok {α : Type} {P : FaultCode → State → Prop} {a : α} {s : State} : Raises P (Res.ok a s) := by
  intro f t h; cases h

theorem Raises.wait {α : Type} {P : FaultCode → State → Prop} {p : Port} {s : State} :
    Raises P (Res.wait (α := α) p s) := by
  intro f t h; cases h

theorem Raises.raise {α : Type} {P : FaultCode → State → Prop} {f : FaultCode} {s : State} (h : P f s) :
    Raises P (Res.raise (α := α) f s) := by
  intro g t e; cases e; exact h

theorem Raises.bind {α β : Type} {P : FaultCode → State → Prop} {r : Res α} {k : α → State → Res β} (h : Raises P r)
    (hk : ∀ a s, Raises P (k a s)) : Raises P (r.bind k) := by
  intro f t e
  obtain e | ⟨a, s, -, e⟩ := bind_eq_raise.1 e
  · exact h f t e
  · exact hk a s f t e

theorem Raises.map {α β : Type} {P : FaultCode → State → Prop} {r : Res α} {g : α → β} (h : Raises P r) :
    Raises P (r.map g) := h.bind fun _ _ => .ok

theorem Raises.mono {α : Type} {P Q : FaultCode → State → Prop} {r : Res α} (h : Raises P r)
    (hpq : ∀ f t, P f t → Q f t) : Raises Q r := fun f t e => hpq f t (h f t e)

/-- The end of the bits (R181): the bit source has delivered its last bit and answers EXHAUSTED. -/
def StreamEnd (f : FaultCode) (t : State) : Prop := f = .streamExhaustion ∧ t.bits = [] ∧ t.bitEnd = .exhausted

/-- The faults of a bin (R132): the end of the bits, or a contract violation by the host. -/
def BinFault (f : FaultCode) (t : State) : Prop := StreamEnd f t ∨ f = .invalidDerivationRequest

/-- The faults of a run of bins: those of a bin, and the ceiling of a loop (R133, R137). -/
def RunFault (f : FaultCode) (t : State) : Prop := BinFault f t ∨ f = .unboundedLoopDetected

theorem readBit_raises (s : State) : Raises StreamEnd (readBit s) := by
  obtain ⟨b, rest, -, e⟩ | ⟨hb, he, e⟩ | ⟨-, -, e⟩ := readBit_cases s <;> rw [e]
  · exact .ok
  · exact .raise ⟨rfl, hb, he⟩
  · exact .wait

theorem readBits_raises (n v : Nat) (s : State) : Raises StreamEnd (readBits n v s) := by
  induction n generalizing v s with
  | zero => exact .ok
  | succ n ih => exact (readBit_raises s).bind fun b s' => ih _ s'

theorem renormLoop_raises (fuel : Nat) (s : State) : Raises StreamEnd (renormLoop fuel s) := by
  induction fuel generalizing s with
  | zero => exact .ok
  | succ n ih =>
    unfold renormLoop
    split
    · exact (readBit_raises _).bind fun b s' => ih _
    · exact .ok

theorem decodeBin_raises (kind : BinKind) (s : State) : Raises StreamEnd (decodeBin kind s) := by
  cases kind with
  | dec c => exact (renormLoop_raises _ _).map
  | byp =>
    refine (readBit_raises s).bind fun b s' => ?_
    dsimp only
    split <;> exact .ok
  | trm =>
    simp only [decodeBin, decodeTerminate]
    split
    · exact .ok
    · exact (renormLoop_raises _ _).map

theorem binOf_raises (kind : BinKind) (s : State) : Raises BinFault (binOf kind s) := by
  unfold binOf
  split
  · exact (decodeBin_raises kind s).mono fun _ _ => .inl
  · exact .raise (.inr rfl)

theorem fetchBin_raises (opc : Opcode) (part : Bool) (n : Nat) (prev : BitVec 16) (s : State) :
    Raises BinFault (fetchBin opc part n prev s) := by
  refine Raises.bind ?_ fun a s' => ?_
  · obtain ⟨a, rest, -, e⟩ | ⟨-, e⟩ := csel_cases opc part n prev s <;> rw [e]
    · exact .ok
    · exact .wait
  · split
    · exact .raise (.inr rfl)
    · exact binOf_raises _ s'

theorem tuLoop_raises (opc : Opcode) (cMax : Option Nat) (part : Bool) (room count : Nat) (s : State) :
    Raises RunFault (tuLoop opc cMax part room count s) := by
  induction room generalizing count s with
  | zero =>
    unfold tuLoop
    split
    · exact .ok
    · exact .raise (.inr rfl)
  | succ n ih =>
    unfold tuLoop
    split
    · exact .ok
    · refine ((fetchBin_raises opc part _ _ s).mono fun _ _ => .inl).bind fun b s' => ?_
      split
      · exact ih _ s'
      · exact .ok

/-- A unary part with a maximum below the ceiling never reaches the ceiling (R133). -/
theorem tuLoop_raises_bounded (opc : Opcode) {cMax : Nat} (part : Bool) (room count : Nat) (s : State)
    (h : cMax ≤ count + room) : Raises BinFault (tuLoop opc (some cMax) part room count s) := by
  induction room generalizing count s with
  | zero =>
    unfold tuLoop
    rw [if_pos (by simpa using h)]
    exact .ok
  | succ n ih =>
    unfold tuLoop
    split
    · exact .ok
    · refine (fetchBin_raises opc part _ _ s).bind fun b s' => ?_
      split
      · exact ih _ s' (by omega)
      · exact .ok

theorem flLoop_raises (opc : Opcode) (part : Bool) (n : Nat) (bins : List Bool) (s : State) :
    Raises BinFault (flLoop opc part n bins s) := by
  induction n generalizing bins s with
  | zero => exact .ok
  | succ n ih => exact (fetchBin_raises opc part _ _ s).bind fun b s' => ih _ s'

theorem escapeLoop_raises (room kk suf : Nat) (s : State) : Raises RunFault (escapeLoop room kk suf s) := by
  induction room generalizing kk suf s with
  | zero => exact .raise (.inr rfl)
  | succ n ih =>
    refine ((binOf_raises .byp s).mono fun _ _ => .inl).bind fun b s' => ?_
    split
    · exact ih _ _ s'
    · exact .ok

theorem verbatimLoop_raises (kk suf : Nat) (s : State) : Raises BinFault (verbatimLoop kk suf s) := by
  induction kk generalizing suf s with
  | zero => exact .ok
  | succ n ih => exact (binOf_raises .byp s).bind fun b s' => ih _ s'

theorem uegMagnitude_raises (k uc : Nat) (s : State) : Raises RunFault (uegMagnitude k uc s) := by
  refine (tuLoop_raises _ _ _ _ _ s).bind fun v s' => ?_
  split
  · exact ((escapeLoop_raises _ _ _ s').bind fun e s'' =>
      (verbatimLoop_raises _ _ s'').mono fun _ _ => .inl).map
  · exact .ok

theorem uegSign_raises (sgn : Bool) (v : Nat) (s : State) : Raises BinFault (uegSign sgn v s) := by
  unfold uegSign
  split
  · exact (binOf_raises .byp s).map
  · exact .ok

theorem cbpChroma_raises (cat : BitVec 2) (s : State) : Raises BinFault (cbpChroma cat s) := by
  unfold cbpChroma
  split
  · exact tuLoop_raises_bounded _ _ _ _ s (by decide)
  · exact .ok

theorem runTree_raises (t : BinTree) (s : State) : Raises BinFault (runTree t s) := by
  induction t generalizing s with
  | leaf v => exact .ok
  | node kind zero one ihz iho =>
    refine (binOf_raises kind s).bind fun b s' => ?_
    split
    · exact iho s'
    · exact ihz s'

theorem alignLoop_raises (f : Bool) (fuel n : Nat) (s : State) :
    Raises (fun g t => StreamEnd g t ∨ g = .structuralViolation) (alignLoop f fuel n s) := by
  induction fuel generalizing n s with
  | zero => exact .ok
  | succ k ih =>
    refine Raises.bind ?_ fun a s1 => ?_
    · obtain ⟨-, e⟩ | ⟨-, e⟩ := askAligned_cases s <;> rw [e]
      · exact .wait
      · exact .ok
    split
    · exact .ok
    · refine ((readBit_raises s1).mono fun _ _ => .inl).bind fun b s2 => ?_
      split
      · exact ih _ s2
      · exact .raise (.inr rfl)

/-- The faults each body can raise (R181 to R185). -/
def bodyFaults : Instr → FaultCode → State → Prop
  | .ctxinit _ _, _, _ => False
  | .align _, g, t => StreamEnd g t ∨ g = .structuralViolation
  | .enginit, g, t => StreamEnd g t ∨ g = .structuralViolation
  | .dec _, g, t => StreamEnd g t
  | .byp, g, t => StreamEnd g t
  | .trm, g, t => StreamEnd g t
  | .u, g, t => RunFault g t
  | .tu cmax, g, t => BinFault g t ∨ (10000 < cmax.toNat ∧ g = .unboundedLoopDetected)
  | .fl _, g, t => BinFault g t
  | .uegk _ _ _, g, t => RunFault g t
  | .qpd, g, t => RunFault g t
  | .cbp _, g, t => BinFault g t
  | .mbtI _, g, t => BinFault g t
  | .mbtSI _ _, g, t => BinFault g t
  | .mbtP, g, t => BinFault g t
  | .mbtB _, g, t => BinFault g t
  | .smbtP, g, t => BinFault g t
  | .smbtB, g, t => BinFault g t
  | .ctxrd _, _, _ => False
  | .statrd, _, _ => False

theorem commandBody_raises (i : Instr) (s : State) : Raises (bodyFaults i) (commandBody i s) := by
  cases i with
  | ctxinit qp sel => exact .ok
  | align f => exact (alignLoop_raises _ _ _ s).map
  | enginit =>
    refine ((readBits_raises 9 0 s).mono fun _ _ => .inl).bind fun v s' => ?_
    split
    · exact .raise (.inr rfl)
    · exact .ok
  | dec c => exact (decodeBin_raises (.dec c) s).map
  | byp => exact (decodeBin_raises .byp s).map
  | trm => exact (decodeBin_raises .trm s).map
  | u => exact (tuLoop_raises _ _ _ _ _ s).map
  | tu cmax =>
    by_cases h : 10000 < cmax.toNat
    · exact ((tuLoop_raises _ _ _ _ _ s).map).mono fun f t hf => hf.imp id fun e => ⟨h, e⟩
    · exact ((tuLoop_raises_bounded _ _ _ _ s (by rw [unaryCeil]; omega)).map).mono fun f t hf => .inl hf
  | fl cmax => exact (flLoop_raises _ _ _ _ s).map
  | uegk sgn k uc =>
    exact ((uegMagnitude_raises _ _ s).bind fun v s' => (uegSign_raises sgn v s').mono fun _ _ => .inl).map
  | qpd => exact (tuLoop_raises _ _ _ _ _ s).map
  | cbp cat => exact (flLoop_raises _ _ _ _ s).bind fun luma s' => (cbpChroma_raises cat s').map
  | mbtI a => exact (runTree_raises _ s).map
  | mbtSI a b => exact (runTree_raises _ s).map
  | mbtP => exact (runTree_raises _ s).map
  | mbtB a => exact (runTree_raises _ s).map
  | smbtP => exact (runTree_raises _ s).map
  | smbtB => exact (runTree_raises _ s).map
  | ctxrd c => exact .ok
  | statrd => exact .ok

end Sys2Proof.Machine
end

