-- ==== Sys2Proof/Laws/Decode.lean ====
section
/-!
SUPPORT. One lemma per check of the decoder that says everything the check lets through, and the opcode of a decoded command.
-/

namespace Sys2Proof

theorem checkReserved_ok {n : Nat} {resv : BitVec n} {i j : Instr} (h : checkReserved resv i = .ok j) :
    resv = 0#n ∧ i = j := by
  unfold checkReserved at h
  split at h
  · exact ⟨‹_›, by cases h; rfl⟩
  · cases h

theorem checkIncrement_ok {n : Nat} {resv : BitVec n} {i j : Instr}
    (h : (checkReserved resv i).bind checkIncrement = .ok j) : resv = 0#n ∧ i = j ∧ j.wellFormed = true := by
  unfold checkReserved at h
  split at h
  · simp only [Except.bind, checkIncrement] at h
    split at h
    · cases h; exact ⟨‹_›, rfl, ‹_›⟩
    · cases h
  · cases h

/-- A decoded command has its word's opcode field (R70, R74). -/
theorem opcode_of_decode {w : Word} {i : Instr} (h : decode w = .ok i) : opcode i = opcodeField w := by
  have hlt := (opcodeField w).isLt
  generalize ho : (opcodeField w).toNat = n at hlt
  have e : opcodeField w = BitVec.ofNat 6 n := by rw [← ho]; simp
  unfold decode at h
  rw [ho] at h
  rw [e]
  interval_cases n <;> first
    | cases h
    | (obtain ⟨-, rfl⟩ := checkReserved_ok h; rfl)
    | (obtain ⟨-, rfl, -⟩ := checkIncrement_ok h; rfl)

end Sys2Proof
end

