-- ==== Sys2Proof/Laws/PerInstr.lean ====
section
/-!
SUPPORT. One law per command about its encoding: the family RowMatch says that a command's word carries its row's match value under
its row's mask (R74), so that the operand fields lie outside the mask.
-/

namespace Sys2Proof.Laws.RowMatch

/-- The word of the command, masked by its row's mask, is the row's match value: its opcode in bits [31:26] and 0 in every reserved
bit (R74). -/
def Statement (i : Instr) : Prop := encode i &&& rowMask i = place (opcode i) 26

theorem ctxinit (qp : BitVec 7) (sel : BitVec 2) : Statement (.ctxinit qp sel) := by
  apply BitVec.eq_of_getLsbD_eq
  intro j hj
  interval_cases j <;> simp [encode, rowMask, opcode, place]

theorem align (f : Bool) : Statement (.align f) := by
  cases f <;> unfold Statement <;> decide

theorem enginit : Statement .enginit := by unfold Statement; decide

theorem dec (ctx : CtxIdx) : Statement (.dec ctx) := by
  apply BitVec.eq_of_getLsbD_eq
  intro j hj
  interval_cases j <;> simp [encode, rowMask, opcode, place]

theorem byp : Statement .byp := by unfold Statement; decide

theorem trm : Statement .trm := by unfold Statement; decide

theorem u : Statement .u := by unfold Statement; decide

theorem tu (cmax : BitVec 16) : Statement (.tu cmax) := by
  apply BitVec.eq_of_getLsbD_eq
  intro j hj
  interval_cases j <;> simp [encode, rowMask, opcode, place]

theorem fl (cmax : BitVec 16) : Statement (.fl cmax) := by
  apply BitVec.eq_of_getLsbD_eq
  intro j hj
  interval_cases j <;> simp [encode, rowMask, opcode, place]

theorem uegk (sgn : Bool) (k : BitVec 4) (uc : BitVec 8) : Statement (.uegk sgn k uc) := by
  apply BitVec.eq_of_getLsbD_eq
  intro j hj
  interval_cases j <;> cases sgn <;> simp [encode, rowMask, opcode, place, placeBit]

theorem qpd : Statement .qpd := by unfold Statement; decide

theorem cbp (cat : BitVec 2) : Statement (.cbp cat) := by
  revert cat; unfold Statement; decide

theorem mbtI (ia : BitVec 2) : Statement (.mbtI ia) := by
  revert ia; unfold Statement; decide

theorem mbtSI (ia ib : BitVec 2) : Statement (.mbtSI ia ib) := by
  revert ia ib; unfold Statement; decide

theorem mbtP : Statement .mbtP := by unfold Statement; decide

theorem mbtB (ia : BitVec 2) : Statement (.mbtB ia) := by
  revert ia; unfold Statement; decide

theorem smbtP : Statement .smbtP := by unfold Statement; decide

theorem smbtB : Statement .smbtB := by unfold Statement; decide

theorem ctxrd (ctx : CtxIdx) : Statement (.ctxrd ctx) := by
  apply BitVec.eq_of_getLsbD_eq
  intro j hj
  interval_cases j <;> simp [encode, rowMask, opcode, place]

theorem statrd : Statement .statrd := by unfold Statement; decide

end Sys2Proof.Laws.RowMatch
end

