-- ==== Sys2Proof/Laws/Quiet.lean ====
section
/-!
SUPPORT. The pieces of a command that carry no CSEL traffic: they wait on the bit port alone. And that a bin completes from the
bounds of R29 and the seven bits a bin can need (R105).
-/

namespace Sys2Proof.Machine

/-- A piece of a command sends no CSEL request, takes no answer, and waits on no port but the bit port. -/
def Quiet {α : Type} (s : State) (r : Res α) : Prop :=
  r.state.cselAns = s.cselAns ∧ r.state.cselReqs = s.cselReqs ∧ ∀ p t, r = .wait p t → p = .bit

theorem Quiet.ok {α : Type} {s t : State} {a : α} (h1 : t.cselAns = s.cselAns) (h2 : t.cselReqs = s.cselReqs) :
    Quiet s (.ok a t) := ⟨h1, h2, fun _ _ e => by cases e⟩

theorem Quiet.raise {α : Type} {s : State} {f : FaultCode} : Quiet s (Res.raise (α := α) f s) :=
  ⟨rfl, rfl, fun _ _ e => by cases e⟩

theorem Quiet.bind {α β : Type} {s : State} {r : Res α} {k : α → State → Res β} (h : Quiet s r)
    (hk : ∀ a s', r = .ok a s' → Quiet s' (k a s')) : Quiet s (r.bind k) := by
  cases r with
  | ok a s' =>
    obtain ⟨a1, a2, a3⟩ := hk a s' rfl
    exact ⟨a1.trans h.1, a2.trans h.2.1, a3⟩
  | raise f s' => exact ⟨h.1, h.2.1, fun p t e => by cases e⟩
  | wait p s' => exact ⟨h.1, h.2.1, fun p t e => by cases e; exact h.2.2 _ _ rfl⟩

theorem Quiet.map {α β : Type} {s : State} {r : Res α} {g : α → β} (h : Quiet s r) : Quiet s (r.map g) :=
  h.bind fun _ _ _ => .ok rfl rfl

/-- The same from another state with the same CSEL traffic. -/
theorem Quiet.congr {α : Type} {s s' : State} {r : Res α} (h : Quiet s' r) (h1 : s'.cselAns = s.cselAns)
    (h2 : s'.cselReqs = s.cselReqs) : Quiet s r := ⟨h.1.trans h1, h.2.1.trans h2, h.2.2⟩

theorem readBit_quiet (s : State) : Quiet s (readBit s) := by
  obtain ⟨b, rest, -, e⟩ | ⟨-, -, e⟩ | ⟨-, -, e⟩ := readBit_cases s <;> rw [e]
  · exact .ok rfl rfl
  · exact .raise
  · exact ⟨rfl, rfl, fun p t e => by cases e; rfl⟩

theorem readBits_quiet (n v : Nat) (s : State) : Quiet s (readBits n v s) := by
  induction n generalizing v s with
  | zero => exact .ok rfl rfl
  | succ n ih => exact (readBit_quiet s).bind fun b s' _ => ih _ s'

theorem renormLoop_quiet (fuel : Nat) (s : State) : Quiet s (renormLoop fuel s) := by
  induction fuel generalizing s with
  | zero => exact .ok rfl rfl
  | succ n ih =>
    unfold renormLoop
    split
    · exact ((readBit_quiet _).congr rfl rfl).bind fun b s' _ => (ih _).congr rfl rfl
    · exact .ok rfl rfl

theorem decodeBin_quiet (kind : BinKind) (s : State) : Quiet s (decodeBin kind s) := by
  cases kind with
  | dec c => exact ((renormLoop_quiet _ _).congr rfl rfl).map
  | byp =>
    refine (readBit_quiet s).bind fun b s' _ => ?_
    dsimp only
    split <;> exact .ok rfl rfl
  | trm =>
    simp only [decodeBin, decodeTerminate]
    split
    · exact .ok rfl rfl
    · exact ((renormLoop_quiet _ _).congr rfl rfl).map

theorem binOf_quiet (kind : BinKind) (s : State) : Quiet s (binOf kind s) := by
  unfold binOf
  split
  · exact decodeBin_quiet kind s
  · exact .raise

theorem runTree_quiet (t : BinTree) (s : State) : Quiet s (runTree t s) := by
  induction t generalizing s with
  | leaf v => exact .ok rfl rfl
  | node kind zero one ihz iho =>
    refine (binOf_quiet kind s).bind fun b s' _ => ?_
    split
    · exact iho s'
    · exact ihz s'

theorem askAligned_quiet (s : State) : Quiet s (askAligned s) := by
  obtain ⟨-, e⟩ | ⟨-, e⟩ := askAligned_cases s <;> rw [e]
  · exact ⟨rfl, rfl, fun p t e => by cases e; rfl⟩
  · exact .ok rfl rfl

theorem alignLoop_quiet (f : Bool) (fuel n : Nat) (s : State) : Quiet s (alignLoop f fuel n s) := by
  induction fuel generalizing n s with
  | zero => exact .ok rfl rfl
  | succ k ih =>
    refine (askAligned_quiet s).bind fun a s1 _ => ?_
    split
    · exact .ok rfl rfl
    · refine (readBit_quiet s1).bind fun b s2 _ => ?_
      split
      · exact ih _ s2
      · exact .raise

/-! ### A bin completes -/

/-- No bin needs more than seven doublings (R105). -/
theorem renormShift_le {r : Nat} (h : 2 ≤ r) : renormShift r ≤ 7 := by
  unfold renormShift
  split
  · omega
  · have := (Nat.le_log2 (k := 1) (n := r) (by omega)).2 (by omega)
    omega

theorem renormD_completes {s : State} (h2 : 2 ≤ s.codIRange.toNat) (h3 : s.codIOffset.toNat < s.codIRange.toNat)
    (hb : 7 ≤ s.bits.length) : ∃ t, renormD s = .ok () t ∧ s.bits.length ≤ t.bits.length + 7 := by
  have := renormShift_le h2
  refine ⟨_, renormD_eq (by omega) h3 (by omega), ?_⟩
  simp [renormed]
  omega

/-- From the bounds of R29 and seven bits, every bin completes (R105). -/
theorem binOf_completes {kind : BinKind} {s : State} (hA : ActiveOk s) (hb : 7 ≤ s.bits.length) :
    ∃ b t, binOf kind s = .ok b t ∧ s.bits.length ≤ t.bits.length + 7 := by
  rw [binOf, if_pos ((engActive_iff s).2 hA.1)]
  cases kind with
  | dec c =>
    have hd := decisionSplit_bounds (s.ctxRead c) hA
    simp only [decodeBin, decodeDecision]
    generalize decisionSplit (s.ctxRead c) s.codIRange s.codIOffset = d at *
    obtain ⟨t, e, h⟩ := renormD_completes (s := (s.setEngine d.2.1 d.2.2).ctxWrite c (applyBin (s.ctxRead c) d.1))
      (by simp; omega) (by simp; omega) (by simpa)
    rw [e]
    exact ⟨_, _, rfl, by simpa using h⟩
  | byp =>
    cases hbits : s.bits with
    | nil => simp [hbits] at hb
    | cons b rest =>
      simp only [decodeBin, decodeBypass, readBit_cons hbits, bind_ok]
      split <;> exact ⟨_, _, rfl, by simp⟩
  | trm =>
    obtain ⟨h0, h1, h2, h3⟩ := hA
    simp only [decodeBin, decodeTerminate]
    split
    · exact ⟨_, _, rfl, by simp⟩
    · obtain ⟨t, e, h⟩ := renormD_completes (s := s.setRange (s.codIRange.toNat - 2)) (by simp; omega) (by simp; omega)
        (by simpa)
      rw [e]
      exact ⟨_, _, rfl, by simpa using h⟩

/-- From the bounds of R29, seven bits and an answer of kind DEC or BYP, a bin asked for over CSEL completes, ACTIVE. -/
theorem fetchBin_completes {opc : Opcode} {part : Bool} {n : Nat} {prev : BitVec 16} {s : State} {a : CselAnswer}
    {rest : List CselAnswer} (hA : ActiveOk s) (hb : 7 ≤ s.bits.length) (ha : s.cselAns = a :: rest)
    (hk : answerKind a = some .byp ∨ ∃ c, answerKind a = some (.dec c)) :
    ∃ b t, fetchBin opc part n prev s = .ok b t ∧ ActiveOk t ∧ s.bits.length ≤ t.bits.length + 7 ∧ t.cselAns = rest := by
  obtain ⟨kind, hk, hne⟩ : ∃ k, answerKind a = some k ∧ k ≠ .trm := by
    rcases hk with h | ⟨c, h⟩ <;> exact ⟨_, h, by simp⟩
  have hA' : ActiveOk ((s.sendRequest (cselRequest opc part n prev)).takeAnswer rest) := hA
  obtain ⟨b, t, e, hl⟩ := binOf_completes (kind := kind) hA' hb
  have hq := binOf_quiet kind ((s.sendRequest (cselRequest opc part n prev)).takeAnswer rest)
  rw [e] at hq
  exact ⟨b, t, by simp [fetchBin, csel, ha, hk, e], (binOf_ok hA' e).resolve_right (by simp [hne]), hl, hq.1⟩

end Sys2Proof.Machine
end

