-- ==== Sys2Proof/Machine/Pseudo.lean ====
section
/-!
DEFINITION. The pseudo-instructions of the assembler and their expansions into commands (R81).
-/

namespace Sys2Proof.Machine

/-- `slicestart QP, SEL`: the start of CABAC slice data (R81, R212). -/
def slicestart (qp : BitVec 7) (sel : BitVec 2) : List Instr := [.ctxinit qp sel, .align true, .enginit]

/-- `pcmresume`: re-prime the engine after I_PCM samples (R81, R213). -/
def pcmresume : List Instr := [.enginit]

/-- `eos`: end_of_slice_flag (R81, R214). -/
def eos : List Instr := [.trm]

/-- `flag C`: a one-bin flag on ctxIdx C (R81). -/
def flag (c : CtxIdx) : List Instr := [.dec c]

/-- `sign`: a bypass sign bin (R81). -/
def sign : List Instr := [.byp]

/-- `mvd`: a motion-vector difference, k = 3 and uCoff = 9 (R81). -/
def mvd : List Instr := [.uegk true 3#4 9#8]

/-- `cal1`: coeff_abs_level_minus1, k = 0 and uCoff = 14 (R81). -/
def cal1 : List Instr := [.uegk false 0#4 14#8]

end Sys2Proof.Machine
end

