-- ==== Sys2Proof/Tests/Slice0.lean ====
section
/-!
SUPPORT. Tests. First the model against the spec: words written from R71 and R74, the codeword tables of 43_mbtype_trees.md, and vectors
of 95_test_vectors.md (named V<n> after them), each about one step on a small state. Then, for every obligation with
hypotheses, a state and operands that meet them (test_meets_...), at the boundary of each clause's range.
-/

namespace Sys2Proof.Tests

open Sys2Proof.Machine

-- One theorem after another: many kernel evaluations at once would each hold a thread's stack.
set_option Elab.async false

/-! ### Helpers -/

/-- The `n` low bits of `v`, most significant first. -/
def bitsOf (n v : Nat) : List Bool := (List.range n).map fun i => v.testBit (n - 1 - i)

/-- TEST_ROM of 95_test_vectors.md section 1.2. -/
def testRom : Vector (BitVec 8 × BitVec 8) 4096 :=
  ⟨((List.range 4096).map fun j =>
    (BitVec.ofInt 8 ((j % 1024 % 5 : Nat) - 2), BitVec.ofNat 8 (40 + (j % 1024 + 7 * (j / 1024)) % 50))).toArray, by simp⟩

/-- The block between commands: engine registers, position and bits left, in the state `e`, with a valid store. -/
def block (e : EngState) (range offset pos : Nat) (bits : List Bool) : State :=
  { State.reset with
    codIRange := BitVec.ofNat 9 range, codIOffset := BitVec.ofNat 9 offset, engState := e, ctxValid := true,
    pos := pos, bits := bits }

/-- The block with some context entries (index, pStateIdx, valMPS as 0 or 1). -/
def withCtx (s : State) (l : List (Nat × Nat × Nat)) : State :=
  l.foldl (fun s e => s.ctxWrite (BitVec.ofNat 10 e.1) ⟨BitVec.ofNat 6 e.2.1, e.2.2 == 1⟩) s

/-- The block after the slice start of a vector: ENGINIT has read the first nine of the `n` bits `v`. -/
def slice (n v : Nat) (ctx : List (Nat × Nat × Nat)) (answers : List Nat) : State :=
  { withCtx (block .active 510 (v >>> (n - 9)) 9 (bitsOf (n - 9) v)) ctx with
    cselAns := answers.map (BitVec.ofNat 12) }

/-- A DEC answer for ctxIdx c (95_test_vectors.md section 1.3). -/
def ansDec (c : Nat) : Nat := 4 * c

/-- A state with a pending fault, as the vectors start it. -/
def faulted (f : FaultCode) : State := { State.reset with FAULT := f }

/-- What a vector states of the state after a command that ends OK: last response, codIRange, codIOffset, engState, pos. -/
def seen : Host.Outcome State Fault Refusal → Option (Response × Nat × Nat × EngState × Nat)
  | .next t => (t.rsps.getLast?).map fun r => (r, t.codIRange.toNat, t.codIOffset.toNat, t.engState, t.pos)
  | .fault _ => none
  | .refused _ => none

/-- The port a command is left waiting on. -/
def waits : Host.Outcome State Fault Refusal → Option Port
  | .next t => t.wait
  | .fault _ => none
  | .refused _ => none

/-- codIRange and codIOffset after a command. -/
def engine : Host.Outcome State Fault Refusal → Option (Nat × Nat)
  | .next t => some (t.codIRange.toNat, t.codIOffset.toNat)
  | .fault _ => none
  | .refused _ => none

/-- What a vector states of the state after a fault or a refusal: last response, FAULT, engState, ctxValid, pos. -/
def control : Host.Outcome State Fault Refusal → Option (Response × FaultCode × EngState × Bool × Nat)
  | .next t => (t.rsps.getLast?).map fun r => (r, t.FAULT, t.engState, t.ctxValid, t.pos)
  | .fault _ => none
  | .refused _ => none

/-- Context entries after a step, as (pStateIdx, valMPS). -/
def entries (l : List Nat) : Host.Outcome State Fault Refusal → List (Nat × Nat)
  | .next t => l.map fun c =>
      ((t.ctxRead (BitVec.ofNat 10 c)).pStateIdx.toNat, (t.ctxRead (BitVec.ofNat 10 c)).valMPS.toNat)
  | .fault _ => []
  | .refused _ => []

/-- A step that takes word `w`, given to the block by the host. -/
def given (w : Word) (s : State) : Host.Outcome State Fault Refusal := step { s with cmds := [w] }

/-! ### Well-formedness (R72) -/

theorem test_wellFormed_refuses_mbtI : (Instr.mbtI 3#2).wellFormed = false := by decide
theorem test_wellFormed_refuses_mbtSI_IA : (Instr.mbtSI 3#2 0#2).wellFormed = false := by decide
theorem test_wellFormed_refuses_mbtSI_IB : (Instr.mbtSI 0#2 3#2).wellFormed = false := by decide
theorem test_wellFormed_refuses_mbtB : (Instr.mbtB 3#2).wellFormed = false := by decide
theorem test_decode_refuses_mbtI : decode 0x40000003#32 = .error .reservedIncrement := by decide
theorem test_decode_refuses_mbtSI_IA : decode 0x44000003#32 = .error .reservedIncrement := by decide
theorem test_decode_refuses_mbtSI_IB : decode 0x4400000C#32 = .error .reservedIncrement := by decide
theorem test_decode_refuses_mbtB : decode 0x4C000003#32 = .error .reservedIncrement := by decide
theorem test_decode_refuses_reserved_bit : decode 0xF4000001#32 = .error .reservedOperandBit := by decide
theorem test_decode_refuses_reserved_opcode : decode 0xFC000000#32 = .error .reservedOpcode := by decide

/-! ### Words, bit by bit from R71 and R74 -/

theorem test_decode_ctxinit : decode 0b000001_00000000000000000_11_0011010#32 = .ok (.ctxinit 26#7 3#2) := by decide
theorem test_decode_align : decode 0b000010_0000000000000000000000000_1#32 = .ok (.align true) := by decide
theorem test_decode_enginit : decode 0b000011_00000000000000000000000000#32 = .ok .enginit := by decide
theorem test_decode_dec : decode 0b000100_0000000000000000_0000000111#32 = .ok (.dec 7#10) := by decide
theorem test_decode_byp : decode 0b000101_00000000000000000000000000#32 = .ok .byp := by decide
theorem test_decode_trm : decode 0b000110_00000000000000000000000000#32 = .ok .trm := by decide
theorem test_decode_u : decode 0b001000_00000000000000000000000000#32 = .ok .u := by decide
theorem test_decode_tu : decode 0b001001_0000000000_1000000000000011#32 = .ok (.tu 32771#16) := by decide
theorem test_decode_fl : decode 0b001010_0000000000_0000000000000111#32 = .ok (.fl 7#16) := by decide
theorem test_decode_uegk : decode 0b001011_0000000000000_00001110_0001_0#32 = .ok (.uegk false 1#4 14#8) := by decide
theorem test_decode_qpd : decode 0b001100_00000000000000000000000000#32 = .ok .qpd := by decide
theorem test_decode_cbp : decode 0b001101_000000000000000000000000_01#32 = .ok (.cbp 1#2) := by decide
theorem test_decode_mbtI : decode 0b010000_000000000000000000000000_10#32 = .ok (.mbtI 2#2) := by decide
theorem test_decode_mbtSI : decode 0b010001_0000000000000000000000_10_01#32 = .ok (.mbtSI 1#2 2#2) := by decide
theorem test_decode_mbtP : decode 0b010010_00000000000000000000000000#32 = .ok .mbtP := by decide
theorem test_decode_mbtB : decode 0b010011_000000000000000000000000_01#32 = .ok (.mbtB 1#2) := by decide
theorem test_decode_smbtP : decode 0b010100_00000000000000000000000000#32 = .ok .smbtP := by decide
theorem test_decode_smbtB : decode 0b010101_00000000000000000000000000#32 = .ok .smbtB := by decide
theorem test_decode_ctxrd : decode 0b111100_0000000000000000_0100010100#32 = .ok (.ctxrd 276#10) := by decide
theorem test_decode_statrd : decode 0b111101_00000000000000000000000000#32 = .ok .statrd := by decide

/-- The host's word for a row: a QP field with its sign bit, at the table's width. -/
theorem test_decodeTableWord : decodeTableWord 32 0x040000FA = some (.ctxinit 0b1111010#7 1#2) := by decide

/-- The word `align 1` placed at the fetch point runs from reset: no bit lies before the byte boundary at position 0. -/
theorem test_withFetchWord_align :
    control (step (State.reset.withFetchWord 32 0x08000001)) = some (⟨0#3, 0#32⟩, .none, .uninit, false, 0) := by decide

/-- `slicestart -6, 1` and `mvd` of R81, as words. -/
theorem test_pseudo_words :
    (slicestart 0b1111010#7 1#2).map encode = [0x040000FA#32, 0x08000001#32, 0x0C000000#32] ∧
    mvd.map encode = [0x2C000127#32] ∧ cal1.map encode = [0x2C0001C0#32] ∧ eos.map encode = [0x18000000#32] := by decide

/-! ### Port words (R76, R77; 95_test_vectors.md section 1.3) -/

theorem test_answer_kinds :
    answerKind 0x0D8#12 = some (.dec 54#10) ∧ answerKind 0x001#12 = some .byp ∧ answerKind 0x002#12 = some .trm ∧
    answerKind 0x003#12 = none ∧ answerKind 0xFFD#12 = some .byp := by decide

/-- Bin 3 of CBP's prefix after the bins 0, 1, 0 (V59). -/
theorem test_request_word : cselRequest 0x0D#6 false 3 (prevOf [false, true, false]) = 0x0100018D#39 := by decide

/-! ### The codeword tables of 43_mbtype_trees.md -/

/-- A row of a table: value, bins (as digits), contexts along it with 1024 for TRM. -/
def row (v : Nat) (bins kinds : List Nat) : Nat × List Bool × List BinKind :=
  (v, bins.map (· == 1), kinds.map fun c => if c = 1024 then .trm else .dec (BitVec.ofNat 10 c))

theorem test_codewords_smbtP : codewords smbtPTree =
    [row 1 [0, 0] [21, 22], row 3 [0, 1, 0] [21, 22, 23], row 2 [0, 1, 1] [21, 22, 23], row 0 [1] [21]] := by decide

theorem test_codewords_smbtB : codewords smbtBTree =
    [row 0 [0] [36], row 1 [1, 0, 0] [36, 37, 39], row 2 [1, 0, 1] [36, 37, 39],
     row 3 [1, 1, 0, 0, 0] [36, 37, 38, 39, 39], row 4 [1, 1, 0, 0, 1] [36, 37, 38, 39, 39],
     row 5 [1, 1, 0, 1, 0] [36, 37, 38, 39, 39], row 6 [1, 1, 0, 1, 1] [36, 37, 38, 39, 39],
     row 7 [1, 1, 1, 0, 0, 0] [36, 37, 38, 39, 39, 39], row 8 [1, 1, 1, 0, 0, 1] [36, 37, 38, 39, 39, 39],
     row 9 [1, 1, 1, 0, 1, 0] [36, 37, 38, 39, 39, 39], row 10 [1, 1, 1, 0, 1, 1] [36, 37, 38, 39, 39, 39],
     row 11 [1, 1, 1, 1, 0] [36, 37, 38, 39, 39], row 12 [1, 1, 1, 1, 1] [36, 37, 38, 39, 39]] := by decide

theorem test_codewords_mbtP :
    ∀ r ∈ [row 0 [0, 0, 0] [14, 15, 16], row 1 [0, 1, 1] [14, 15, 17], row 2 [0, 1, 0] [14, 15, 17],
      row 3 [0, 0, 1] [14, 15, 16], row 5 [1, 0] [14, 17], row 30 [1, 1, 1] [14, 17, 1024],
      row 10 [1, 1, 0, 0, 1, 0, 0, 0] [14, 17, 1024, 18, 19, 19, 20, 20],
      row 18 [1, 1, 0, 1, 0, 0, 0] [14, 17, 1024, 18, 19, 20, 20]], r ∈ codewords mbtPTree := by decide

theorem test_codewords_mbtI :
    ∀ r ∈ [row 0 [0] [4], row 1 [1, 0, 0, 0, 0, 0] [4, 1024, 6, 7, 9, 10], row 3 [1, 0, 0, 0, 1, 0] [4, 1024, 6, 7, 9, 10],
      row 5 [1, 0, 0, 1, 0, 0, 0] [4, 1024, 6, 7, 8, 9, 10], row 12 [1, 0, 0, 1, 1, 1, 1] [4, 1024, 6, 7, 8, 9, 10],
      row 16 [1, 0, 1, 0, 1, 1] [4, 1024, 6, 7, 9, 10], row 18 [1, 0, 1, 1, 0, 0, 1] [4, 1024, 6, 7, 8, 9, 10],
      row 23 [1, 0, 1, 1, 1, 1, 0] [4, 1024, 6, 7, 8, 9, 10], row 25 [1, 1] [4, 1024]], r ∈ codewords (mbtITree 1#2) := by
  decide

theorem test_codewords_mbtSI :
    ∀ r ∈ [row 0 [0] [1], row 1 [1, 0] [1, 5], row 26 [1, 1, 1] [1, 5, 1024],
      row 17 [1, 1, 0, 1, 0, 1, 1] [1, 5, 1024, 6, 7, 9, 10]], r ∈ codewords (mbtSITree 1#2 2#2) := by decide

theorem test_codewords_mbtB_six_bins :
    ∀ r ∈ [row 0 [0] [29], row 1 [1, 0, 0] [29, 30, 32], row 2 [1, 0, 1] [29, 30, 32],
      row 3 [1, 1, 0, 0, 0, 0] [29, 30, 31, 32, 32, 32], row 4 [1, 1, 0, 0, 0, 1] [29, 30, 31, 32, 32, 32],
      row 5 [1, 1, 0, 0, 1, 0] [29, 30, 31, 32, 32, 32], row 6 [1, 1, 0, 0, 1, 1] [29, 30, 31, 32, 32, 32],
      row 7 [1, 1, 0, 1, 0, 0] [29, 30, 31, 32, 32, 32], row 8 [1, 1, 0, 1, 0, 1] [29, 30, 31, 32, 32, 32],
      row 9 [1, 1, 0, 1, 1, 0] [29, 30, 31, 32, 32, 32], row 10 [1, 1, 0, 1, 1, 1] [29, 30, 31, 32, 32, 32],
      row 11 [1, 1, 1, 1, 1, 0] [29, 30, 31, 32, 32, 32], row 22 [1, 1, 1, 1, 1, 1] [29, 30, 31, 32, 32, 32]],
      r ∈ codewords (mbtBTree 2#2) := by decide

theorem test_codewords_mbtB_seven_bins :
    ∀ r ∈ [(12, [0, 0, 0, 0]), (13, [0, 0, 0, 1]), (14, [0, 0, 1, 0]), (15, [0, 0, 1, 1]), (16, [0, 1, 0, 0]),
      (17, [0, 1, 0, 1]), (18, [0, 1, 1, 0]), (19, [0, 1, 1, 1]), (20, [1, 0, 0, 0]), (21, [1, 0, 0, 1]), (23, [1, 0, 1, 0])],
      row r.1 ([1, 1, 1] ++ r.2) [27, 30, 31, 32, 32, 32, 32] ∈ codewords (mbtBTree 0#2) := by decide

theorem test_codewords_mbtB_intra :
    ∀ r ∈ [row 48 [1, 1, 1, 1, 0, 1, 1, 1] [28, 30, 31, 32, 32, 32, 32, 1024],
      row 28 [1, 1, 1, 1, 0, 1, 1, 0, 0, 1, 0, 0, 0] [28, 30, 31, 32, 32, 32, 32, 1024, 33, 34, 34, 35, 35]],
      r ∈ codewords (mbtBTree 1#2) := by decide

/-! ### Engine commands (V1 to V36) -/

theorem test_enginit_V2 : seen (exec .enginit (block .uninit 0 0 0 (bitsOf 9 0b111111101))) =
    some (⟨0#3, 0#32⟩, 510, 509, .active, 9) := by decide
theorem test_enginit_V3 : control (exec .enginit (block .uninit 0 0 0 (bitsOf 9 0b111111110))) =
    some (⟨2#3, 0#32⟩, .structuralViolation, .uninit, false, 9) := by decide
theorem test_align_V12 : seen (exec (.align false) (block .terminated 2 1 3 (bitsOf 5 0))) =
    some (⟨0#3, 5#32⟩, 2, 1, .terminated, 8) := by decide
theorem test_align_V10 : control (exec (.align true) (block .uninit 0 0 5 (bitsOf 2 0b10))) =
    some (⟨2#3, 0#32⟩, .structuralViolation, .uninit, false, 7) := by decide
/-- R210 and U8: STATRD's response, held back by the host when reset comes, is no response of the block. -/
theorem test_reset_withdraws : (match exec .statrd (block .uninit 0 0 0 []) with
    | .next t => some (t.rsps.length, (t.holdResponse true).resetEvent.rsps, (t.holdResponse false).resetEvent.rsps.length)
    | .fault _ => none
    | .refused _ => none) = some (1, [], 1) := by decide
/-- R101 with R32 and U7: a bit source that never answers aligned? leaves ALIGN stuck even at a byte boundary. -/
theorem test_align_unanswered : (fun o => (waits o, control o))
    (exec (.align true) { block .uninit 0 0 8 [] with alignsLeft := some 0 }) = (some .bit, none) := by decide
/-- R93 and R95: V16's DEC with no bit coming. The range is 240, the LPS sub-range, doubled before the bit is waited for; the
offset is 300 - 270. -/
theorem test_dec_waits : (fun o => (waits o, engine o))
    (exec (.dec 0#10) { block .active 510 300 0 [] with bitEnd := .silent }) = (some .bit, some (480, 30)) := by
  decide +kernel
theorem test_dec_V16 : (fun o => (seen o, entries [0] o)) (exec (.dec 0#10) (block .active 510 300 0 (bitsOf 1 0))) =
    (some (⟨0#3, 1#32⟩, 480, 60, .active, 1), [(0, 1)]) := by decide +kernel
theorem test_dec_V22 : (fun o => (seen o, entries [276] o))
    (exec (.dec 276#10) (withCtx (block .active 510 509 0 (bitsOf 7 0b1100110)) [(276, 63, 0)])) =
    (some (⟨0#3, 1#32⟩, 256, 230, .active, 7), [(63, 0)]) := by decide +kernel
theorem test_byp_V28 : seen (exec .byp (block .active 510 509 0 (bitsOf 1 1))) =
    some (⟨0#3, 1#32⟩, 510, 509, .active, 1) := by decide
theorem test_byp_V29 : seen (exec .byp (block .active 300 150 0 (bitsOf 1 0))) =
    some (⟨0#3, 1#32⟩, 300, 0, .active, 1) := by decide
theorem test_trm_V33 : seen (exec .trm (block .active 256 100 0 (bitsOf 1 1))) =
    some (⟨0#3, 0#32⟩, 508, 201, .active, 1) := by decide
theorem test_trm_V35 : seen (exec .trm (block .active 300 298 0 [])) =
    some (⟨0#3, 1#32⟩, 298, 298, .terminated, 0) := by decide

/-! ### Contexts (R117; V37 to V40) -/

theorem test_initCtx_table :
    initCtx 20 (-15) 26 = ⟨46#6, false⟩ ∧ initCtx (-28) 127 35 = ⟨1#6, true⟩ ∧ initCtx 0 0 26 = ⟨62#6, false⟩ ∧
    initCtx 0 127 26 = ⟨62#6, true⟩ ∧ initCtx 0 63 26 = ⟨0#6, false⟩ ∧ initCtx 0 64 26 = ⟨0#6, true⟩ ∧
    initCtx (-2) 50 (-10) = ⟨13#6, false⟩ ∧ initCtx 3 40 60 = ⟨14#6, false⟩ ∧ initCtx (-1) 0 1 = ⟨62#6, false⟩ ∧
    initCtx (-16) 100 51 = ⟨14#6, false⟩ ∧ initCtx 7 0 51 = ⟨41#6, false⟩ ∧ initCtx 0 126 0 = ⟨62#6, true⟩ := by decide

theorem test_ctxinit_V37 : entries [0, 1, 54, 73, 105, 276, 277, 1023]
    (exec (.ctxinit 26#7 0#2) { State.reset with rom := testRom }) =
    [(27, 0), (24, 0), (16, 0), (0, 1), (22, 0), (63, 0), (3, 1), (0, 1)] := by decide +kernel
theorem test_ctxinit_V39 : entries [0, 1, 54, 73, 105, 276, 277, 1023]
    (exec (.ctxinit 0b1111010#7 1#2) { faulted .structuralViolation with rom := testRom }) =
    [(16, 0), (15, 0), (12, 0), (6, 1), (11, 0), (63, 0), (10, 1), (6, 1)] := by decide +kernel

/-! ### Binarizations (V41 to V69) -/

theorem test_u_V41 : (fun o => (seen o, entries [54, 58, 59] o)) (exec .u
    (slice 13 0b1111101101001 [(54, 16, 0), (58, 14, 0), (59, 11, 0)] [ansDec 54, ansDec 58, ansDec 59])) =
    (some (⟨0#3, 2#32⟩, 283, 281, .active, 13), [(13, 0), (11, 0), (12, 0)]) := by decide +kernel
theorem test_u_V109 : control (exec .u { block .active 510 300 0 (bitsOf 4 15) with cselAns := [3#12] }) =
    some (⟨5#3, 0#32⟩, .invalidDerivationRequest, .uninit, false, 0) := by decide
theorem test_tu_V44 : (fun o => (seen o, entries [64, 67] o)) (exec (.tu 3#16)
    (slice 11 0b00100110111 [(64, 0, 1), (67, 0, 1)] [ansDec 64, ansDec 67, ansDec 67])) =
    (some (⟨0#3, 3#32⟩, 312, 311, .active, 11), [(1, 1), (2, 1)]) := by decide +kernel
theorem test_tu_V45 : (fun o => (seen o, entries [64, 67] o)) (exec (.tu 3#16)
    (slice 10 0b1000011011 [(64, 0, 1), (67, 0, 1)] [ansDec 64, ansDec 67, ansDec 67])) =
    (some (⟨0#3, 1#32⟩, 256, 255, .active, 10), [(1, 1), (0, 0)]) := by decide +kernel
theorem test_fl_V46 : (fun o => (seen o, entries [69] o)) (exec (.fl 7#16)
    (slice 12 0b110001111011 [(69, 18, 1)] [ansDec 69, ansDec 69, ansDec 69])) =
    (some (⟨0#3, 5#32⟩, 484, 483, .active, 12), [(16, 1)]) := by decide +kernel
theorem test_fl_V62 : seen (exec (.fl 65535#16)
    (slice 25 0b0111111110000001111111011 [] (List.replicate 16 1))) =
    some (⟨0#3, 32769#32⟩, 510, 509, .active, 25) := by decide +kernel
theorem test_uegk_V48 : (fun o => (seen o, entries [40, 43, 44] o)) (exec (.uegk true 3#4 9#8)
    (slice 13 0b1001111111111 [(40, 12, 1), (43, 20, 1), (44, 23, 1)] [ansDec 40, ansDec 43, ansDec 44])) =
    (some (⟨0#3, BitVec.ofInt 32 (-2)⟩, 424, 423, .active, 13), [(13, 1), (21, 1), (18, 1)]) := by decide +kernel
theorem test_uegk_V50 : (fun o => (seen o, entries [40, 45, 46] o)) (exec (.uegk true 3#4 9#8)
    (slice 18 0b000110011111000011 [(40, 12, 1), (43, 20, 1), (44, 23, 1), (45, 17, 1), (46, 20, 1)]
      ([ansDec 40, ansDec 43, ansDec 44, ansDec 45] ++ List.replicate 5 (ansDec 46)))) =
    (some (⟨0#3, 23#32⟩, 345, 343, .active, 18), [(13, 1), (18, 1), (25, 1)]) := by decide +kernel
theorem test_qpd_V53 : (fun o => (seen o, entries [60, 62, 63] o)) (exec .qpd
    (slice 13 0b1111101001001 [(60, 17, 0), (62, 11, 0), (63, 9, 0)] [ansDec 60, ansDec 62, ansDec 63])) =
    (some (⟨0#3, BitVec.ofInt 32 (-1)⟩, 318, 317, .active, 13), [(13, 0), (9, 0), (10, 0)]) := by decide +kernel
theorem test_qpd_V54 : seen (exec .qpd
    (slice 18 0b111111101011100011 [(60, 17, 0), (62, 11, 0), (63, 9, 0)]
      ([ansDec 60, ansDec 62] ++ List.replicate 4 (ansDec 63)))) =
    some (⟨0#3, 3#32⟩, 356, 355, .active, 18) := by decide +kernel
theorem test_cbp_V55 : (fun o => (seen o, entries [73, 77, 81] o)) (exec (.cbp 1#2)
    (slice 15 0b010011110100111 [(73, 0, 1), (77, 3, 1), (81, 5, 1)]
      (List.replicate 4 (ansDec 73) ++ [ansDec 77, ansDec 81]))) =
    (some (⟨0#3, 29#32⟩, 444, 443, .active, 15), [(2, 1), (4, 1), (4, 1)]) := by decide +kernel
/-- V59's requests (R77): PART, BINIDX and the bins before, of the part. The entries are TEST_ROM's for `ctxinit 26, 0`. -/
theorem test_cbp_V59 : (match exec (.cbp 1#2)
      (slice 14 0b10001110110111 [(73, 0, 1), (74, 3, 1), (75, 2, 0), (77, 3, 1), (81, 5, 1)]
        [ansDec 73, ansDec 74, ansDec 75, ansDec 74, ansDec 77, ansDec 81]) with
    | .next t => (seen (.next t), t.cselReqs)
    | .fault _ => (none, [])
    | .refused _ => (none, [])) =
    (some (⟨0#3, 42#32⟩, 504, 503, .active, 14),
      [0x0D#39, 0x8D#39, 0x10D#39 ||| 0b10#39 <<< 23, 0x0100018D#39, 0x4D#39, 0xCD#39 ||| 1#39 <<< 23]) := by decide +kernel

/-! ### Trees (V70 to V91) -/

theorem test_mbtI_V70 : (fun o => (seen o, entries [3, 6, 7, 9, 10] o)) (exec (.mbtI 0#2)
    (slice 13 0b0011101101101 [(3, 1, 1), (6, 1, 1), (7, 4, 1), (9, 9, 1), (10, 3, 1)] [])) =
    (some (⟨0#3, 16#32⟩, 382, 381, .active, 13), [(2, 1), (2, 1), (2, 1), (10, 1), (4, 1)]) := by decide +kernel
theorem test_mbtI_V88 : seen (exec (.mbtI 0#2) (slice 9 0b100011001 [(3, 1, 1)] [])) =
    some (⟨0#3, 25#32⟩, 281, 281, .terminated, 9) := by decide +kernel
theorem test_mbtSI_V74 : seen (exec (.mbtSI 0#2 2#2) (slice 11 0b11010101001 [(0, 6, 0), (5, 1, 0)] [])) =
    some (⟨0#3, 1#32⟩, 366, 365, .active, 11) := by decide +kernel
theorem test_mbtSI_V89 : seen (exec (.mbtSI 1#2 2#2) (slice 11 0b11111110111 [(1, 3, 0), (5, 1, 0)] [])) =
    some (⟨0#3, 26#32⟩, 392, 393, .terminated, 11) := by decide +kernel
theorem test_mbtP_V76 : seen (exec .mbtP (slice 12 0b100101110111 [(14, 6, 0), (15, 12, 0), (17, 6, 0)] [])) =
    some (⟨0#3, 2#32⟩, 496, 495, .active, 12) := by decide +kernel
theorem test_mbtP_V90 : seen (exec .mbtP (slice 11 0b11111110111 [(14, 6, 0), (17, 6, 0)] [])) =
    some (⟨0#3, 30#32⟩, 254, 255, .terminated, 11) := by decide +kernel
theorem test_mbtB_V80 : (fun o => (seen o, entries [29, 30, 31, 32] o)) (exec (.mbtB 2#2)
    (slice 15 0b010110010101101 [(29, 15, 1), (30, 9, 1), (31, 12, 1), (32, 15, 1)] [])) =
    (some (⟨0#3, 17#32⟩, 422, 421, .active, 15), [(16, 1), (10, 1), (13, 1), (12, 1)]) := by decide +kernel
theorem test_mbtB_V91 : seen (exec (.mbtB 1#2)
    (slice 13 0b0100001100111 [(28, 12, 1), (30, 9, 1), (31, 12, 1), (32, 15, 1)] [])) =
    some (⟨0#3, 48#32⟩, 287, 287, .terminated, 13) := by decide +kernel
theorem test_smbtP_V83 : seen (exec .smbtP (slice 11 0b10011101011 [(21, 4, 0), (22, 1, 0), (23, 0, 1)] [])) =
    some (⟨0#3, 3#32⟩, 256, 255, .active, 11) := by decide +kernel
theorem test_smbtP_V84 : seen (exec .smbtP (slice 10 0b1111111011 [(21, 4, 0)] [])) =
    some (⟨0#3, 0#32⟩, 390, 389, .active, 10) := by decide +kernel
theorem test_smbtB_V85 : (fun o => (seen o, entries [36, 37, 38, 39] o)) (exec .smbtB
    (slice 21 0b111111101100111001111 [(36, 25, 0), (37, 22, 0), (38, 20, 0), (39, 17, 0)] [])) =
    (some (⟨0#3, 10#32⟩, 320, 319, .active, 21), [(19, 0), (18, 0), (16, 0), (12, 0)]) := by decide +kernel
theorem test_smbtB_V87 : seen (exec .smbtB (slice 14 0b11111001001111 [(36, 25, 0), (37, 22, 0), (39, 17, 0)] [])) =
    some (⟨0#3, 2#32⟩, 344, 343, .active, 14) := by decide +kernel

/-! ### Read-back (V92 to V98) and faults (V99 to V110) -/

theorem test_statrd_V93 : seen (exec .statrd (block .active 510 300 9 [])) =
    some (⟨0#3, 0x001659FE#32⟩, 510, 300, .active, 9) := by decide
theorem test_statrd_V108 : control (exec .statrd (faulted .unboundedLoopDetected)) =
    some (⟨0#3, 0x00600000#32⟩, .unboundedLoopDetected, .uninit, false, 0) := by decide
theorem test_ctxrd_V96 : seen (exec (.ctxrd 0#10) (withCtx (block .active 480 60 1 []) [(0, 0, 1)])) =
    some (⟨0#3, 0x40#32⟩, 480, 60, .active, 1) := by decide +kernel
theorem test_ctxrd_V97 : control (exec (.ctxrd 5#10) State.reset) =
    some (⟨5#3, 0#32⟩, .invalidDerivationRequest, .uninit, false, 0) := by decide
theorem test_refusal_V104 : control (exec (.dec 0#10) (faulted .structuralViolation)) =
    some (⟨2#3, 0#32⟩, .structuralViolation, .uninit, false, 0) := by decide
theorem test_refusal_V105 : control (given 0xFC000000#32 (faulted .structuralViolation)) =
    some (⟨2#3, 0#32⟩, .structuralViolation, .uninit, false, 0) := by decide
theorem test_nested_fault_V106 : control (given 0x04000200#32 (faulted .structuralViolation)) =
    some (⟨5#3, 0#32⟩, .structuralViolation, .uninit, false, 0) := by decide
theorem test_illegal_word_V101 : control (given 0x24010003#32 (block .active 510 300 0 (bitsOf 4 15))) =
    some (⟨5#3, 0#32⟩, .invalidDerivationRequest, .uninit, false, 0) := by decide

/-! ### States that meet the obligations' hypotheses: helpers -/

theorem some_of {o : Option State} (h : o.isSome = true) : ∃ t, o = some t := Option.isSome_iff_exists.1 h

/-- A command's next state has a property that its evaluation has. -/
theorem next_of {P : State → Prop} (i : Instr) (s : State) (hf : s.FAULT = .none)
    (h : P (runCommand i (commandBody i) s)) : ∃ (i : Instr) (s t : State), s.FAULT = .none ∧ exec i s = .next t ∧ P t :=
  ⟨i, s, _, hf, exec_eq i s, h⟩

/-- An ACTIVE block with range 510 and offset 509, on which a bypass bin on a 1-bit is 1 and changes neither (V28). -/
def ones509 (bits : List Bool) (answers : List CselAnswer) : State :=
  { block .active 510 509 9 bits with cselAns := answers }

/-- A unary run of n bypass 1-bins on n 1-bits (V111): the engine registers stay, n bits and n answers are taken. -/
theorem fetches_ones (opc : Opcode) (n : Nat) (done : List Bool) (s : State) (rest : List Bool) (more : List CselAnswer)
    (hb : s.bits = List.replicate n true ++ rest) (ha : s.cselAns = List.replicate n 1#12 ++ more)
    (he : s.engState = .active) (hr : s.codIRange = 510#9) (ho : s.codIOffset = 509#9) :
    ∃ reqs, fetchesBins opc false done (List.replicate n true) s =
      some { s with bits := rest, cselAns := more, pos := s.pos + n, cselReqs := reqs } := by
  induction n generalizing done s with
  | zero => exact ⟨s.cselReqs, by cases s; simp_all [fetchesBins]⟩
  | succ n ih =>
    have e : fetchBin opc false done.length (prevOf done) s = .ok true { s with
        bits := List.replicate n true ++ rest, cselAns := List.replicate n 1#12 ++ more, pos := s.pos + 1,
        cselReqs := s.cselReqs ++ [cselRequest opc false done.length (prevOf done)] } := by
      cases s
      simp only [List.replicate_succ, List.cons_append] at hb ha
      simp only at he hr ho hb ha
      subst he hr ho hb ha
      simp [fetchBin, csel, State.sendRequest, State.takeAnswer, answerKind, binOf, engActive, decodeBin, decodeBypass, readBit,
        State.takeBit, State.setOffset]
    obtain ⟨reqs, h⟩ := ih (done ++ [true]) { s with
        bits := List.replicate n true ++ rest, cselAns := List.replicate n 1#12 ++ more, pos := s.pos + 1,
        cselReqs := s.cselReqs ++ [cselRequest opc false done.length (prevOf done)] } rfl rfl he hr ho
    refine ⟨reqs, ?_⟩
    rw [List.replicate_succ, fetchesBins, e]
    simp only
    rw [h]
    simp [Nat.add_assoc, Nat.add_comm 1 n]

/-- The bits after the 9991 ones of V114. -/
def tail114 : List Bool := bitsOf 9 1

/-- V114's state after the slice start, with its answers. -/
def start114 : State := ones509 (List.replicate 9991 true ++ tail114) (List.replicate 10000 1#12)

/-- The last nine bins of V114, eight ones and a zero. -/
theorem fetches_tail (opc : Opcode) (done : List Bool) (s : State) (hb : s.bits = tail114)
    (ha : s.cselAns = List.replicate 9 1#12) (he : s.engState = .active) (hr : s.codIRange = 510#9)
    (ho : s.codIOffset = 509#9) : ∃ t, fetchesBins opc false done (unaryBins 8) s = some t := by
  cases s
  simp only at he hr ho hb ha
  subst he hr ho hb ha
  apply some_of
  simp [unaryBins, fetchesBins, fetchBin, csel, State.sendRequest, State.takeAnswer, answerKind, binOf, engActive, decodeBin,
    decodeBypass, readBit, State.takeBit, State.setOffset, tail114, bitsOf, List.range, List.range.loop, Nat.testBit]

/-- The bins of V114, 9999 ones and a zero, decode. -/
theorem fetches_114 (opc : Opcode) : ∃ t, fetchesBins opc false [] (unaryBins 9999) start114 = some t := by
  have hsplit : unaryBins 9999 = List.replicate 9991 true ++ unaryBins 8 := by
    rw [unaryBins, unaryBins, ← List.append_assoc, List.replicate_append_replicate]
  obtain ⟨reqs, h⟩ := fetches_ones opc 9991 [] start114 tail114 (List.replicate 9 1#12) rfl
    (by rw [List.replicate_append_replicate]; rfl) rfl rfl rfl
  rw [hsplit]
  obtain ⟨t, ht⟩ := fetches_tail opc ([] ++ List.replicate 9991 true)
    { start114 with bits := tail114, cselAns := List.replicate 9 1#12, pos := start114.pos + 9991, cselReqs := reqs }
    rfl rfl rfl rfl rfl
  exact ⟨t, fetchesBins_append.2 ⟨_, h, ht⟩⟩

theorem msbValue_ones (n : Nat) : msbValue (List.replicate n true) = 2 ^ n - 1 := by
  rw [← List.reverse_replicate, ← binsValue_eq_msbValue, binsValue_ones]

/-! ### Witnesses: words -/

theorem test_meets_DecodeOfEncodeIsTheCommand : ∃ i : Instr, i.wellFormed = true := ⟨.mbtSI 2#2 2#2, by decide⟩
theorem test_meets_EncodeOfDecodeIsTheWord : ∃ (w : Word) (i : Instr), decode w = .ok i :=
  ⟨0x4400000A#32, .mbtSI 2#2 2#2, by decide⟩
theorem test_meets_WordsSelectTheirOpcodeRow_decodes : ∃ (w : Word) (i : Instr), decode w = .ok i :=
  ⟨0x2C001FFF#32, .uegk true 15#4 255#8, by decide⟩
theorem test_meets_WordsSelectTheirOpcodeRow_matches : ∃ (w : Word) (i : Instr), w &&& rowMask i = place (opcode i) 26 :=
  ⟨0x4400000C#32, .mbtSI 0#2 0#2, by decide⟩
theorem test_meets_WordsSelectTheirOpcodeRow_twice : ∃ (w : Word) (i j : Instr),
    w &&& rowMask i = place (opcode i) 26 ∧ w &&& rowMask j = place (opcode j) 26 :=
  ⟨0x100003FF#32, .dec 0#10, .dec 1023#10, by decide⟩
/-- The edges of the reserved ranges of R75, on both sides. -/
theorem test_reserved_opcode_edges :
    decode 0x58000000#32 = .error .reservedOpcode ∧ decode 0xEC000000#32 = .error .reservedOpcode ∧
    decode 0x1C000000#32 = .error .reservedOpcode ∧ decode 0x38000000#32 = .error .reservedOpcode ∧
    decode 0x54000000#32 = .ok .smbtB ∧ decode 0xF0000000#32 = .ok (.ctxrd 0#10) := by decide

/-! ### Witnesses: steps, reset and faults -/

theorem test_meets_StepRunsTheDecodedCommand : ∃ (s : State) (w : Word) (rest : List Word) (i : Instr),
    Idle s ∧ s.cmds = w :: rest ∧ decode w = .ok i :=
  ⟨{ State.reset with cmds := [0x0C000000#32] }, 0x0C000000#32, [], .enginit, ⟨rfl, rfl⟩, rfl, by decide⟩
theorem test_meets_StepRunsTheDecodedCommand_fetch : ∃ (w : Word) (i : Instr), decode w = .ok i :=
  ⟨0xF4000000#32, .statrd, by decide⟩
theorem test_meets_BlockHoldsWhileItWaits :
    (∃ s : State, s.wait ≠ none) ∧ (∃ s : State, s.rspHeld = true) ∧ (∃ s : State, s.cmds = []) :=
  ⟨⟨State.reset.waitOn .csel, by decide⟩, ⟨{ State.reset with rspHeld := true }, rfl⟩, ⟨State.reset, rfl⟩⟩
theorem test_meets_IllegalWordRaisesInvalidDerivation : ∃ (s : State) (w : Word) (rest : List Word) (e : DecodeError),
    Idle s ∧ s.cmds = w :: rest ∧ s.FAULT = .none ∧ decode w = .error e :=
  ⟨{ State.reset with cmds := [0#32] }, 0#32, [], .reservedOpcode, ⟨rfl, rfl⟩, rfl, rfl, by decide⟩
theorem test_meets_PendingFaultRefusesEveryOtherWord : ∃ (s : State) (w : Word) (rest : List Word),
    Idle s ∧ s.cmds = w :: rest ∧ s.FAULT ≠ .none ∧ opcodeField w ≠ 0x01#6 ∧ opcodeField w ≠ 0x3D#6 :=
  ⟨{ faulted .structuralViolation with cmds := [0xFC000000#32] }, 0xFC000000#32, [], ⟨rfl, rfl⟩, rfl, by decide, by decide,
    by decide⟩
theorem test_meets_FirstFaultIsKept : ∃ (s t : State) (w : Word) (rest : List Word),
    Idle s ∧ s.cmds = w :: rest ∧ s.FAULT ≠ .none ∧ step s = .next t ∧ opcodeField w = 0x01#6 ∧
      decode w = .error .reservedOperandBit :=
  ⟨{ faulted .structuralViolation with cmds := [0x04000200#32] }, _, 0x04000200#32, [], ⟨rfl, rfl⟩, rfl, by decide, rfl,
    by decide, by decide⟩
theorem test_meets_FaultingCommandEndsTheSlice : ∃ (i : Instr) (s t : State),
    s.FAULT = .none ∧ exec i s = .next t ∧ t.FAULT ≠ .none :=
  next_of .enginit (block .uninit 0 0 0 (bitsOf 5 0b10010)) rfl (by decide)
theorem test_meets_FailedPreconditionsFault :
    (∃ s : State, s.FAULT = .none ∧ s.engState = .active) ∧ (∃ s : State, s.FAULT = .none ∧ s.engState ≠ .active) ∧
    (∃ s : State, s.FAULT = .none ∧ s.engState = .active ∧ s.ctxValid = false) ∧ (Instr.mbtI 3#2).wellFormed = false :=
  ⟨⟨block .active 510 300 0 [], by decide⟩, ⟨block .terminated 508 509 0 [], by decide⟩,
    ⟨{ block .active 510 300 0 [] with ctxValid := false }, by decide⟩, by decide⟩
theorem test_meets_UnsupportedFeatureIsNeverRaised : ∃ s t : State, s.FAULT ≠ .unsupportedFeature ∧ step s = .next t :=
  ⟨{ State.reset with cmds := [0#32] }, _, by decide, rfl⟩
theorem test_meets_LoopAndStructureFaults_structure : ∃ (i : Instr) (s t : State),
    s.FAULT = .none ∧ exec i s = .next t ∧ t.FAULT = .structuralViolation :=
  next_of .enginit (block .uninit 0 0 0 (bitsOf 9 511)) rfl (by decide)
/-- V69. -/
theorem test_meets_LoopAndStructureFaults_loop : ∃ (i : Instr) (s t : State),
    s.FAULT = .none ∧ exec i s = .next t ∧ t.FAULT = .unboundedLoopDetected :=
  next_of (.uegk false 15#4 0#8) (block .active 510 509 9 (bitsOf 10 1023)) rfl (by decide)
theorem test_meets_StreamExhaustionComesAtTheEndOfTheBits : ∃ (i : Instr) (s t : State),
    s.FAULT = .none ∧ exec i s = .next t ∧ t.FAULT = .streamExhaustion :=
  next_of .enginit (block .uninit 0 0 0 (bitsOf 8 255)) rfl (by decide)

/-! ### Witnesses: the engine -/

theorem test_meets_ReadBitsMostSignificantFirst : ∃ (n : Nat) (s : State), n ≤ s.bits.length ∧ n = 9 :=
  ⟨9, block .uninit 0 0 0 (bitsOf 9 1), by decide⟩
theorem test_meets_EnginitPrimesTheEngine : ∃ s : State,
    s.FAULT = .none ∧ s.engState ≠ .active ∧ 9 ≤ s.bits.length ∧ msbValue (s.bits.take 9) < 510 :=
  ⟨block .terminated 508 509 0 (bitsOf 9 509), by decide⟩
theorem test_meets_EnginitFaults_offset : ∃ s : State,
    s.FAULT = .none ∧ s.engState ≠ .active ∧ 9 ≤ s.bits.length ∧ 510 ≤ msbValue (s.bits.take 9) :=
  ⟨block .uninit 0 0 0 (bitsOf 9 510), by decide⟩
theorem test_meets_EnginitFaults_end : ∃ s : State,
    s.FAULT = .none ∧ s.engState ≠ .active ∧ s.bits.length < 9 ∧ s.bitEnd = .exhausted :=
  ⟨block .uninit 0 0 0 (bitsOf 8 255), by decide⟩
theorem enough_answers {left : Option Nat} {n : Nat} (h : left.all (n ≤ ·) = true) : ∀ k : Nat, left = some k → n ≤ k := by
  rintro k rfl
  simpa using h

theorem test_meets_AlignSkipsToTheByteBoundary :
    (∃ (s : State) (f : Bool), s.FAULT = .none ∧ s.engState ≠ .active ∧ alignGap s ≤ s.bits.length ∧
      (∀ b ∈ s.bits.take (alignGap s), b = f) ∧ (∀ k : Nat, s.alignsLeft = some k → alignGap s + 1 ≤ k) ∧
      alignGap s = 7 ∧ s.alignsLeft = some 8) ∧
    (∃ (s : State) (f : Bool), s.FAULT = .none ∧ s.engState ≠ .active ∧ alignGap s ≤ s.bits.length ∧
      (∀ b ∈ s.bits.take (alignGap s), b = f) ∧ (∀ k : Nat, s.alignsLeft = some k → alignGap s + 1 ≤ k) ∧
      alignGap s = 0 ∧ s.alignsLeft = none) :=
  ⟨⟨{ block .uninit 0 0 1 (bitsOf 7 127) with alignsLeft := some 8 }, true, by decide, by decide, by decide, by decide,
      enough_answers (by decide), by decide, rfl⟩,
    ⟨block .terminated 2 1 8 [], false, by decide, by decide, by decide, by decide,
      enough_answers (by decide), by decide, rfl⟩⟩
/-- No request answered at an aligned position, and seven at the greatest distance from one. -/
theorem test_meets_AlignSkipsToTheByteBoundary_wait : ∀ p ∈ [(8, 0), (1, 7)], ∃ (s : State) (f : Bool) (k : Nat),
    s.FAULT = .none ∧ s.engState ≠ .active ∧ s.alignsLeft = some k ∧ k ≤ alignGap s ∧ k ≤ s.bits.length ∧
    (∀ b ∈ s.bits.take k, b = f) ∧ p = (s.pos, k) := by
  intro p hp
  refine ⟨{ block .uninit 0 0 p.1 (bitsOf 7 127) with alignsLeft := some p.2 }, true, p.2, rfl, EngState.noConfusion, rfl, ?_⟩
  revert p
  decide
theorem test_meets_AlignFaults_structure : ∃ (s : State) (f : Bool) (n : Nat) (rest : List Bool),
    s.FAULT = .none ∧ s.engState ≠ .active ∧ n < alignGap s ∧ (∀ k : Nat, s.alignsLeft = some k → n + 1 ≤ k) ∧
    s.bits = List.replicate n f ++ (!f) :: rest ∧ n = 6 ∧ s.alignsLeft = some 7 :=
  ⟨{ block .uninit 0 0 1 (bitsOf 7 126) with alignsLeft := some 7 }, true, 6, [], by decide, by decide, by decide,
    enough_answers (by decide), by decide, rfl, rfl⟩
theorem test_meets_AlignFaults_end : ∃ (s : State) (f : Bool) (n : Nat),
    s.FAULT = .none ∧ s.engState ≠ .active ∧ n < alignGap s ∧ (∀ k : Nat, s.alignsLeft = some k → n + 1 ≤ k) ∧
    s.bits = List.replicate n f ∧ s.bitEnd = .exhausted :=
  ⟨block .uninit 0 0 1 (bitsOf 6 63), true, 6, by decide, by decide, by decide,
    enough_answers (by decide), by decide, rfl⟩

/-- V22: the seven doublings, the most there are. -/
theorem test_meets_DecTakesTheLpsPath : ∃ (s : State) (c : CtxIdx) (p : BitVec 6) (m : Bool) (rLPS rMPS : Nat),
    s.FAULT = .none ∧ s.engState = .active ∧ s.ctxValid = true ∧ EngineInv s ∧ s.ctxRead c = ⟨p, m⟩ ∧
    rLPS = rangeLPS p (s.codIRange.extractLsb' 6 2) ∧ rMPS = s.codIRange.toNat - rLPS ∧
    rMPS ≤ s.codIOffset.toNat ∧ renormShift rLPS ≤ s.bits.length :=
  ⟨withCtx (block .active 510 509 0 (bitsOf 7 0b1100110)) [(276, 63, 0)], 276#10, 63#6, false, 2, 508, by
    unfold EngineInv; decide +kernel⟩
/-- V18, one doubling, and V17, none. -/
theorem test_meets_DecTakesTheMpsPath :
    (∃ (s : State) (c : CtxIdx) (p : BitVec 6) (m : Bool) (rLPS rMPS : Nat),
      s.FAULT = .none ∧ s.engState = .active ∧ s.ctxValid = true ∧ EngineInv s ∧ s.ctxRead c = ⟨p, m⟩ ∧
      rLPS = rangeLPS p (s.codIRange.extractLsb' 6 2) ∧ rMPS = s.codIRange.toNat - rLPS ∧
      s.codIOffset.toNat < rMPS ∧ renormShift rMPS ≤ s.bits.length ∧ renormShift rMPS = 1) ∧
    (∃ (s : State) (c : CtxIdx) (p : BitVec 6) (m : Bool) (rLPS rMPS : Nat),
      s.FAULT = .none ∧ s.engState = .active ∧ s.ctxValid = true ∧ EngineInv s ∧ s.ctxRead c = ⟨p, m⟩ ∧
      rLPS = rangeLPS p (s.codIRange.extractLsb' 6 2) ∧ rMPS = s.codIRange.toNat - rLPS ∧
      s.codIOffset.toNat < rMPS ∧ renormShift rMPS ≤ s.bits.length ∧ renormShift rMPS = 0) :=
  ⟨⟨block .active 300 100 0 [true], 0#10, 0#6, false, 128, 172, by unfold EngineInv; decide +kernel⟩,
    ⟨block .active 510 100 0 [], 0#10, 0#6, false, 240, 270, by unfold EngineInv; decide +kernel⟩⟩
theorem test_meets_DecRunsOutOfBits : ∃ (s : State) (c : CtxIdx) (rLPS rMPS : Nat),
    s.FAULT = .none ∧ s.engState = .active ∧ s.ctxValid = true ∧ EngineInv s ∧
    rLPS = rangeLPS (s.ctxRead c).pStateIdx (s.codIRange.extractLsb' 6 2) ∧ rMPS = s.codIRange.toNat - rLPS ∧
    s.bits.length < renormShift (if rMPS ≤ s.codIOffset.toNat then rLPS else rMPS) ∧ s.bitEnd = .exhausted :=
  ⟨withCtx (block .active 510 509 0 (bitsOf 6 0b110011)) [(276, 63, 0)], 276#10, 2, 508, by
    unfold EngineInv; decide +kernel⟩
theorem test_meets_BypDecodesOneBypassBin :
    (∃ (s : State) (b : Bool) (rest : List Bool) (t : Nat), s.FAULT = .none ∧ s.engState = .active ∧ s.bits = b :: rest ∧
      t = 2 * s.codIOffset.toNat + b.toNat ∧ t = s.codIRange.toNat) ∧
    (∃ s : State, s.FAULT = .none ∧ s.engState = .active ∧ s.bits = [] ∧ s.bitEnd = .exhausted) :=
  ⟨⟨block .active 300 150 0 [false], false, [], 300, by decide⟩, ⟨block .active 510 300 0 [], by decide⟩⟩
theorem test_meets_TrmDecodesOneTerminateBin :
    (∃ s : State, s.FAULT = .none ∧ s.engState = .active ∧ EngineInv s ∧ s.codIRange.toNat - 2 = s.codIOffset.toNat) ∧
    (∃ s : State, s.FAULT = .none ∧ s.engState = .active ∧ EngineInv s ∧
      s.codIOffset.toNat + 1 = s.codIRange.toNat - 2 ∧ 258 = s.codIRange.toNat) ∧
    (∃ s : State, s.FAULT = .none ∧ s.engState = .active ∧ EngineInv s ∧
      s.codIOffset.toNat < s.codIRange.toNat - 2 ∧ s.codIRange.toNat = 257 ∧ s.bits = [true]) ∧
    (∃ s : State, s.FAULT = .none ∧ s.engState = .active ∧ EngineInv s ∧
      s.codIOffset.toNat < s.codIRange.toNat - 2 ∧ s.codIRange.toNat < 258 ∧ s.bits = [] ∧ s.bitEnd = .exhausted) :=
  ⟨⟨block .active 300 298 0 [], by unfold EngineInv; decide⟩, ⟨block .active 258 255 0 [], by unfold EngineInv; decide⟩,
    ⟨block .active 257 254 0 [true], by unfold EngineInv; decide⟩, ⟨block .active 256 100 0 [], by unfold EngineInv; decide⟩⟩
theorem test_meets_BypassBinsAreALongDivision : ∃ (n : Nat) (s : State),
    s.engState = .active ∧ s.codIOffset.toNat < s.codIRange.toNat ∧ n ≤ s.bits.length ∧ 0 < n :=
  ⟨4, block .active 510 509 0 (bitsOf 4 0b1010), by decide⟩

/-! ### Witnesses: the contexts -/

theorem test_meets_ProbabilityUpdateProperties : ∃ p q : BitVec 6, p = 63#6 ∧ q ≠ 63#6 ∧ q = 62#6 := ⟨63#6, 62#6, by decide⟩
theorem test_meets_InitialContextFormula :
    (∃ m n qp pre : Int, -128 ≤ m ∧ m ≤ 127 ∧ -128 ≤ n ∧ n ≤ 127 ∧ -64 ≤ qp ∧ qp ≤ 63 ∧
      pre = max 1 (min 126 (m * max 0 (min 51 qp) / 16 + n)) ∧ pre = 63) ∧
    (∃ m n qp pre : Int, -128 ≤ m ∧ m ≤ 127 ∧ -128 ≤ n ∧ n ≤ 127 ∧ -64 ≤ qp ∧ qp ≤ 63 ∧
      pre = max 1 (min 126 (m * max 0 (min 51 qp) / 16 + n)) ∧ pre = 64) :=
  ⟨⟨0, 63, -64, 63, by decide⟩, ⟨20, 1, 63, 64, by decide⟩⟩

/-! ### Witnesses: binarizations -/

/-- V114 at the largest value. -/
theorem test_meets_UReturnsTheUnaryCount : ∃ (s t : State) (v : Nat), s.FAULT = .none ∧ s.engState = .active ∧
    s.ctxValid = true ∧ v < 10000 ∧ fetchesBins 0x08#6 false [] (unaryBins v) s = some t ∧ v = 9999 := by
  obtain ⟨t, h⟩ := fetches_114 0x08#6
  exact ⟨start114, t, 9999, rfl, rfl, rfl, by decide, h, rfl⟩
set_option exponentiation.threshold 10000 in
/-- V114 again, with the quotient of its 10000 bits by the range. -/
theorem test_meets_UnaryCommandsOnBypassBins : ∃ (s : State) (v n : Nat) (rest : List CselAnswer),
    s.FAULT = .none ∧ s.engState = .active ∧ s.ctxValid = true ∧ EngineInv s ∧ v < 10000 ∧ n = v + 1 ∧
    n ≤ s.bits.length ∧ s.cselAns = List.replicate n 1#12 ++ rest ∧
    (s.codIOffset.toNat * 2 ^ n + msbValue (s.bits.take n)) / s.codIRange.toNat = 2 ^ n - 2 ∧ v = 9999 := by
  have hl : start114.bits.length = 10000 := by
    change (List.replicate 9991 true ++ tail114).length = 10000
    rw [List.length_append, List.length_replicate]; rfl
  refine ⟨start114, 9999, 9991 + 9, [], rfl, rfl, rfl, ?_, by decide, rfl, hl.ge, (List.append_nil _).symm, ?_, rfl⟩
  · exact ⟨fun _ => by decide, fun h => absurd h (by decide), fun h => absurd h (by decide)⟩
  · rw [List.take_of_length_le hl.le]
    have hb : msbValue start114.bits = (2 ^ 9991 - 1) * 2 ^ 9 + 1 := by
      rw [show start114.bits = List.replicate 9991 true ++ tail114 from rfl, msbValue_append, msbValue_ones,
        show tail114.length = 9 from rfl, show msbValue tail114 = 1 from rfl]
    have hp := Nat.pow_add 2 9991 9
    have ho : start114.codIOffset.toNat = 509 := rfl
    have hr : start114.codIRange.toNat = 510 := rfl
    have h1 := Nat.one_le_two_pow (n := 9991)
    rw [hb, hp, ho, hr]
    rw [show 2 ^ 9 = 512 from rfl]
    generalize 2 ^ 9991 = x at h1 ⊢
    omega
/-- V43, and an UEGK whose prefix stops one below its bound. -/
theorem test_meets_UnaryCommandsOnBypassBins_uegk : ∃ (s : State) (v n : Nat) (rest : List CselAnswer) (sgn : Bool)
    (uc : BitVec 8), s.FAULT = .none ∧ s.engState = .active ∧ s.ctxValid = true ∧ EngineInv s ∧ v < 10000 ∧ n = v + 1 ∧
    n ≤ s.bits.length ∧ s.cselAns = List.replicate n 1#12 ++ rest ∧
    (s.codIOffset.toNat * 2 ^ n + msbValue (s.bits.take n)) / s.codIRange.toNat = 2 ^ n - 2 ∧ v + 1 = uc.toNat ∧
    (sgn = false ∨ v = 0) :=
  ⟨slice 14 0b11110111000001 [] [1, 1, 1, 1, 1], 4, 5, [], false, 5#8, by unfold EngineInv; decide⟩
/-- V111 and V113. -/
theorem test_meets_UnaryRunsFaultAtTheCeiling (opc : Opcode) : ∃ s t : State, s.FAULT = .none ∧ s.engState = .active ∧
    s.ctxValid = true ∧ fetchesBins opc false [] (List.replicate 10000 true) s = some t := by
  obtain ⟨reqs, h⟩ := fetches_ones opc 10000 [] (ones509 (List.replicate 10000 true) (List.replicate 10000 1#12)) [] []
    (List.append_nil _).symm (List.append_nil _).symm rfl rfl rfl
  exact ⟨_, _, rfl, rfl, rfl, h⟩
theorem test_meets_UnaryRunsFaultAtTheCeiling_tu : ∃ cmax : BitVec 16, 10000 < cmax.toNat := ⟨10001#16, by decide⟩
theorem test_meets_TuReturnsTheTruncatedCount_below : ∃ (s t : State) (cmax : BitVec 16) (v : Nat), s.FAULT = .none ∧
    s.engState = .active ∧ s.ctxValid = true ∧ v + 1 = cmax.toNat ∧ v < 10000 ∧
    fetchesBins 0x09#6 false [] (unaryBins v) s = some t := by
  obtain ⟨t, h⟩ := fetches_114 0x09#6
  exact ⟨start114, t, 10000#16, 9999, rfl, rfl, rfl, rfl, by decide, h⟩
/-- V112, at the ceiling itself. -/
theorem test_meets_TuReturnsTheTruncatedCount_saturated : ∃ (s t : State) (cmax : BitVec 16), s.FAULT = .none ∧
    s.engState = .active ∧ s.ctxValid = true ∧ cmax.toNat = 10000 ∧
    fetchesBins 0x09#6 false [] (List.replicate cmax.toNat true) s = some t := by
  obtain ⟨s, t, h1, h2, h3, h⟩ := test_meets_UnaryRunsFaultAtTheCeiling 0x09#6
  exact ⟨s, t, 10000#16, h1, h2, h3, rfl, h⟩
theorem test_meets_FlReadsLeastSignificantFirst :
    (∃ (s t : State) (cmax : BitVec 16) (bins : List Bool), s.FAULT = .none ∧ s.engState = .active ∧ s.ctxValid = true ∧
      cmax.toNat + 1 ≤ 2 ^ bins.length ∧ (∀ n : Nat, cmax.toNat + 1 ≤ 2 ^ n → bins.length ≤ n) ∧
      fetchesBins 0x0A#6 false [] bins s = some t ∧ cmax = 65535#16) ∧
    (∃ (s t : State) (cmax : BitVec 16) (bins : List Bool), s.FAULT = .none ∧ s.engState = .active ∧ s.ctxValid = true ∧
      cmax.toNat + 1 ≤ 2 ^ bins.length ∧ (∀ n : Nat, cmax.toNat + 1 ≤ 2 ^ n → bins.length ≤ n) ∧
      fetchesBins 0x0A#6 false [] bins s = some t ∧ cmax = 0#16) := by
  constructor
  · obtain ⟨t, h⟩ := some_of (o := fetchesBins 0x0A#6 false [] (List.replicate 16 true)
      (ones509 (List.replicate 16 true) (List.replicate 16 1#12))) (by decide +kernel)
    refine ⟨_, t, 65535#16, _, rfl, rfl, rfl, by decide, fun n hn => ?_, h, rfl⟩
    change 16 ≤ n
    by_contra hlt
    have : 2 ^ n ≤ 2 ^ 15 := Nat.pow_le_pow_right (by decide) (by omega)
    have : (65535#16).toNat = 65535 := rfl
    omega
  · exact ⟨ones509 [] [], _, 0#16, [], rfl, rfl, rfl, by decide, fun n _ => Nat.zero_le n, rfl, rfl⟩
/-- V48: the largest prefix value below UC = 3, with and without a sign bin. -/
theorem test_meets_UegkBelowSaturation : ∃ (s t u : State) (uc : BitVec 8) (v : Nat) (b : Bool), s.FAULT = .none ∧
    s.engState = .active ∧ s.ctxValid = true ∧ v + 1 = uc.toNat ∧ v ≠ 0 ∧
    fetchesBins 0x0B#6 false [] (unaryBins v) s = some t ∧ decodesBins [.byp] [b] t = some u := by
  have h := some_of (o := (fetchesBins 0x0B#6 false [] (unaryBins 2)
    (slice 13 0b1001111111111 [(40, 12, 1), (43, 20, 1), (44, 23, 1)] [ansDec 40, ansDec 43, ansDec 44])).bind
      (decodesBins [.byp] [true])) (by decide +kernel)
  obtain ⟨u, h⟩ := h
  obtain ⟨t, h1, h2⟩ := Option.bind_eq_some_iff.1 h
  exact ⟨_, t, u, 3#8, 2, true, rfl, rfl, rfl, rfl, by decide, h1, h2⟩
theorem test_meets_UegkBelowSaturation_zero : ∃ (s t : State) (uc : BitVec 8) (v : Nat), s.FAULT = .none ∧
    s.engState = .active ∧ s.ctxValid = true ∧ v < uc.toNat ∧ v = 0 ∧
    fetchesBins 0x0B#6 false [] (unaryBins v) s = some t := by
  obtain ⟨t, h⟩ := some_of (o := fetchesBins 0x0B#6 false [] (unaryBins 0)
    { block .active 510 100 0 [false] with cselAns := [1#12] }) (by decide +kernel)
  exact ⟨_, t, 1#8, 0, rfl, rfl, rfl, by decide, rfl, h⟩
/-- K = 15 and an escape run of 8, the longest: order 23. A long division gives the bits. -/
theorem test_meets_UegkWithSuffix : ∃ (s t u w : State) (k : BitVec 4) (uc : BitVec 8) (j m : Nat) (x : List Bool) (b : Bool),
    s.FAULT = .none ∧ s.engState = .active ∧ s.ctxValid = true ∧ k.toNat + j = 23 ∧ x.length = k.toNat + j ∧
    m = uc.toNat + 2 ^ k.toNat * (2 ^ j - 1) + msbValue x ∧
    fetchesBins 0x0B#6 false [] (List.replicate uc.toNat true) s = some t ∧
    decodesBins (List.replicate (j + 1 + (k.toNat + j)) .byp) (List.replicate j true ++ false :: x) t = some u ∧
    m ≠ 0 ∧ decodesBins [.byp] [b] u = some w := by
  have h := some_of (o := (decodesBins (List.replicate 32 .byp) (List.replicate 8 true ++ false :: List.replicate 23 true)
    (block .active 510 509 0 (List.replicate 8 false ++ List.replicate 25 true))).bind (decodesBins [.byp] [true]))
    (by decide +kernel)
  obtain ⟨w, h⟩ := h
  obtain ⟨u, h1, h2⟩ := Option.bind_eq_some_iff.1 h
  exact ⟨_, _, u, w, 15#4, 0#8, 8, _, List.replicate 23 true, true, rfl, rfl, rfl, rfl, rfl, rfl, rfl, h1, by decide, h2⟩
/-- V68, from K = 0, and V69, from K = 15. -/
theorem test_meets_UegkEscapeFaultsAtItsCeiling : ∀ k ∈ [0#4, 15#4], ∃ (s t u : State) (uc : BitVec 8), s.FAULT = .none ∧
    s.engState = .active ∧ s.ctxValid = true ∧ fetchesBins 0x0B#6 false [] (List.replicate uc.toNat true) s = some t ∧
    decodesBins (List.replicate (24 - k.toNat) .byp) (List.replicate (24 - k.toNat) true) t = some u := by
  intro k hk
  have : ∃ u, decodesBins (List.replicate (24 - k.toNat) .byp) (List.replicate (24 - k.toNat) true)
      (block .active 510 509 9 (bitsOf 25 33554431)) = some u := by
    apply some_of
    revert k
    decide +kernel
  obtain ⟨u, h⟩ := this
  exact ⟨_, _, u, 0#8, rfl, rfl, rfl, rfl, h⟩
theorem test_meets_UegkResultRange : ∃ (i : Instr) (s t : State), s.FAULT = .none ∧ exec i s = .next t ∧
    (i = .uegk true 3#4 9#8 ∧ s.engState = .active ∧ s.ctxValid = true ∧ s.wait = none ∧ t.FAULT = .none ∧ t.wait = none) :=
  ⟨_, slice 13 0b1001111111111 [(40, 12, 1), (43, 20, 1), (44, 23, 1)] [ansDec 40, ansDec 43, ansDec 44], _, rfl,
    exec_eq _ _, rfl, rfl, rfl, rfl, by decide +kernel⟩
/-- V114's bins, an odd codeNum, and V43's, an even one. -/
theorem test_meets_QpdMapsTheCodeNumber :
    (∃ (s t : State) (c : Nat), s.FAULT = .none ∧ s.engState = .active ∧ s.ctxValid = true ∧ c < 10000 ∧
      fetchesBins 0x0C#6 false [] (unaryBins c) s = some t ∧ c % 2 = 1) ∧
    (∃ (s t : State) (c : Nat), s.FAULT = .none ∧ s.engState = .active ∧ s.ctxValid = true ∧ c < 10000 ∧
      fetchesBins 0x0C#6 false [] (unaryBins c) s = some t ∧ c % 2 = 0) := by
  constructor
  · obtain ⟨t, h⟩ := fetches_114 0x0C#6
    exact ⟨start114, t, 9999, rfl, rfl, rfl, by decide, h, rfl⟩
  · obtain ⟨t, h⟩ := some_of (o := fetchesBins 0x0C#6 false [] (unaryBins 4)
      (slice 14 0b11110111000001 [] [1, 1, 1, 1, 1])) (by decide +kernel)
    exact ⟨_, t, 4, rfl, rfl, rfl, by decide, h, rfl⟩
theorem test_meets_QpdMapIsABijection : ∃ (c : Nat) (v : Int), c < 10000 ∧ c = 9999 ∧ -4999 ≤ v ∧ v ≤ 5000 ∧ v = -4999 :=
  ⟨9999, -4999, by decide⟩
/-- Bypass bins give four luma bins of 1 and each of the three chroma codes; the divisions 30, 62 and 63 times 510. -/
theorem test_meets_CbpComposesLumaAndChroma : ∀ p ∈ [(0, [false]), (1, [true, false]), (2, [true, true])],
    ∃ (s t u : State) (luma : Nat), s.FAULT = .none ∧ s.engState = .active ∧ s.ctxValid = true ∧
      luma = true.toNat + 2 * true.toNat + 4 * true.toNat + 8 * true.toNat ∧
      fetchesBins 0x0D#6 false [] [true, true, true, true] s = some t ∧ fetchesBins 0x0D#6 true [] p.2 t = some u := by
  have key : ∀ q ∈ [([false], 478, 5, 4), ([true, false], 494, 6, 4), ([true, true], 502, 6, 2)],
      ((fetchesBins 0x0D#6 false [] [true, true, true, true] { block .active 510 q.2.1 0 (bitsOf q.2.2.1 q.2.2.2) with
        cselAns := List.replicate 6 1#12 }).bind (fetchesBins 0x0D#6 true [] q.1)).isSome = true := by decide +kernel
  have fin : ∀ q ∈ [([false], 478, 5, 4), ([true, false], 494, 6, 4), ([true, true], 502, 6, 2)],
      ∃ (s t u : State) (luma : Nat), s.FAULT = .none ∧ s.engState = .active ∧ s.ctxValid = true ∧
      luma = true.toNat + 2 * true.toNat + 4 * true.toNat + 8 * true.toNat ∧
      fetchesBins 0x0D#6 false [] [true, true, true, true] s = some t ∧ fetchesBins 0x0D#6 true [] q.1 t = some u := by
    intro q hq
    obtain ⟨u, h⟩ := some_of (key q hq)
    obtain ⟨t, h1, h2⟩ := Option.bind_eq_some_iff.1 h
    exact ⟨_, t, u, 15, rfl, rfl, rfl, rfl, h1, h2⟩
  intro p hp
  simp only [List.mem_cons, List.not_mem_nil, or_false] at hp
  obtain rfl | rfl | rfl := hp
  · exact fin _ (.head _)
  · exact fin _ (.tail _ (.head _))
  · exact fin _ (.tail _ (.tail _ (.head _)))

/-- A block with `n` answers BYP and the bits that `n` bins can need (R105). -/
def stocked (n : Nat) : State := ones509 (List.replicate (7 * n) true) (List.replicate n 1#12)

theorem engineInv_ones509 (bits : List Bool) (answers : List CselAnswer) : EngineInv (ones509 bits answers) :=
  ⟨fun _ => (by decide : 256 ≤ 510 ∧ 510 ≤ 510 ∧ 509 < 510), fun h => absurd h (EngState.noConfusion ·),
    fun h => absurd h (EngState.noConfusion ·)⟩

theorem test_meets_QueriedCommandsComplete : ∀ n ∈ [0, 6, 16, 10000], ∃ s : State, s.FAULT = .none ∧ s.engState = .active ∧
    s.ctxValid = true ∧ EngineInv s ∧ n ≤ s.cselAns.length ∧ 7 * n ≤ s.bits.length ∧
    (∀ a ∈ s.cselAns.take n, answerKind a = some .byp ∨ ∃ c, answerKind a = some (.dec c)) := by
  intro n _
  refine ⟨stocked n, rfl, rfl, rfl, engineInv_ones509 _ _, (List.length_replicate (a := 1#12)).ge,
    (List.length_replicate (a := true)).ge, fun a ha => ?_⟩
  rw [(List.mem_replicate.1 (List.mem_of_mem_take ha)).2]
  exact .inl (by decide)
theorem test_meets_QueriedCommandsComplete_operands : (10000#16).toNat = 10000 ∧ (65535#16).toNat < 2 ^ 16 ∧
    (0#16).toNat < 2 ^ 0 := by decide

/-- One command of each row that asks first, at the least operand that has a bin to ask for. -/
theorem test_meets_ReservedAnswerFaultsBeforeAnyBit : ∀ i ∈ [Instr.u, .tu 1#16, .fl 1#16, .uegk true 0#4 1#8, .qpd, .cbp 0#2],
    ∃ (s : State) (a : CselAnswer) (rest : List CselAnswer), Ready i s ∧ AsksFirst i ∧ s.cselAns = a :: rest ∧
      a.extractLsb' 0 2 = 3#2 := by
  intro i hi
  refine ⟨ones509 [] [0xFFF#12], 0xFFF#12, [], ?_, ?_, rfl, by decide⟩
  · revert i; unfold Ready; decide
  · simp only [List.mem_cons, List.not_mem_nil, or_false] at hi
    obtain rfl | rfl | rfl | rfl | rfl | rfl := hi <;> simp [AsksFirst]
/-- V110, at the least offset with a terminate bin of 1, and the least operands that ask twice. -/
theorem test_meets_BinAfterTerminateFaults :
    (∃ (s : State) (a : CselAnswer) (rest : List CselAnswer), s.FAULT = .none ∧ s.engState = .active ∧ s.ctxValid = true ∧
      EngineInv s ∧ s.codIRange.toNat - 2 ≤ s.codIOffset.toNat ∧ s.cselAns = 2#12 :: a :: rest ∧
      s.codIRange.toNat - 2 = s.codIOffset.toNat) ∧ 2 ≤ (2#16).toNat ∧ 2 ≤ (2#8).toNat :=
  ⟨⟨{ block .active 300 298 0 [] with cselAns := [2#12, 2#12] }, 2#12, [], by unfold EngineInv; decide⟩, by decide, by decide⟩
theorem test_meets_UnansweredQueryHoldsForEver :
    ∀ i ∈ [Instr.u, .tu 1#16, .fl 1#16, .uegk true 0#4 1#8, .qpd, .cbp 0#2],
    ∃ s : State, Ready i s ∧ AsksFirst i ∧ s.cselAns = [] := by
  intro i hi
  refine ⟨ones509 [] [], ?_, ?_, rfl⟩
  · revert i; unfold Ready; decide
  · simp only [List.mem_cons, List.not_mem_nil, or_false] at hi
    obtain rfl | rfl | rfl | rfl | rfl | rfl := hi <;> simp [AsksFirst]

/-! ### Witnesses: trees -/

/-- What a TreeReturns clause supposes, of a block after a slice start: its bins decode to the codeword. -/
theorem tree_meets (i : Instr) (t : BinTree) (s : State) (w : Nat × List Bool × List BinKind) (hr : Ready i s)
    (hw : w ∈ codewords t) (hd : (decodesBins w.2.2 w.2.1 s).isSome = true) :
    ∃ (s u : State) (v : Nat) (bins : List Bool) (kinds : List BinKind), Ready i s ∧ (v, bins, kinds) ∈ codewords t ∧
      decodesBins kinds bins s = some u := by
  obtain ⟨u, h⟩ := some_of hd
  exact ⟨s, u, w.1, w.2.1, w.2.2, hr, hw, h⟩

/-- The vectors V70, V89, V90, V91, V83 and V85. -/
theorem test_meets_TreeCommandsReturnTheirCodeword :
    (∃ (s u : State) (v : Nat) (bins : List Bool) (kinds : List BinKind), Ready (.mbtI 0#2) s ∧
      (v, bins, kinds) ∈ codewords (mbtITree 0#2) ∧ decodesBins kinds bins s = some u) ∧
    (∃ (s u : State) (v : Nat) (bins : List Bool) (kinds : List BinKind), Ready (.mbtSI 1#2 2#2) s ∧
      (v, bins, kinds) ∈ codewords (mbtSITree 1#2 2#2) ∧ decodesBins kinds bins s = some u) ∧
    (∃ (s u : State) (v : Nat) (bins : List Bool) (kinds : List BinKind), Ready .mbtP s ∧
      (v, bins, kinds) ∈ codewords mbtPTree ∧ decodesBins kinds bins s = some u) ∧
    (∃ (s u : State) (v : Nat) (bins : List Bool) (kinds : List BinKind), Ready (.mbtB 1#2) s ∧
      (v, bins, kinds) ∈ codewords (mbtBTree 1#2) ∧ decodesBins kinds bins s = some u) ∧
    (∃ (s u : State) (v : Nat) (bins : List Bool) (kinds : List BinKind), Ready .smbtP s ∧
      (v, bins, kinds) ∈ codewords smbtPTree ∧ decodesBins kinds bins s = some u) ∧
    (∃ (s u : State) (v : Nat) (bins : List Bool) (kinds : List BinKind), Ready .smbtB s ∧
      (v, bins, kinds) ∈ codewords smbtBTree ∧ decodesBins kinds bins s = some u) := by
  refine ⟨?_, ?_, ?_, ?_, ?_, ?_⟩
  · exact tree_meets _ _ (slice 13 0b0011101101101 [(3, 1, 1), (6, 1, 1), (7, 4, 1), (9, 9, 1), (10, 3, 1)] [])
      (row 16 [1, 0, 1, 0, 1, 1] [3, 1024, 6, 7, 9, 10]) (by unfold Ready; decide) (by decide) (by decide +kernel)
  · exact tree_meets _ _ (slice 11 0b11111110111 [(1, 3, 0), (5, 1, 0)] []) (row 26 [1, 1, 1] [1, 5, 1024])
      (by unfold Ready; decide) (by decide) (by decide +kernel)
  · exact tree_meets _ _ (slice 11 0b11111110111 [(14, 6, 0), (17, 6, 0)] []) (row 30 [1, 1, 1] [14, 17, 1024])
      (by unfold Ready; decide) (by decide) (by decide +kernel)
  · exact tree_meets _ _ (slice 13 0b0100001100111 [(28, 12, 1), (30, 9, 1), (31, 12, 1), (32, 15, 1)] [])
      (row 48 [1, 1, 1, 1, 0, 1, 1, 1] [28, 30, 31, 32, 32, 32, 32, 1024])
      (by unfold Ready; decide) (by decide) (by decide +kernel)
  · exact tree_meets _ _ (slice 11 0b10011101011 [(21, 4, 0), (22, 1, 0), (23, 0, 1)] []) (row 3 [0, 1, 0] [21, 22, 23])
      (by unfold Ready; decide) (by decide) (by decide +kernel)
  · exact tree_meets _ _ (slice 21 0b111111101100111001111 [(36, 25, 0), (37, 22, 0), (38, 20, 0), (39, 17, 0)] [])
      (row 10 [1, 1, 1, 0, 1, 1] [36, 37, 38, 39, 39, 39]) (by unfold Ready; decide) (by decide) (by decide +kernel)
/-- 91 bits, what the deepest table (13 bins) can need; the reserved increment excluded. -/
theorem test_meets_TreeCommandsComplete :
    ∀ p ∈ [(Instr.mbtI 2#2, mbtITree 2#2), (.mbtSI 2#2 2#2, mbtSITree 2#2 2#2), (.mbtP, mbtPTree), (.mbtB 2#2, mbtBTree 2#2),
      (.smbtP, smbtPTree), (.smbtB, smbtBTree)],
    ∃ s : State, Ready p.1 s ∧ EngineInv s ∧ 7 * treeDepth p.2 ≤ s.bits.length := by
  intro p hp
  refine ⟨stocked 13, ?_, engineInv_ones509 _ _, ?_⟩
  · revert p; unfold Ready; decide
  · rw [show (stocked 13).bits.length = 91 from rfl]
    revert p; decide
theorem test_meets_TreesAreCompletePrefixCodes : ∃ (t : BinTree) (bins : List Bool), treeDepth t = bins.length :=
  ⟨mbtBTree 0#2, List.replicate 13 false, by decide⟩

/-! ### Witnesses: read-back and the machine as a whole -/

theorem test_meets_CtxrdReadsOneEntry : ∃ (s : State) (c : CtxIdx), s.FAULT = .none ∧ s.ctxValid = true ∧ c = 1023#10 :=
  ⟨block .uninit 0 0 0 [], 1023#10, by decide⟩

/-- What the frame statements suppose of a command that completes. -/
theorem frame_meets (i : Instr) (s : State) (hr : Ready i s) (h : (runCommand i (commandBody i) s).FAULT = .none) :
    ∃ s t : State, Ready i s ∧ exec i s = .next t ∧ t.FAULT = .none := ⟨s, _, hr, exec_eq i s, h⟩

/-- V16, V28 and V35, and a BYP that waits on a bit source that never answers. -/
theorem test_meets_FrameOfEngineBins :
    (∃ s t : State, Ready (.dec 0#10) s ∧ exec (.dec 0#10) s = .next t ∧ t.FAULT = .none) ∧
    (∃ s t : State, Ready .byp s ∧ exec .byp s = .next t ∧ t.FAULT = .none) ∧
    (∃ s t : State, Ready .trm s ∧ exec .trm s = .next t ∧ t.FAULT = .none) ∧
    (∃ s t : State, Ready .byp s ∧ exec .byp s = .next t ∧ t.FAULT = .none ∧ t = s.waitOn .bit) := by
  refine ⟨frame_meets _ (block .active 510 300 0 [false]) (by unfold Ready; decide) (by decide +kernel),
    frame_meets _ (block .active 510 509 0 [true]) (by unfold Ready; decide) (by decide),
    frame_meets _ (block .active 300 298 0 []) (by unfold Ready; decide) (by decide),
    { block .active 510 509 0 [] with bitEnd := .silent }, _, by unfold Ready; decide, rfl, rfl, rfl⟩
/-- Each row at its least operand and at a large one, all of whose bins are bypass bins. -/
theorem test_meets_FrameOfQueriedBinarizations :
    ∀ i ∈ [Instr.u, .tu 0#16, .tu 65535#16, .fl 0#16, .fl 65535#16, .uegk false 0#4 0#8, .uegk true 3#4 9#8, .qpd, .cbp 0#2,
      .cbp 1#2], ∃ s t : State, Ready i s ∧ exec i s = .next t ∧ t.FAULT = .none := by
  intro i hi
  refine frame_meets i { block .active 510 100 0 (List.replicate 40 false) with cselAns := List.replicate 16 1#12 } ?_ ?_
  · revert i; unfold Ready; decide
  · revert i; decide +kernel
/-- A U that waits for an answer. -/
theorem test_meets_FrameOfQueriedBinarizations_wait : ∃ s t : State, Ready .u s ∧ exec .u s = .next t ∧ t.FAULT = .none ∧
    t.wait = some .csel :=
  ⟨ones509 [] [], _, by unfold Ready; decide, exec_eq _ _, rfl, rfl⟩
theorem test_meets_FrameOfTreeCommands :
    ∀ i ∈ [Instr.mbtI 2#2, .mbtSI 2#2 2#2, .mbtP, .mbtB 2#2, .smbtP, .smbtB],
    ∃ s t : State, Ready i s ∧ exec i s = .next t ∧ t.FAULT = .none := by
  intro i hi
  refine frame_meets i (stocked 13) ?_ ?_
  · revert i; unfold Ready; decide
  · revert i; decide +kernel
theorem test_meets_FrameOfEnginitAndAlign :
    ∀ i ∈ [Instr.enginit, .align true, .align false],
    ∃ s t : State, Ready i s ∧ exec i s = .next t ∧ t.FAULT = .none := by
  intro i hi
  refine frame_meets i (block .uninit 0 0 8 (bitsOf 9 509)) ?_ ?_
  · revert i; unfold Ready; decide
  · revert i; decide
theorem test_meets_BitsAreConsumedInOrder : ∃ s t : State, exec (.ctxrd 0#10) s = .next t ∧ s.bits = [true] :=
  ⟨block .uninit 0 0 0 [true], _, exec_eq _ _, rfl⟩
theorem test_meets_OneResponsePerCommand :
    (∃ (i : Instr) (s t : State), s.wait = none ∧ exec i s = .next t ∧ t.wait = none) ∧
    (∃ (i : Instr) (s t : State), s.wait = none ∧ exec i s = .next t ∧ t.wait ≠ none) :=
  ⟨⟨.byp, block .active 510 509 0 [true], _, rfl, exec_eq _ _, by decide⟩,
    ⟨.u, block .active 510 509 0 [true], _, rfl, exec_eq _ _, by decide⟩⟩
/-- A block that decodes, with a valid store: not the reset state. -/
def decoding : State := { withCtx (block .active 510 509 0 [true]) [(276, 63, 0)] with cmds := [0x14000000#32] }

theorem decoding_ctx (c : CtxIdx) (hc : c ≠ 276#10) : decoding.ctxRead c = ⟨0#6, false⟩ := by
  have h : decoding.ctxRead c = ((block .active 510 509 0 [true]).ctxWrite 276#10 ⟨63#6, false⟩).ctxRead c :=
    ctxRead_congr rfl c
  rw [h, ctxRead_ctxWrite_other _ _ hc]
  simp [State.ctxRead, block, State.reset, resetCtx]

theorem test_meets_EveryStepKeepsTheInvariant : ∃ s t : State, Inv s ∧ step s = .next t ∧ s.engState = .active ∧
    s.ctxValid = true ∧ s.cmds ≠ [] := by
  refine ⟨decoding, _, ⟨fun _ => ?_, ?_, fun _ => ⟨ctxRead_ctxWrite_same _ _ _, fun c hc => ?_⟩⟩, exec_eq .byp _, rfl, rfl,
    by decide⟩
  · exact ⟨fun _ => by decide, fun h => absurd h (by decide), fun h => absurd h (by decide)⟩
  · exact ⟨fun h => absurd rfl h, by decide⟩
  · rw [decoding_ctx c hc]
    decide
theorem run_meets {n : Nat} {a : State} {rsps : List Response}
    (h : (match Host.Core.run Sys2Proof.core n a with
      | .next t => decide ((t : State).rsps = rsps)
      | .fault _ => false
      | .refused _ => false) = true) :
    ∃ t : State, Host.Core.run Sys2Proof.core n a = .next t ∧ t.rsps = rsps := by
  split at h
  · next t e => exact ⟨t, e, of_decide_eq_true h⟩
  · cases h
  · cases h

/-- A fault pending on one side, none on the other; CTXINIT and STATRD. -/
theorem test_meets_SlicesAreIsolated : ∃ (n : Nat) (qp : BitVec 7) (sel : BitVec 2) (words : List Word) (a b a' : State)
    (given : List Response), Idle a ∧ Idle b ∧ a.rom = b.rom ∧ a.bits = b.bits ∧ a.bitEnd = b.bitEnd ∧
    a.alignsLeft = b.alignsLeft ∧ a.pos % 8 = b.pos % 8 ∧ a.cselAns = b.cselAns ∧ a.cmds = encode (.ctxinit qp sel) :: words ∧ b.cmds = a.cmds ∧
    Host.Core.run Sys2Proof.core (n + 1) a = .next a' ∧ a'.rsps = a.rsps ++ given ∧ (∀ r ∈ given, r.status = 0#3) ∧
    a.FAULT ≠ b.FAULT ∧ n = 1 := by
  let a : State := { faulted .structuralViolation with cmds := [0x0400001A#32, 0xF4000000#32], pos := 8 }
  obtain ⟨a', h1, h2⟩ := run_meets (n := 1 + 1) (a := a) (rsps := [⟨0#3, 0#32⟩, ⟨0#3, 0x00100000#32⟩]) (by decide +kernel)
  exact ⟨1, 26#7, 0#2, [0xF4000000#32], a, { State.reset with cmds := [0x0400001A#32, 0xF4000000#32] }, a', _,
    ⟨rfl, rfl⟩, ⟨rfl, rfl⟩, rfl, rfl, rfl, rfl, by decide, rfl, rfl, rfl, h1, h2, by decide, by decide, rfl⟩

end Sys2Proof.Tests
end

section
/-!
PROOFS. The initial value of a context variable (41_probability_state.md, R117): the model's clips and floor shift as the
rule's arithmetic, the two cases of InitCtx, and the range of the product.
-/
namespace Sys2Proof.Machine

/-- Clip3 of R8 for bounds in order, in the library's words. -/
theorem clip3_eq_max_min {lo hi : Int} (h : lo ≤ hi) (v : Int) : clip3 lo hi v = max lo (min hi v) := by
  unfold clip3
  split
  · omega
  · split <;> omega

/-- The shift by 4 of R117 is the floor division by 16 of R8, on negative products too. -/
theorem preCtxState_eq (m n qp : Int) :
    preCtxState m n qp = max 1 (min 126 (m * max 0 (min 51 qp) / 16 + n)) := by
  have hshift (x : Int) : Int.shiftRight x 4 = x / 16 := Int.shiftRight_eq_div_pow x 4
  rw [preCtxState, clip3_eq_max_min (by decide), clip3_eq_max_min (by decide), hshift]

theorem preCtxState_bounds (m n qp : Int) : 1 ≤ preCtxState m n qp ∧ preCtxState m n qp ≤ 126 := by
  rw [preCtxState_eq]
  omega

theorem initCtx_of_pre_le {m n qp : Int} (h : preCtxState m n qp ≤ 63) :
    initCtx m n qp = ⟨BitVec.ofInt 6 (63 - preCtxState m n qp), false⟩ := if_pos h

theorem initCtx_of_le_pre {m n qp : Int} (h : 64 ≤ preCtxState m n qp) :
    initCtx m n qp = ⟨BitVec.ofInt 6 (preCtxState m n qp - 64), true⟩ := if_neg (by omega)

/-- A state number written to the 6 bits of pStateIdx is not wrapped. -/
theorem toNat_ofInt_six {x : Int} (h0 : 0 ≤ x) (h1 : x < 64) : ((BitVec.ofInt 6 x).toNat : Int) = x := by
  rw [BitVec.toNat_ofInt]
  omega

theorem initCtx_fields_of_pre_le {m n qp : Int} (h : preCtxState m n qp ≤ 63) :
    (initCtx m n qp).valMPS = false ∧ ((initCtx m n qp).pStateIdx.toNat : Int) = 63 - preCtxState m n qp := by
  have hpre := (preCtxState_bounds m n qp).1
  rw [initCtx_of_pre_le h]
  exact ⟨rfl, toNat_ofInt_six (by omega) (by omega)⟩

theorem initCtx_fields_of_le_pre {m n qp : Int} (h : 64 ≤ preCtxState m n qp) :
    (initCtx m n qp).valMPS = true ∧ ((initCtx m n qp).pStateIdx.toNat : Int) = preCtxState m n qp - 64 := by
  have hpre := (preCtxState_bounds m n qp).2
  rw [initCtx_of_le_pre h]
  exact ⟨rfl, toNat_ofInt_six (by omega) (by omega)⟩

/-- InitCtx never gives state 63, for any operands (R117). -/
theorem initCtx_pStateIdx_le (m n qp : Int) : (initCtx m n qp).pStateIdx.toNat ≤ 62 := by
  obtain ⟨hlo, hhi⟩ := preCtxState_bounds m n qp
  rcases le_or_gt (preCtxState m n qp) 63 with h | h
  · have hidx := (initCtx_fields_of_pre_le h).2
    omega
  · have hidx := (initCtx_fields_of_le_pre h).2
    omega

/-- The product of R117: m of 8 signed bits times a quantizer of 0..51 is at least -128 * 51 and at most 127 * 51. -/
theorem mul_clipped_qp_bounds {m : Int} (hlo : -128 ≤ m) (hhi : m ≤ 127) (qp : Int) :
    -6528 ≤ m * max 0 (min 51 qp) ∧ m * max 0 (min 51 qp) ≤ 6477 := by
  have hq0 : 0 ≤ max 0 (min 51 qp) := le_max_left _ _
  have hq51 : max 0 (min 51 qp) ≤ 51 := max_le (by decide) (min_le_left _ _)
  have hmulLo := mul_le_mul_of_nonneg_right hlo hq0
  have hmulHi := mul_le_mul_of_nonneg_right hhi hq0
  constructor <;> linarith

/-- Settles O29: the two cases of InitCtx at the preCtxState of R117, which the clip keeps in 1..126. -/
theorem initialContextFormula : Obligations.InitialContextFormula := by
  unfold Obligations.InitialContextFormula
  intro m n qp hmLo hmHi _ _ _ _
  obtain ⟨hprodLo, hprodHi⟩ := mul_clipped_qp_bounds hmLo hmHi qp
  refine ⟨hprodLo, hprodHi, fun pre hpre => ?_⟩
  rw [← preCtxState_eq] at hpre
  subst hpre
  exact ⟨initCtx_fields_of_pre_le, initCtx_fields_of_le_pre, initCtx_pStateIdx_le m n qp⟩

end Sys2Proof.Machine
end

section
/-!
PROOFS. What a step does while a fault is pending (60_exceptions.md, R187, R191), and the codes no step reports (R180, R184): the
step at an idle block, the words a pending fault does not refuse, and the control state and responses through each end of a command.
-/
namespace Sys2Proof

/-! ### The words of CTXINIT and STATRD -/

/-- Everything the check of the reserved operand bits can answer (R72). -/
theorem checkReserved_cases {n : Nat} (resv : BitVec n) (i : Instr) :
    checkReserved resv i = .ok i ∨ checkReserved resv i = .error .reservedOperandBit :=
  ite_eq_or_eq _ _ _

theorem decode_of_opcode_ctxinit {w : Word} (h : opcodeField w = 0x01#6) :
    decode w = checkReserved (w.extractLsb' 9 17) (.ctxinit (w.extractLsb' 0 7) (w.extractLsb' 7 2)) := by
  rw [decode, h]
  rfl

theorem decode_of_opcode_statrd {w : Word} (h : opcodeField w = 0x3D#6) :
    decode w = checkReserved (w.extractLsb' 0 26) .statrd := by
  rw [decode, h]
  rfl

/-- A word with an opcode that no pending fault refuses is that command, or has a reserved operand bit (R187, R191). -/
theorem decode_of_opcode_unrefused {w : Word} (h : opcodeField w = 0x01#6 ∨ opcodeField w = 0x3D#6) :
    ((∃ qp sel, decode w = .ok (.ctxinit qp sel)) ∨ decode w = .ok .statrd) ∨
      decode w = .error .reservedOperandBit := by
  rcases h with h | h
  · rw [decode_of_opcode_ctxinit h]
    exact (checkReserved_cases _ _).imp_left fun e => .inl ⟨_, _, e⟩
  · rw [decode_of_opcode_statrd h]
    exact (checkReserved_cases _ _).imp_left .inr

namespace Machine

/-! ### The step -/

theorem acceptCommand_idle {s : State} {w : Word} {rest : List Word} (hidle : Idle s) (hcmds : s.cmds = w :: rest) :
    acceptCommand s = some (w, { s with cmds := rest }) := by
  obtain ⟨hwait, hheld⟩ := hidle
  simp [acceptCommand, hwait, hheld, hcmds]

/-- The block takes no word, or is idle and takes the first one presented (R30, R32). -/
theorem acceptCommand_cases (s : State) :
    acceptCommand s = none ∨ ∃ w rest, acceptCommand s = some (w, { s with cmds := rest }) := by
  unfold acceptCommand
  split
  · exact .inl rfl
  · split
    · exact .inl rfl
    · exact .inr ⟨_, _, rfl⟩

theorem step_hold {s : State} (h : acceptCommand s = none) : step s = .next s := by
  rw [step, h]

theorem step_command {s s' : State} {w : Word} {i : Instr} (h : acceptCommand s = some (w, s'))
    (hd : decode w = .ok i) : step s = exec i s' := by
  simp only [step, h, hd]

theorem step_illegal {s s' : State} {w : Word} {e : DecodeError} (h : acceptCommand s = some (w, s'))
    (hd : decode w = .error e) : step s = .next (illegalWord w s') := by
  simp only [step, h, hd]

/-! ### Refusal (R187) -/

theorem isRefused_iff {opc : Opcode} {s : State} :
    isRefused opc s = true ↔ s.FAULT ≠ .none ∧ opc ≠ 0x01#6 ∧ opc ≠ 0x3D#6 := by
  simp [isRefused, and_assoc]

theorem illegalWord_refused {w : Word} {s : State} (h : isRefused (opcodeField w) s = true) :
    illegalWord w s = refuse s := if_pos h

theorem illegalWord_not_refused {w : Word} {s : State} (h : ¬ isRefused (opcodeField w) s = true) :
    illegalWord w s = enterFault .invalidDerivationRequest s := if_neg h

/-- A word whose opcode is refused is refused, legal or not: refusal is step 1 of R188. -/
theorem step_refused {s s' : State} {w : Word} (h : acceptCommand s = some (w, s'))
    (href : isRefused (opcodeField w) s' = true) : step s = .next (refuse s') := by
  cases hd : decode w with
  | ok i => rw [step_command h hd, exec_eq, runCommand_refused (by rwa [opcode_of_decode hd])]
  | error e => rw [step_illegal h hd, illegalWord_refused href]

/-- Settles O10: the word is refused before it is decoded further (`step_refused`). -/
theorem pendingFaultRefusesEveryOtherWord : Obligations.PendingFaultRefusesEveryOtherWord := by
  unfold Obligations.PendingFaultRefusesEveryOtherWord
  intro s w rest hidle hcmds hpending hctxinit hstatrd
  exact step_refused (acceptCommand_idle hidle hcmds) (isRefused_iff.2 ⟨hpending, hctxinit, hstatrd⟩)

/-! ### Nesting (R191) -/

/-- CTXINIT executes in every state, whatever fault is pending (R119, R187). -/
theorem exec_ctxinit_ok (qp : BitVec 7) (sel : BitVec 2) (s : State) :
    exec (.ctxinit qp sel) s = .next ((freshSlice qp sel s).respond 0#3 0) :=
  exec_ready ⟨by simp [isRefused, opcode], rfl, rfl⟩

/-- STATRD executes in every state, whatever fault is pending (R175, R187). -/
theorem exec_statrd_ok (s : State) : exec .statrd s = .next (s.respond 0#3 (statusWord s)) :=
  exec_ready ⟨by simp [isRefused, opcode], rfl, rfl⟩

/-- An illegal word with an opcode that is not refused is a fault of its own (R191). -/
theorem step_illegal_unrefused {s s' : State} {w : Word} {e : DecodeError} (h : acceptCommand s = some (w, s'))
    (hopc : opcodeField w = 0x01#6 ∨ opcodeField w = 0x3D#6) (hd : decode w = .error e) :
    step s = .next (enterFault .invalidDerivationRequest s') := by
  rw [step_illegal h hd, illegalWord_not_refused]
  intro href
  obtain ⟨-, hctxinit, hstatrd⟩ := isRefused_iff.1 href
  exact hopc.elim hctxinit hstatrd

/-- Settles O11: by the opcode, then by what the word decodes to. -/
theorem firstFaultIsKept : Obligations.FirstFaultIsKept := by
  unfold Obligations.FirstFaultIsKept
  intro s t w rest hidle hcmds hpending hstep
  have haccept := acceptCommand_idle hidle hcmds
  by_cases hopc : opcodeField w = 0x01#6 ∨ opcodeField w = 0x3D#6
  · right
    obtain hcommand | hmalformed := decode_of_opcode_unrefused hopc
    · refine .inl ⟨hcommand, ?_⟩
      obtain ⟨qp, sel, hd⟩ | hd := hcommand
      · rw [step_command haccept hd, exec_ctxinit_ok] at hstep
        cases hstep
        exact ⟨_, rfl⟩
      · rw [step_command haccept hd, exec_statrd_ok] at hstep
        cases hstep
        exact ⟨_, rfl⟩
    · rw [step_illegal_unrefused haccept hopc hmalformed] at hstep
      cases hstep
      have hkept : keepFirst s.FAULT .invalidDerivationRequest = s.FAULT := keepFirst_pending _ hpending
      exact .inr ⟨hopc, hmalformed, rfl, rfl, hkept, rfl, rfl, rfl, rfl, rfl⟩
  · obtain ⟨hctxinit, hstatrd⟩ := not_or.1 hopc
    rw [step_refused haccept (isRefused_iff.2 ⟨hpending, hctxinit, hstatrd⟩)] at hstep
    cases hstep
    exact .inl ⟨hctxinit, hstatrd, rfl⟩

/-! ### The codes no step reports (R180, R184) -/

/-- From `s` to `t` no code 4, 6 or 7 was reported: FAULT does not hold code 4, and every new response carries another code. -/
def ReportsRaisedCodes (s t : State) : Prop :=
  t.FAULT ≠ .unsupportedFeature ∧
    ∀ r ∈ t.rsps, r ∈ s.rsps ∨ (r.status ≠ 4#3 ∧ r.status ≠ 6#3 ∧ r.status ≠ 7#3)

theorem faultCode_raised {f : FaultCode} (h : f ≠ .unsupportedFeature) :
    faultCode f ≠ 4#3 ∧ faultCode f ≠ 6#3 ∧ faultCode f ≠ 7#3 := by
  cases f with
  | unsupportedFeature => exact absurd rfl h
  | none | streamExhaustion | structuralViolation | unboundedLoopDetected | invalidDerivationRequest => decide

/-- Whichever of the two codes is kept (R191), it is not 4 when neither is. -/
theorem keepFirst_ne {held new code : FaultCode} (hheld : held ≠ code) (hnew : new ≠ code) :
    keepFirst held new ≠ code := by
  unfold keepFirst
  split
  · exact hnew
  · exact hheld

theorem ReportsRaisedCodes.of_silent {s t : State} (hfault : t.FAULT ≠ .unsupportedFeature) (hrsps : t.rsps = s.rsps) :
    ReportsRaisedCodes s t :=
  ⟨hfault, fun _ hr => .inl (hrsps ▸ hr)⟩

/-- One response more, with a code other than 4. -/
theorem ReportsRaisedCodes.respond {s t : State} (h : ReportsRaisedCodes s t) {f : FaultCode}
    (hf : f ≠ .unsupportedFeature) (v : Word) : ReportsRaisedCodes s (t.respond (faultCode f) v) := by
  obtain ⟨hfault, hrsps⟩ := h
  refine ⟨hfault, fun r hr => ?_⟩
  obtain hr | rfl := List.mem_append.1 hr |>.imp_right List.mem_singleton.1
  · exact hrsps r hr
  · exact .inr (faultCode_raised hf)

/-- A refusal carries the code held (R187). -/
theorem ReportsRaisedCodes.refuse {s t : State} (h : ReportsRaisedCodes s t) : ReportsRaisedCodes s (refuse t) :=
  h.respond h.1 0

/-- Fault entry by another code holds the first fault and carries its own code (R186, R191). -/
theorem ReportsRaisedCodes.enterFault {s t : State} (h : ReportsRaisedCodes s t) {f : FaultCode}
    (hf : f ≠ .unsupportedFeature) : ReportsRaisedCodes s (enterFault f t) := by
  obtain ⟨hfault, hrsps⟩ := h
  have hentered : ReportsRaisedCodes s (t.faultRegisters f).forgetCtx := ⟨keepFirst_ne hfault hf, hrsps⟩
  exact hentered.respond hf 0

/-- The fault code while a body runs: CTXINIT clears it, no other body writes it (R26). -/
theorem commandBody_fault {i : Instr} {s : State} (hp : precondition i s = true) :
    (commandBody i s).state.FAULT = s.FAULT ∨ (commandBody i s).state.FAULT = .none := by
  by_cases hctxinit : ∃ qp sel, i = .ctxinit qp sel
  · obtain ⟨qp, sel, rfl⟩ := hctxinit
    exact .inr rfl
  left
  by_cases henginit : i = .enginit
  · subst henginit
    have h := readBits_frame [] 9 0 s
    rw [commandBody]
    obtain ⟨v, t, e, -, e'⟩ | ⟨v, t, e, -, e'⟩ | ⟨f, t, e, e'⟩ | ⟨p, t, e, e'⟩ := enginitBody_cases s <;>
      rw [e] at h <;> rw [e'] <;> exact h.fault
  by_cases halign : ∃ f, i = .align f
  · obtain ⟨f, rfl⟩ := halign
    obtain ⟨taken, asked, -, e⟩ := alignBody_bitPort f s
    rw [e]
  · exact (commandBody_frame (fun qp sel e => hctxinit ⟨qp, sel, e⟩) henginit (fun f e => halign ⟨f, e⟩) hp).fault

/-- No body raises UnsupportedFeature: each alternative of `bodyFaults` names another code (R184). -/
theorem bodyFaults_ne_unsupportedFeature {i : Instr} {f : FaultCode} {t : State} (h : bodyFaults i f t) :
    f ≠ .unsupportedFeature := by
  rintro rfl
  cases i <;> simp [bodyFaults, RunFault, BinFault, StreamEnd] at h

/-- A command's body leaves no code 4 held and puts no response. -/
theorem commandBody_reports {i : Instr} {s : State} (hs : s.FAULT ≠ .unsupportedFeature)
    (hp : precondition i s = true) : ReportsRaisedCodes s (commandBody i s).state := by
  obtain ⟨-, -, -, -, hrsps, -⟩ := commandBody_outside hp
  refine .of_silent ?_ hrsps
  obtain h | h := commandBody_fault hp <;> rw [h]
  · exact hs
  · exact FaultCode.noConfusion

/-- The end of a command: OK, fault entry, or a wait (R78, R186, R32). -/
theorem finish_reports {s : State} {r : Res Word} (h : ReportsRaisedCodes s r.state)
    (hr : Raises (fun f _ => f ≠ .unsupportedFeature) r) : ReportsRaisedCodes s (finish r) := by
  cases r with
  | ok v t => exact h.respond FaultCode.noConfusion v
  | raise f t => exact h.enterFault (hr f t rfl)
  | wait p t => exact h

theorem exec_reports {i : Instr} {s t : State} (hs : s.FAULT ≠ .unsupportedFeature) (h : exec i s = .next t) :
    ReportsRaisedCodes s t := by
  have hrefl : ReportsRaisedCodes s s := .of_silent hs rfl
  obtain ⟨-, rfl⟩ | ⟨-, -, rfl⟩ | ⟨⟨-, -, hp⟩, rfl⟩ := exec_cases h
  · exact hrefl.refuse
  · exact hrefl.enterFault FaultCode.noConfusion
  · exact finish_reports (commandBody_reports hs hp)
      ((commandBody_raises i s).mono fun _ _ => bodyFaults_ne_unsupportedFeature)

theorem illegalWord_reports {s : State} (w : Word) (hs : s.FAULT ≠ .unsupportedFeature) :
    ReportsRaisedCodes s (illegalWord w s) := by
  have hrefl : ReportsRaisedCodes s s := .of_silent hs rfl
  by_cases href : isRefused (opcodeField w) s = true
  · rw [illegalWord_refused href]
    exact hrefl.refuse
  · rw [illegalWord_not_refused href]
    exact hrefl.enterFault FaultCode.noConfusion

/-- Settles O14: the block holds, runs a command, or meets an illegal word. -/
theorem unsupportedFeatureIsNeverRaised : Obligations.UnsupportedFeatureIsNeverRaised := by
  unfold Obligations.UnsupportedFeatureIsNeverRaised
  intro s t hs hstep
  obtain haccept | ⟨w, rest, haccept⟩ := acceptCommand_cases s
  · rw [step_hold haccept] at hstep
    cases hstep
    exact ⟨hs, fun _ => .inl⟩
  cases hd : decode w with
  | ok i =>
    rw [step_command haccept hd] at hstep
    exact exec_reports (s := { s with cmds := rest }) hs hstep
  | error e =>
    rw [step_illegal haccept hd] at hstep
    cases hstep
    exact illegalWord_reports (s := { s with cmds := rest }) w hs

end Machine
end Sys2Proof
end

section
/-!
PROOFS. Command words (30_encoding.md): a row of the opcode map (R74) as an opcode field and a run of reserved bits that are 0, the
command that a word of a row is, and from the two that decoding and encoding are inverse, and which opcodes are reserved (R75).
-/
namespace Sys2Proof

/-! ### The rows of the opcode map (R71, R74) -/

/-- The number of operand bits of a command's format: bits [25:k] of its words are reserved (R71). -/
def operandBits : Instr → Nat
  | .ctxinit _ _ => 9
  | .align _ => 1
  | .dec _ | .ctxrd _ => 10
  | .tu _ | .fl _ => 16
  | .uegk _ _ _ => 13
  | .cbp _ | .mbtI _ | .mbtB _ => 2
  | .mbtSI _ _ => 4
  | .enginit | .byp | .trm | .u | .qpd | .mbtP | .smbtP | .smbtB | .statrd => 0

/-- The command of `i`'s row whose operands are the fields of `w` (R71). -/
def withFields (i : Instr) (w : Word) : Instr :=
  match i with
  | .ctxinit _ _ => .ctxinit (w.extractLsb' 0 7) (w.extractLsb' 7 2)
  | .align _ => .align (w.getLsbD 0)
  | .dec _ => .dec (w.extractLsb' 0 10)
  | .tu _ => .tu (w.extractLsb' 0 16)
  | .fl _ => .fl (w.extractLsb' 0 16)
  | .uegk _ _ _ => .uegk (w.getLsbD 0) (w.extractLsb' 1 4) (w.extractLsb' 5 8)
  | .cbp _ => .cbp (w.extractLsb' 0 2)
  | .mbtI _ => .mbtI (w.extractLsb' 0 2)
  | .mbtSI _ _ => .mbtSI (w.extractLsb' 0 2) (w.extractLsb' 2 2)
  | .mbtB _ => .mbtB (w.extractLsb' 0 2)
  | .ctxrd _ => .ctxrd (w.extractLsb' 0 10)
  | .enginit | .byp | .trm | .u | .qpd | .mbtP | .smbtP | .smbtB | .statrd => i

/-- The word has the match value of `i`'s row under that row's mask (R74). -/
def MatchesRow (w : Word) (i : Instr) : Prop := w &&& rowMask i = place (opcode i) 26

theorem operandBits_le (i : Instr) : operandBits i ≤ 26 := by
  cases i <;> simp [operandBits]

theorem rowMask_eq_shift (i : Instr) : rowMask i = BitVec.allOnes 32 <<< operandBits i := by
  cases i <;> simp only [rowMask, operandBits] <;> decide

theorem opcode_withFields (i : Instr) (w : Word) : opcode (withFields i w) = opcode i := by
  cases i <;> rfl

theorem getLsbD_mask {k j : Nat} (hj : j < 32) : (BitVec.allOnes 32 <<< k).getLsbD j = decide (k ≤ j) := by
  rw [BitVec.getLsbD_shiftLeft, BitVec.getLsbD_allOnes]
  simp [← decide_not, hj, show j - k < 32 by omega]

theorem getLsbD_place {n lo j : Nat} (v : BitVec n) (hj : j < 32) :
    (place v lo).getLsbD j = (decide (lo ≤ j) && v.getLsbD (j - lo)) := by
  rw [place, BitVec.getLsbD_shiftLeft, BitVec.getLsbD_setWidth]
  simp [← decide_not, hj, show j - lo < 32 by omega]

/-- The bits from `k` on of a word are `v` placed at bit 26 exactly when bits [31:26] are `v` and bits [25:k] are 0. -/
theorem masked_eq_place_iff {w : Word} {v : BitVec 6} {k : Nat} (hk : k ≤ 26) :
    w &&& (BitVec.allOnes 32 <<< k) = place v 26 ↔ w.extractLsb' 26 6 = v ∧ w.extractLsb' k (26 - k) = 0#(26 - k) := by
  have hbits : w &&& (BitVec.allOnes 32 <<< k) = place v 26 ↔
      ∀ j < 32, (w.getLsbD j && decide (k ≤ j)) = (decide (26 ≤ j) && v.getLsbD (j - 26)) := by
    simp only [BitVec.eq_of_getLsbD_eq_iff, BitVec.getLsbD_and]
    exact forall₂_congr fun j hj => by rw [getLsbD_mask hj, getLsbD_place v hj]
  have hopc : w.extractLsb' 26 6 = v ↔ ∀ j < 6, w.getLsbD (26 + j) = v.getLsbD j := by
    simp only [BitVec.eq_of_getLsbD_eq_iff, BitVec.getLsbD_extractLsb']
    exact forall₂_congr fun j hj => by simp [hj]
  have hresv : w.extractLsb' k (26 - k) = 0#(26 - k) ↔ ∀ j < 26 - k, w.getLsbD (k + j) = false := by
    simp only [BitVec.eq_of_getLsbD_eq_iff, BitVec.getLsbD_extractLsb']
    exact forall₂_congr fun j hj => by simp [hj]
  rw [hbits, hopc, hresv]
  constructor
  · intro h
    refine ⟨fun j hj => ?_, fun j hj => ?_⟩
    · have := h (26 + j) (by omega)
      simpa [show k ≤ 26 + j by omega] using this
    · have := h (k + j) (by omega)
      simpa [show ¬ 26 ≤ k + j by omega] using this
  · rintro ⟨ho, hr⟩ j hj
    by_cases h26 : 26 ≤ j
    · have := ho (j - 26) (by omega)
      rw [show 26 + (j - 26) = j by omega] at this
      simp [h26, this, show k ≤ j by omega]
    · by_cases hkj : k ≤ j
      · have := hr (j - k) (by omega)
        rw [show k + (j - k) = j by omega] at this
        simp [h26, this]
      · simp [h26, hkj]

/-- A word matches a row exactly when it has the row's opcode and only 0 in the row's reserved bits. -/
theorem matchesRow_iff (w : Word) (i : Instr) : MatchesRow w i ↔
    opcodeField w = opcode i ∧ w.extractLsb' (operandBits i) (26 - operandBits i) = 0#(26 - operandBits i) := by
  rw [MatchesRow, rowMask_eq_shift]
  exact masked_eq_place_iff (operandBits_le i)

/-! ### Decoding by row -/

theorem checkReserved_zero {n : Nat} {resv : BitVec n} (h : resv = 0#n) (i : Instr) : checkReserved resv i = .ok i :=
  if_pos h

theorem checkIncrement_wellFormed {i : Instr} (h : i.wellFormed = true) : checkIncrement i = .ok i := if_pos h

theorem checkIncrement_malformed {i : Instr} (h : ¬ i.wellFormed = true) :
    checkIncrement i = .error .reservedIncrement := if_neg h

/-- The increment check of R72 lets every command without increment fields through. -/
theorem checkReserved_bind_checkIncrement {n : Nat} (resv : BitVec n) {i : Instr} (h : i.wellFormed = true) :
    (checkReserved resv i).bind checkIncrement = checkReserved resv i := by
  obtain e | e := checkReserved_cases resv i <;> rw [e]
  · exact checkIncrement_wellFormed h
  · rfl

/-- What decoding checks of a word with a row's opcode, whichever row it is (R72, R74). -/
theorem decode_of_opcode {w : Word} {i : Instr} (h : opcodeField w = opcode i) :
    decode w = (checkReserved (w.extractLsb' (operandBits i) (26 - operandBits i)) (withFields i w)).bind
      checkIncrement := by
  rw [decode, h]
  cases i with
  | mbtI _ | mbtSI _ _ | mbtB _ => rfl
  | ctxinit _ _ | align _ | enginit | dec _ | byp | trm | u | tu _ | fl _ | uegk _ _ _ | qpd | cbp _ | mbtP | smbtP
  | smbtB | ctxrd _ | statrd => exact (checkReserved_bind_checkIncrement _ rfl).symm

theorem decode_of_matchesRow {w : Word} {i : Instr} (h : MatchesRow w i) :
    decode w = checkIncrement (withFields i w) := by
  obtain ⟨hopc, hresv⟩ := (matchesRow_iff w i).1 h
  rw [decode_of_opcode hopc, checkReserved_zero hresv]
  rfl

/-- A word that decodes matches the row of its command, whose operands are its fields. -/
theorem decode_ok {w : Word} {i : Instr} (h : decode w = .ok i) :
    MatchesRow w i ∧ withFields i w = i ∧ i.wellFormed = true := by
  have hopc := (opcode_of_decode h).symm
  rw [decode_of_opcode hopc] at h
  obtain ⟨hresv, hfields, hwf⟩ := checkIncrement_ok h
  exact ⟨(matchesRow_iff w i).2 ⟨hopc, hresv⟩, hfields, hwf⟩

/-! ### Encoding by row -/

theorem encode_matchesRow (i : Instr) : MatchesRow (encode i) i := by
  cases i with
  | ctxinit qp sel => exact Laws.RowMatch.ctxinit qp sel
  | align f => exact Laws.RowMatch.align f
  | enginit => exact Laws.RowMatch.enginit
  | dec c => exact Laws.RowMatch.dec c
  | byp => exact Laws.RowMatch.byp
  | trm => exact Laws.RowMatch.trm
  | u => exact Laws.RowMatch.u
  | tu c => exact Laws.RowMatch.tu c
  | fl c => exact Laws.RowMatch.fl c
  | uegk g k c => exact Laws.RowMatch.uegk g k c
  | qpd => exact Laws.RowMatch.qpd
  | cbp c => exact Laws.RowMatch.cbp c
  | mbtI a => exact Laws.RowMatch.mbtI a
  | mbtSI a b => exact Laws.RowMatch.mbtSI a b
  | mbtP => exact Laws.RowMatch.mbtP
  | mbtB a => exact Laws.RowMatch.mbtB a
  | smbtP => exact Laws.RowMatch.smbtP
  | smbtB => exact Laws.RowMatch.smbtB
  | ctxrd c => exact Laws.RowMatch.ctxrd c
  | statrd => exact Laws.RowMatch.statrd

theorem extract_place_same {n lo : Nat} (hlo : lo + n ≤ 32) (v : BitVec n) :
    (place v lo).extractLsb' lo n = v := by
  apply BitVec.eq_of_getLsbD_eq
  intro j hj
  rw [BitVec.getLsbD_extractLsb', getLsbD_place v (by omega)]
  simp [hj]

/-- A field is read back from its place when the rest of the word is 0 there. -/
theorem extract_place {n lo : Nat} {c : Word} (hlo : lo + n ≤ 32) (hc : c.extractLsb' lo n = 0#n) (v : BitVec n) :
    (c ||| place v lo).extractLsb' lo n = v := by
  rw [BitVec.extractLsb'_or, hc, BitVec.zero_or, extract_place_same hlo]

/-- Reading bits below or above a field finds 0. -/
theorem extract_place_apart {n m lo lo' : Nat} (v : BitVec n) (hm : lo' + m ≤ 32) (h : lo' + m ≤ lo ∨ lo + n ≤ lo') :
    (place v lo).extractLsb' lo' m = 0#m := by
  apply BitVec.eq_of_getLsbD_eq
  intro j hj
  rw [BitVec.getLsbD_extractLsb', getLsbD_place v (by omega)]
  rcases h with h | h
  · simp [show ¬ lo ≤ lo' + j by omega]
  · simp [BitVec.getLsbD_of_ge v (lo' + j - lo) (by omega)]

/-- The fields of a command's word are its operands: no two fields overlap each other or the opcode (R71). -/
theorem withFields_encode (i : Instr) : withFields i (encode i) = i := by
  cases i with
  | enginit | byp | trm | u | qpd | mbtP | smbtP | smbtB | statrd => rfl
  | dec v | ctxrd v | tu v | fl v | cbp v | mbtI v | mbtB v =>
    rw [withFields, encode, extract_place (by decide) (by decide)]
  | align f => cases f <;> rfl
  | mbtSI a b => revert a b; decide
  | ctxinit qp sel =>
    have hsel : (encode (.ctxinit qp sel)).extractLsb' 7 2 = sel := by
      rw [encode, BitVec.extractLsb'_or, extract_place (by decide) (by decide),
        extract_place_apart qp (by decide) (by decide), BitVec.or_zero]
    have hqp : (encode (.ctxinit qp sel)).extractLsb' 0 7 = qp := by
      refine extract_place (by decide) ?_ qp
      rw [BitVec.extractLsb'_or, extract_place_apart sel (by decide) (by decide)]
      decide
    rw [withFields, hsel, hqp]
  | uegk sgn k uc =>
    have hsgn : (encode (.uegk sgn k uc)).getLsbD 0 = sgn := by
      cases sgn <;> simp [encode, place, placeBit]
    have hsgn0 (lo n : Nat) (h : 1 ≤ lo) : (placeBit sgn).extractLsb' lo n = 0#n := by
      apply BitVec.eq_of_getLsbD_eq
      intro j hj
      cases sgn <;> simp [placeBit]
      omega
    have hk : (encode (.uegk sgn k uc)).extractLsb' 1 4 = k := by
      rw [encode, BitVec.extractLsb'_or, hsgn0 1 4 (by decide), BitVec.or_zero]
      refine extract_place (by decide) ?_ k
      rw [BitVec.extractLsb'_or, extract_place_apart uc (by decide) (by decide)]
      decide
    have huc : (encode (.uegk sgn k uc)).extractLsb' 5 8 = uc := by
      rw [encode, BitVec.extractLsb'_or, BitVec.extractLsb'_or, extract_place (by decide) (by decide),
        extract_place_apart k (by decide) (by decide), hsgn0 5 8 (by decide), BitVec.or_zero, BitVec.or_zero]
    rw [withFields, hsgn, hk, huc]

theorem getLsbD_eq_of_extract_eq {w w' : Word} {lo n j : Nat} (h : w.extractLsb' lo n = w'.extractLsb' lo n)
    (hlo : lo ≤ j) (hhi : j < lo + n) : w.getLsbD j = w'.getLsbD j := by
  have := congrArg (·.getLsbD (j - lo)) h
  simpa [show j - lo < n by omega, show lo + (j - lo) = j by omega] using this

/-- The fields of a format cover every operand bit (R71). -/
theorem operand_bits_eq_of_fields_eq {w w' : Word} {i : Instr} (h : withFields i w = withFields i w') :
    ∀ j < operandBits i, w.getLsbD j = w'.getLsbD j := by
  intro j hj
  cases i with
  | enginit | byp | trm | u | qpd | mbtP | smbtP | smbtB | statrd => exact absurd hj (Nat.not_lt_zero j)
  | align _ =>
    obtain rfl : j = 0 := Nat.lt_one_iff.1 hj
    exact Instr.align.inj h
  | dec _ => exact getLsbD_eq_of_extract_eq (Instr.dec.inj h) (Nat.zero_le j) hj
  | ctxrd _ => exact getLsbD_eq_of_extract_eq (Instr.ctxrd.inj h) (Nat.zero_le j) hj
  | tu _ => exact getLsbD_eq_of_extract_eq (Instr.tu.inj h) (Nat.zero_le j) hj
  | fl _ => exact getLsbD_eq_of_extract_eq (Instr.fl.inj h) (Nat.zero_le j) hj
  | cbp _ => exact getLsbD_eq_of_extract_eq (Instr.cbp.inj h) (Nat.zero_le j) hj
  | mbtI _ => exact getLsbD_eq_of_extract_eq (Instr.mbtI.inj h) (Nat.zero_le j) hj
  | mbtB _ => exact getLsbD_eq_of_extract_eq (Instr.mbtB.inj h) (Nat.zero_le j) hj
  | ctxinit _ _ =>
    obtain ⟨hqp, hsel⟩ := Instr.ctxinit.inj h
    rcases Nat.lt_or_ge j 7 with h7 | h7
    · exact getLsbD_eq_of_extract_eq hqp (Nat.zero_le j) h7
    · exact getLsbD_eq_of_extract_eq hsel h7 hj
  | mbtSI _ _ =>
    obtain ⟨hia, hib⟩ := Instr.mbtSI.inj h
    rcases Nat.lt_or_ge j 2 with h2 | h2
    · exact getLsbD_eq_of_extract_eq hia (Nat.zero_le j) h2
    · exact getLsbD_eq_of_extract_eq hib h2 hj
  | uegk _ _ _ =>
    obtain ⟨hsgn, hk, huc⟩ := Instr.uegk.inj h
    rcases Nat.eq_zero_or_pos j with rfl | h0
    · exact hsgn
    rcases Nat.lt_or_ge j 5 with h5 | h5
    · exact getLsbD_eq_of_extract_eq hk h0 h5
    · exact getLsbD_eq_of_extract_eq huc h5 hj

/-- Two words of one row with the same fields are the same word. -/
theorem word_eq_of_row_of_fields {w w' : Word} {i : Instr} (h : MatchesRow w i) (h' : MatchesRow w' i)
    (hfields : withFields i w = withFields i w') : w = w' := by
  apply BitVec.eq_of_getLsbD_eq
  intro j hj
  rcases Nat.lt_or_ge j (operandBits i) with hlt | hge
  · exact operand_bits_eq_of_fields_eq hfields j hlt
  · have hmask : (w &&& rowMask i).getLsbD j = (w' &&& rowMask i).getLsbD j := congrArg (·.getLsbD j) (h.trans h'.symm)
    simpa [rowMask_eq_shift, getLsbD_mask hj, hge, -BitVec.reduceAllOnes] using hmask

/-! ### The obligations -/

/-- Settles O1: the word matches the command's row, and its fields are the operands. -/
theorem decodeOfEncodeIsTheCommand : Obligations.DecodeOfEncodeIsTheCommand := by
  unfold Obligations.DecodeOfEncodeIsTheCommand
  intro i hwf
  rw [decode_of_matchesRow (encode_matchesRow i), withFields_encode]
  exact checkIncrement_wellFormed hwf

/-- Settles O2: the word and the command's own word are of one row and have the same fields. -/
theorem encodeOfDecodeIsTheWord : Obligations.EncodeOfDecodeIsTheWord := by
  unfold Obligations.EncodeOfDecodeIsTheWord
  intro w i hd
  obtain ⟨hrow, hfields, hwf⟩ := decode_ok hd
  exact ⟨word_eq_of_row_of_fields (encode_matchesRow i) hrow ((withFields_encode i).trans hfields.symm), hwf⟩

/-- The commands that the increment check of R72 rejects. -/
theorem increment_of_malformed {w : Word} {i : Instr} (h : ¬ (withFields i w).wellFormed = true) :
    ((opcode i = 0x10#6 ∨ opcode i = 0x13#6) ∧ w.extractLsb' 0 2 = 3#2) ∨
      (opcode i = 0x11#6 ∧ (w.extractLsb' 0 2 = 3#2 ∨ w.extractLsb' 2 2 = 3#2)) := by
  cases i with
  | mbtI _ => exact .inl ⟨.inl rfl, by simpa [withFields, Instr.wellFormed, incrementOk] using h⟩
  | mbtB _ => exact .inl ⟨.inr rfl, by simpa [withFields, Instr.wellFormed, incrementOk] using h⟩
  | mbtSI _ _ =>
    refine .inr ⟨rfl, ?_⟩
    simp only [withFields, Instr.wellFormed, incrementOk, Bool.and_eq_true, bne_iff_ne] at h
    tauto
  | ctxinit _ _ | align _ | enginit | dec _ | byp | trm | u | tu _ | fl _ | uegk _ _ _ | qpd | cbp _ | mbtP | smbtP
  | smbtB | ctxrd _ | statrd => exact absurd rfl h

/-- Settles O3: decoding by row, with the increment check as the one that can still reject. -/
theorem wordsSelectTheirOpcodeRow : Obligations.WordsSelectTheirOpcodeRow := by
  unfold Obligations.WordsSelectTheirOpcodeRow
  refine ⟨fun w i hd => (decode_ok hd).1, fun w i hrow => ?_, fun w i j hi hj => ?_⟩
  · by_cases hwf : (withFields i w).wellFormed = true
    · exact .inl ⟨_, (decode_of_matchesRow hrow).trans (checkIncrement_wellFormed hwf), opcode_withFields i w⟩
    · exact .inr ⟨(decode_of_matchesRow hrow).trans (checkIncrement_malformed hwf), increment_of_malformed hwf⟩
  · exact ((matchesRow_iff w i).1 hi).1.symm.trans ((matchesRow_iff w j).1 hj).1

/-- Settles O4: each of the words is decoded by evaluation. -/
theorem sampleWordsDecodeAsWritten : Obligations.SampleWordsDecodeAsWritten := by
  unfold Obligations.SampleWordsDecodeAsWritten
  decide

/-- A check of operands never finds the opcode reserved. -/
theorem decode_ne_reservedOpcode {w : Word} {i : Instr} (h : opcodeField w = opcode i) :
    decode w ≠ .error .reservedOpcode := by
  rw [decode_of_opcode h]
  obtain e | e := checkReserved_cases (w.extractLsb' (operandBits i) (26 - operandBits i)) (withFields i w) <;> rw [e]
  · by_cases hwf : (withFields i w).wellFormed = true
    · simp [Except.bind, checkIncrement_wellFormed hwf]
    · simp [Except.bind, checkIncrement_malformed hwf]
  · simp [Except.bind]

/-- Opcodes by their number: every number below 64 is that of a command or in the list of R75. -/
theorem opcode_used_or_listed : ∀ n < 64, (n ∈ [0x00, 0x07, 0x0E, 0x0F, 0x3E, 0x3F] ∨ (0x16 ≤ n ∧ n ≤ 0x3B)) ∨
    BitVec.ofNat 6 n ∈ [Instr.ctxinit 0 0, .align false, .enginit, .dec 0, .byp, .trm, .u, .tu 0, .fl 0, .uegk false 0 0,
      .qpd, .cbp 0, .mbtI 0, .mbtSI 0 0, .mbtP, .mbtB 0, .smbtP, .smbtB, .ctxrd 0, .statrd].map opcode := by
  decide

/-- The opcodes of R75's list fall through every row. -/
theorem decode_of_listed {w : Word} (h : (opcodeField w).toNat ∈ [0x00, 0x07, 0x0E, 0x0F, 0x3E, 0x3F] ∨
    (0x16 ≤ (opcodeField w).toNat ∧ (opcodeField w).toNat ≤ 0x3B)) : decode w = .error .reservedOpcode := by
  unfold decode
  generalize (opcodeField w).toNat = n at h
  split
  case h_21 => rfl
  all_goals simp at h

/-- Settles O5: every opcode is a command's, which decodes or is rejected by its operands, or in the list. -/
theorem reservedOpcodesAreExactlyTheListed : Obligations.ReservedOpcodesAreExactlyTheListed := by
  unfold Obligations.ReservedOpcodesAreExactlyTheListed
  intro w
  refine ⟨fun hd => ?_, decode_of_listed⟩
  obtain hlisted | hused := opcode_used_or_listed _ (opcodeField w).isLt
  · exact hlisted
  · obtain ⟨i, -, hi⟩ := List.mem_map.1 hused
    rw [BitVec.ofNat_toNat, BitVec.setWidth_eq] at hi
    exact absurd hd (decode_ne_reservedOpcode hi.symm)

end Sys2Proof
end

section
/-!
PROOFS. Steps, reset and faults (10_state.md, 60_exceptions.md, 70_reset_and_hazards.md): what a step of an idle block is, what a reset
leaves, and where a command's fault comes from, said once (`exec_faulted`) for the statements about fault entry.
-/
namespace Sys2Proof.Machine

/-! ### Steps and reset -/

/-- Settles O6: the block takes the word, in the second clause the one that withFetchWord placed. -/
theorem stepRunsTheDecodedCommand : Obligations.StepRunsTheDecodedCommand := by
  unfold Obligations.StepRunsTheDecodedCommand
  refine ⟨fun s w rest i hidle hcmds hd => step_command (acceptCommand_idle hidle hcmds) hd, fun s w i hd => ?_⟩
  have hword : BitVec.ofNat 32 (w.toNat % 2 ^ 32) = w := by
    rw [Nat.mod_eq_of_lt w.isLt, BitVec.ofNat_toNat, BitVec.setWidth_eq]
  have haccept : acceptCommand (s.withFetchWord 32 w.toNat) = some (w, { s with rspHeld := false, wait := none }) := by
    rw [acceptCommand_idle ⟨rfl, rfl⟩ (rest := s.cmds) (by rw [State.withFetchWord, hword])]
    rfl
  exact step_command haccept hd

theorem acceptCommand_none {s : State} (h : s.wait ≠ none ∨ s.rspHeld = true ∨ s.cmds = []) :
    acceptCommand s = none := by
  unfold acceptCommand
  split
  · rfl
  · rename_i hidle
    simp only [Bool.or_eq_true, Option.isSome_iff_ne_none, not_or] at hidle
    obtain hwait | hheld | hcmds := h
    · exact absurd hwait hidle.1
    · exact absurd hheld hidle.2
    · rw [hcmds]

/-- Settles O7: the block accepts no word; and every command ends in a next state (`exec_eq`). -/
theorem blockHoldsWhileItWaits : Obligations.BlockHoldsWhileItWaits := by
  unfold Obligations.BlockHoldsWhileItWaits
  exact ⟨fun s h => step_hold (acceptCommand_none h), fun i s => ⟨_, exec_eq i s⟩⟩

/-- The STATUS word of a block in reset is 0 (R211). -/
theorem statusWord_reset : statusWord State.reset = 0#32 := by decide

/-- Settles O8: the fields of the two reset states. -/
theorem resetLeavesTheSpecifiedRegisters : Obligations.ResetLeavesTheSpecifiedRegisters := by
  unfold Obligations.ResetLeavesTheSpecifiedRegisters
  refine ⟨⟨rfl, rfl, rfl, rfl, rfl, ?_⟩, fun s => ?_⟩
  · rw [exec_statrd_ok, statusWord_reset]
  · simp [State.resetEvent]

theorem not_refused_of_no_fault {s : State} (h : s.FAULT = .none) (opc : Opcode) : ¬ isRefused opc s = true :=
  fun href => (isRefused_iff.1 href).1 h

/-- Settles O9: with no fault pending nothing is refused. -/
theorem illegalWordRaisesInvalidDerivation : Obligations.IllegalWordRaisesInvalidDerivation := by
  unfold Obligations.IllegalWordRaisesInvalidDerivation
  intro s w rest e hidle hcmds hfault hd
  rw [step_illegal (acceptCommand_idle hidle hcmds) hd,
    illegalWord_not_refused (not_refused_of_no_fault (s := { s with cmds := rest }) hfault _)]

/-! ### Preconditions (R188) -/

/-- A command that is malformed or outside its row of R188's table faults and does nothing else. -/
theorem exec_not_ready {i : Instr} {s : State} (hfault : s.FAULT = .none)
    (h : i.wellFormed = false ∨ precondition i s = false) :
    exec i s = .next (enterFault .invalidDerivationRequest s) := by
  obtain ⟨href, -⟩ | ⟨-, -, e⟩ | ⟨⟨-, hwf, hp⟩, -⟩ := exec_cases (exec_eq i s)
  · exact absurd href (not_refused_of_no_fault hfault _)
  · rw [exec_eq, e]
  · simp [hwf, hp] at h

theorem engActive_false {s : State} (h : s.engState ≠ .active) : engActive s = false := by
  simpa [engActive] using h

/-- Settles O13: each command's row of the table, and the model's clause on increments. -/
theorem failedPreconditionsFault : Obligations.FailedPreconditionsFault := by
  unfold Obligations.FailedPreconditionsFault
  intro s hfault
  refine ⟨fun hact i hi => ?_, fun hact i hi => ?_, fun h i hi => ?_, fun hv c => ?_, fun i hwf => ?_⟩
  · have hact' := (engActive_iff s).2 hact
    obtain rfl | ⟨f, rfl⟩ := hi <;> exact exec_not_ready hfault (.inr (by simp [precondition, hact']))
  · have hact' := engActive_false hact
    obtain rfl | rfl := hi <;> exact exec_not_ready hfault (.inr hact')
  · have hboth : (engActive s && s.ctxValid) = false := by
      obtain hact | hv := h
      · rw [engActive_false hact, Bool.false_and]
      · rw [hv, Bool.and_false]
    refine exec_not_ready hfault (.inr ?_)
    rcases hi with ⟨c, rfl⟩ | rfl | ⟨c, rfl⟩ | ⟨c, rfl⟩ | ⟨g, k, c, rfl⟩ | rfl | ⟨c, rfl⟩ | ⟨a, rfl⟩ | ⟨a, b, rfl⟩ | rfl |
      ⟨a, rfl⟩ | rfl | rfl <;> exact hboth
  · exact exec_not_ready hfault (.inr hv)
  · exact exec_not_ready hfault (.inl hwf)

/-! ### Where a fault comes from (R181 to R186) -/

theorem commandBody_fault_none {i : Instr} {s : State} (hp : precondition i s = true) (h : s.FAULT = .none) :
    (commandBody i s).state.FAULT = .none := by
  obtain e | e := commandBody_fault hp
  · rw [e, h]
  · exact e

theorem enterFault_FAULT {u : State} (h : u.FAULT = .none) (f : FaultCode) : (enterFault f u).FAULT = f := by
  rw [(enterFault_control f u).1, if_pos h]

/-- A command that leaves a fault pending, where none was, ended in fault entry: before its body ran, or by a fault that its
body raised. -/
theorem exec_faulted {i : Instr} {s t : State} (hs : s.FAULT = .none) (h : exec i s = .next t) (ht : t.FAULT ≠ .none) :
    (t.FAULT = .invalidDerivationRequest ∧ t = enterFault .invalidDerivationRequest s) ∨
    (Ready i s ∧ ∃ u, u.FAULT = .none ∧ commandBody i s = .raise t.FAULT u ∧ t = enterFault t.FAULT u) := by
  obtain ⟨href, -⟩ | ⟨-, -, rfl⟩ | ⟨hready, rfl⟩ := exec_cases h
  · exact absurd href (not_refused_of_no_fault hs _)
  · exact .inl ⟨enterFault_FAULT hs _, rfl⟩
  · have hbody := commandBody_fault_none hready.2.2 hs
    cases hr : commandBody i s with
    | ok v u =>
      rw [hr] at hbody ht
      exact absurd hbody ht
    | raise f u =>
      rw [hr] at hbody
      have hcode : (finish (.raise f u)).FAULT = f := enterFault_FAULT hbody f
      rw [hcode]
      exact .inr ⟨hready, u, hbody, rfl, rfl⟩
    | wait p u =>
      rw [hr] at hbody ht
      exact absurd hbody ht

/-- Settles O12: fault entry at the state that the body had reached. -/
theorem faultingCommandEndsTheSlice : Obligations.FaultingCommandEndsTheSlice := by
  unfold Obligations.FaultingCommandEndsTheSlice
  intro i s t hs h ht
  obtain ⟨hcode, e⟩ | ⟨⟨-, -, hp⟩, u, -, hbody, e⟩ := exec_faulted hs h ht
  · rw [hcode, e]
    exact ⟨rfl, rfl, rfl, rfl, rfl, [], rfl, rfl⟩
  · obtain ⟨hbits, hrom, -, -, hrsps, -, hwait, -⟩ := commandBody_outside hp
    rw [hbody] at hbits hrom hrsps hwait
    obtain ⟨-, heng, hvalid, hresp⟩ := enterFault_control t.FAULT u
    obtain ⟨erom, ebits, epos, -, -, -, -, -, -, ewait⟩ := enterFault_outside t.FAULT u
    rw [← e] at heng hvalid hresp erom ebits epos ewait
    refine ⟨heng, hvalid, ?_, ewait.trans hwait, erom.trans hrom, ?_⟩
    · rw [hresp, show u.rsps = s.rsps from hrsps]
      rfl
    · rw [ebits, epos]
      exact hbits

/-- The bodies that raise StructuralViolation (R182). -/
theorem bodyFaults_structuralViolation {i : Instr} {u : State} (h : bodyFaults i .structuralViolation u) :
    i = .enginit ∨ ∃ f, i = .align f := by
  cases i <;> simp [bodyFaults, RunFault, BinFault, StreamEnd] at h ⊢

/-- The bodies that raise UnboundedLoopDetected (R183). -/
theorem bodyFaults_unboundedLoopDetected {i : Instr} {u : State} (h : bodyFaults i .unboundedLoopDetected u) :
    i = .u ∨ i = .qpd ∨ (∃ cmax : BitVec 16, i = .tu cmax ∧ 10000 < cmax.toNat) ∨ ∃ g k uc, i = .uegk g k uc := by
  cases i <;> simp [bodyFaults, RunFault, BinFault, StreamEnd] at h ⊢
  exact h

/-- Settles O15: the faults each body can raise, by command. -/
theorem loopAndStructureFaultsHaveTheirCommands : Obligations.LoopAndStructureFaultsHaveTheirCommands := by
  unfold Obligations.LoopAndStructureFaultsHaveTheirCommands
  intro i s t hs h
  by_cases ht : t.FAULT = .none
  · simp [ht]
  obtain ⟨hcode, -⟩ | ⟨-, u, -, hbody, -⟩ := exec_faulted hs h ht
  · simp [hcode]
  · have hraised := commandBody_raises i s _ _ hbody
    refine ⟨fun hcode => ?_, fun hcode => ?_⟩ <;> rw [hcode] at hraised
    · exact bodyFaults_structuralViolation hraised
    · exact bodyFaults_unboundedLoopDetected hraised

/-- A body that raises StreamExhaustion had taken every bit, of a source that answers EXHAUSTED (R50, R181). -/
theorem bodyFaults_streamExhaustion {i : Instr} {u : State} (h : bodyFaults i .streamExhaustion u) :
    (u.bits = [] ∧ u.bitEnd = .exhausted) ∧ (∀ qp sel, i ≠ .ctxinit qp sel) ∧ i ≠ .statrd ∧ ∀ c, i ≠ .ctxrd c := by
  cases i <;> simp [bodyFaults, RunFault, BinFault, StreamEnd] at h ⊢ <;> exact h

/-- Settles O16: the fault comes from the body, and its bits end where the body stopped. -/
theorem streamExhaustionComesAtTheEndOfTheBits : Obligations.StreamExhaustionComesAtTheEndOfTheBits := by
  unfold Obligations.StreamExhaustionComesAtTheEndOfTheBits
  intro i s t hs h ht
  obtain ⟨hcode, -⟩ | ⟨⟨-, -, hp⟩, u, -, hbody, e⟩ := exec_faulted hs h (by simp [ht])
  · rw [ht] at hcode
    cases hcode
  · have hraised := commandBody_raises i s _ _ hbody
    rw [ht] at hraised
    obtain ⟨⟨hempty, hend⟩, hcommands⟩ := bodyFaults_streamExhaustion hraised
    obtain ⟨⟨taken, hbits, hpos⟩, -, hbitEnd, -⟩ := commandBody_outside hp
    rw [hbody] at hbits hpos hbitEnd
    rw [state_raise, hempty, List.append_nil] at hbits
    obtain ⟨-, ebits, epos, -⟩ := enterFault_outside t.FAULT u
    rw [← e] at ebits epos
    exact ⟨ebits.trans hempty, hbitEnd.symm.trans hend, by rw [epos, hbits]; exact hpos, hcommands⟩

/-! ### The commands that touch no port but the response port -/

/-- Every entry but 276 comes from the ROM (R119). -/
theorem freshSlice_ctxRead {c : CtxIdx} (hc : c ≠ 276#10) (qp : BitVec 7) (sel : BitVec 2) (s : State) :
    (freshSlice qp sel s).ctxRead c = initEntry s.rom qp sel c := by
  rw [freshSlice, ctxRead_ctxWrite_other _ _ hc]
  exact ctxTabulate_get _ c

/-- Settles O30: the fresh slice, entry by entry. -/
theorem ctxinitGivesAFreshSlice : Obligations.CtxinitGivesAFreshSlice := by
  unfold Obligations.CtxinitGivesAFreshSlice
  intro s qp sel
  exact ⟨_, exec_ctxinit_ok qp sel s, fun c hc => freshSlice_ctxRead hc qp sel s, ctxRead_ctxWrite_same _ _ _, rfl⟩

/-- The STATUS word as fields in their places (R28). -/
theorem statusWord_eq_places (s : State) : statusWord s = place s.codIRange 0 ||| place s.codIOffset 9 |||
    place (engCode s.engState) 18 ||| place (BitVec.ofBool s.ctxValid) 20 ||| place (faultCode s.FAULT) 21 := by
  rw [place, BitVec.shiftLeft_zero]
  rfl

/-- Settles O50: no two fields of the STATUS word overlap. -/
theorem statrdReportsTheStatusWord : Obligations.StatrdReportsTheStatusWord := by
  unfold Obligations.StatrdReportsTheStatusWord
  intro s
  refine ⟨_, exec_statrd_ok s, ?_, ?_, ?_, ?_, ?_, ?_⟩ <;> rw [statusWord_eq_places]
  case refine_4 =>
    simp only [BitVec.getLsbD_or, getLsbD_place _ (show 20 < 32 by decide)]
    simp
  all_goals simp [BitVec.extractLsb'_or, extract_place_same, extract_place_apart]

/-- CTXRD executes with a valid store and no fault pending (R176, R188). -/
theorem exec_ctxrd_ok {s : State} (hfault : s.FAULT = .none) (hvalid : s.ctxValid = true) (c : CtxIdx) :
    exec (.ctxrd c) s = .next (s.respond 0#3 ((packCtx (s.ctxRead c)).setWidth 32)) :=
  exec_ready (ready_of hfault rfl hvalid)

/-- A context entry read out, as fields in their places (R55). -/
theorem packCtx_eq_places (v : CtxVar) :
    (packCtx v).setWidth 32 = place v.pStateIdx 0 ||| place (BitVec.ofBool v.valMPS) 6 := by
  apply BitVec.eq_of_getLsbD_eq
  intro j hj
  simp [packCtx, place, hj]
  grind

/-- Settles O51: the two fields of the entry. -/
theorem ctxrdReadsOneEntry : Obligations.CtxrdReadsOneEntry := by
  unfold Obligations.CtxrdReadsOneEntry
  intro s c hfault hvalid
  refine ⟨_, exec_ctxrd_ok hfault hvalid c, ?_, ?_, ?_⟩ <;> rw [packCtx_eq_places]
  · simp [BitVec.extractLsb'_or, extract_place_same, extract_place_apart]
  · simp only [BitVec.getLsbD_or, getLsbD_place _ (show 6 < 32 by decide)]
    simp
  · simp [BitVec.extractLsb'_or, extract_place_apart]

end Sys2Proof.Machine
end

section
/-!
PROOFS. The machine's invariant (10_state.md R29, 60_exceptions.md R186, 41_probability_state.md R116, R118): the update of a context
variable, one induction over the pieces of a command for any property that a bin and a query keep, and the step.
-/
namespace Sys2Proof.Machine

/-! ### The update of a context variable (R111 to R116) -/

theorem transIdx_63 : transIdxMPS 63#6 = 63#6 ∧ transIdxLPS 63#6 = 63#6 := by decide

/-- The transition tables below state 63, entry by entry (R113, R114). -/
theorem transIdx_bounds : ∀ p : BitVec 6, p ≠ 63#6 →
    1 ≤ (transIdxMPS p).toNat ∧ (transIdxMPS p).toNat ≤ 62 ∧ (transIdxLPS p).toNat ≤ 38 := by
  decide

theorem applyBin_mps (p : BitVec 6) (m : Bool) : applyBin ⟨p, m⟩ m = ⟨transIdxMPS p, m⟩ := if_pos rfl

theorem applyBin_lps {p : BitVec 6} {m b : Bool} (h : b ≠ m) :
    applyBin ⟨p, m⟩ b = ⟨transIdxLPS p, if p = 0#6 then !m else m⟩ := if_neg h

/-- State 63 absorbs (R116). -/
theorem applyBin_63 (m b : Bool) : applyBin ⟨63#6, m⟩ b = ⟨63#6, m⟩ := by
  obtain ⟨hmps, hlps⟩ := transIdx_63
  by_cases h : b = m
  · rw [h, applyBin_mps, hmps]
  · rw [applyBin_lps h, hlps]
    rfl

/-- No other state reaches 63 (R116). -/
theorem applyBin_ne_63 {v : CtxVar} (h : v.pStateIdx ≠ 63#6) (b : Bool) : (applyBin v b).pStateIdx ≠ 63#6 := by
  obtain ⟨p, m⟩ := v
  obtain ⟨-, hmps, hlps⟩ := transIdx_bounds p h
  intro e
  by_cases hb : b = m
  · have e' : transIdxMPS p = 63#6 := by rwa [hb, applyBin_mps] at e
    rw [e'] at hmps
    exact absurd hmps (by decide)
  · have e' : transIdxLPS p = 63#6 := by rwa [applyBin_lps hb] at e
    rw [e'] at hlps
    exact absurd hlps (by decide)

/-- Settles O28: the two moves of R115 by the transition tables. -/
theorem probabilityUpdateProperties : Obligations.ProbabilityUpdateProperties := by
  unfold Obligations.ProbabilityUpdateProperties
  intro p m b
  refine ⟨fun hp => by rw [hp, applyBin_63], fun hp hb => ?_, fun hp hb => ?_, ?_⟩
  · obtain ⟨hlo, hhi, -⟩ := transIdx_bounds p hp
    rw [hb, applyBin_mps]
    exact ⟨hlo, hhi⟩
  · rw [applyBin_lps hb]
    exact (transIdx_bounds p hp).2.2
  · by_cases hb : b = m
    · rw [hb, applyBin_mps]
      simp
    · rw [applyBin_lps hb]
      by_cases hp : p = 0#6 <;> simp [hb, hp]

/-! ### Two runs of a piece of a command that correspond -/

/-- The two end the same way, with the same value, fault or port, in states that `P` relates when both end OK, and that `Q`
relates when both fault or wait. -/
def Alike {α : Type} (P Q : State → State → Prop) : Res α → Res α → Prop
  | .ok a s, .ok b t => a = b ∧ P s t
  | .raise f s, .raise g t => f = g ∧ Q s t
  | .wait p s, .wait q t => p = q ∧ Q s t
  | .ok _ _, .raise _ _ | .ok _ _, .wait _ _ | .raise _ _, .ok _ _ | .raise _ _, .wait _ _ | .wait _ _, .ok _ _
  | .wait _ _, .raise _ _ => False

section Alike

variable {P Q : State → State → Prop}

theorem Alike.ok {α : Type} (a : α) {s t : State} (h : P s t) : Alike P Q (.ok a s) (.ok a t) := ⟨rfl, h⟩

theorem Alike.raise {α : Type} (f : FaultCode) {s t : State} (h : Q s t) :
    Alike P Q (.raise f s : Res α) (.raise f t) := ⟨rfl, h⟩

theorem Alike.wait {α : Type} (p : Port) {s t : State} (h : Q s t) : Alike P Q (.wait p s : Res α) (.wait p t) := ⟨rfl, h⟩

/-- Runs that correspond go on corresponding when what follows does. -/
theorem Alike.bind {α β : Type} {r r' : Res α} {k k' : α → State → Res β} (h : Alike P Q r r')
    (hk : ∀ a s t, P s t → Alike P Q (k a s) (k' a t)) : Alike P Q (r.bind k) (r'.bind k') := by
  cases r <;> cases r' <;> simp only [Alike] at h
  case ok.ok a s b t =>
    obtain ⟨rfl, hP⟩ := h
    exact hk a s t hP
  case raise.raise f s g t => exact h
  case wait.wait p s q t => exact h

theorem Alike.map {α β : Type} {r r' : Res α} (g : α → β) (h : Alike P Q r r') : Alike P Q (r.map g) (r'.map g) :=
  h.bind fun a _ _ hP => .ok (g a) hP

/-! Every piece of a command that decodes bins is made of bins and queries. -/

variable (hbin : ∀ kind s t, P s t → Alike P Q (binOf kind s) (binOf kind t))
  (hcsel : ∀ opc part n prev s t, P s t → Alike P Q (csel opc part n prev s) (csel opc part n prev t))
  (hraise : ∀ s t, P s t → Q s t)

include hbin hcsel hraise in
theorem fetchBin_alike (opc : Opcode) (part : Bool) (n : Nat) (prev : BitVec 16) {s t : State} (h : P s t) :
    Alike P Q (fetchBin opc part n prev s) (fetchBin opc part n prev t) := by
  refine (hcsel opc part n prev s t h).bind fun a s' t' h' => ?_
  split
  · exact .raise _ (hraise s' t' h')
  · exact hbin _ s' t' h'

include hbin hcsel hraise in
theorem tuLoop_alike (opc : Opcode) (cMax : Option Nat) (part : Bool) (room count : Nat) {s t : State} (h : P s t) :
    Alike P Q (tuLoop opc cMax part room count s) (tuLoop opc cMax part room count t) := by
  induction room generalizing count s t with
  | zero =>
    unfold tuLoop
    split
    · exact .ok _ h
    · exact .raise _ (hraise s t h)
  | succ room ih =>
    unfold tuLoop
    split
    · exact .ok _ h
    · refine (fetchBin_alike hbin hcsel hraise opc part _ _ h).bind fun b s' t' h' => ?_
      split
      · exact ih _ h'
      · exact .ok _ h'

include hbin hcsel hraise in
theorem flLoop_alike (opc : Opcode) (part : Bool) (n : Nat) (bins : List Bool) {s t : State} (h : P s t) :
    Alike P Q (flLoop opc part n bins s) (flLoop opc part n bins t) := by
  induction n generalizing bins s t with
  | zero => exact .ok _ h
  | succ n ih => exact (fetchBin_alike hbin hcsel hraise opc part _ _ h).bind fun b s' t' h' => ih _ h'

include hbin hraise in
theorem escapeLoop_alike (room kk suf : Nat) {s t : State} (h : P s t) :
    Alike P Q (escapeLoop room kk suf s) (escapeLoop room kk suf t) := by
  induction room generalizing kk suf s t with
  | zero => exact .raise _ (hraise s t h)
  | succ room ih =>
    refine (hbin .byp s t h).bind fun b s' t' h' => ?_
    split
    · exact ih _ _ h'
    · exact .ok _ h'

include hbin in
theorem verbatimLoop_alike (kk suf : Nat) {s t : State} (h : P s t) :
    Alike P Q (verbatimLoop kk suf s) (verbatimLoop kk suf t) := by
  induction kk generalizing suf s t with
  | zero => exact .ok _ h
  | succ kk ih => exact (hbin .byp s t h).bind fun b s' t' h' => ih _ h'

include hbin hraise in
theorem uegSuffix_alike (k : Nat) {s t : State} (h : P s t) : Alike P Q (uegSuffix k s) (uegSuffix k t) :=
  (escapeLoop_alike hbin hraise _ _ _ h).bind fun e _ _ h' => verbatimLoop_alike hbin e.1 e.2 h'

include hbin hcsel hraise in
theorem uegMagnitude_alike (k uc : Nat) {s t : State} (h : P s t) :
    Alike P Q (uegMagnitude k uc s) (uegMagnitude k uc t) := by
  refine (tuLoop_alike hbin hcsel hraise _ _ _ _ _ h).bind fun v s' t' h' => ?_
  split
  · exact (uegSuffix_alike hbin hraise k h').map _
  · exact .ok _ h'

include hbin in
theorem uegSign_alike (sgn : Bool) (v : Nat) {s t : State} (h : P s t) :
    Alike P Q (uegSign sgn v s) (uegSign sgn v t) := by
  unfold uegSign
  split
  · exact (hbin .byp s t h).map _
  · exact .ok _ h

include hbin hcsel hraise in
theorem cbpChroma_alike (cat : BitVec 2) {s t : State} (h : P s t) :
    Alike P Q (cbpChroma cat s) (cbpChroma cat t) := by
  unfold cbpChroma
  split
  · exact tuLoop_alike hbin hcsel hraise _ _ _ _ _ h
  · exact .ok _ h

include hbin in
theorem runTree_alike (tree : BinTree) {s t : State} (h : P s t) : Alike P Q (runTree tree s) (runTree tree t) := by
  induction tree generalizing s t with
  | leaf v => exact .ok v h
  | node kind zero one ihz iho =>
    refine (hbin kind s t h).bind fun b s' t' h' => ?_
    split
    · exact iho h'
    · exact ihz h'

/-- The commands that decode bins: those that R188's table lets run only while the engine is ACTIVE. -/
def DecodesBins (i : Instr) : Prop := ∀ s : State, precondition i s = true → s.engState = .active

/-- The commands that do not: those whose rows of R188's table do not ask for an ACTIVE engine. -/
theorem decodesBins_or (i : Instr) : DecodesBins i ∨ (∃ qp sel, i = .ctxinit qp sel) ∨ (∃ f, i = .align f) ∨
    i = .enginit ∨ (∃ c, i = .ctxrd c) ∨ i = .statrd := by
  cases i with
  | ctxinit _ _ | align _ | enginit | ctxrd _ | statrd => simp
  | byp | trm => exact .inl fun s h => (engActive_iff s).1 h
  | dec _ | u | tu _ | fl _ | uegk _ _ _ | qpd | cbp _ | mbtI _ | mbtSI _ _ | mbtP | mbtB _ | smbtP | smbtB =>
    exact .inl fun s h => (engActive_iff s).1 (Bool.and_eq_true_iff.1 h).1

theorem binOf_active {kind : BinKind} {s : State} (h : s.engState = .active) : binOf kind s = decodeBin kind s :=
  if_pos ((engActive_iff s).2 h)

include hbin hcsel hraise in
/-- A relation that a bin and a query keep is kept by every command that decodes bins. -/
theorem commandBody_alike {i : Instr} (hi : DecodesBins i) {s t : State} (hs : precondition i s = true)
    (ht : precondition i t = true) (h : P s t) : Alike P Q (commandBody i s) (commandBody i t) := by
  have hs' := hi s hs
  have ht' := hi t ht
  have hone (kind : BinKind) : Alike P Q ((decodeBin kind s).map bitWord) ((decodeBin kind t).map bitWord) := by
    have := hbin kind s t h
    rw [binOf_active hs', binOf_active ht'] at this
    exact this.map bitWord
  have htree (tree : BinTree) : Alike P Q (treeBody tree s) (treeBody tree t) := (runTree_alike hbin tree h).map natWord
  cases i with
  | ctxinit qp sel => exact absurd (hi State.reset rfl) (by decide)
  | align f => exact absurd (hi State.reset rfl) (by decide)
  | enginit => exact absurd (hi State.reset rfl) (by decide)
  | ctxrd c => exact absurd (hi { State.reset with ctxValid := true } rfl) (by decide)
  | statrd => exact absurd (hi State.reset rfl) (by decide)
  | dec c => exact hone (.dec c)
  | byp => exact hone .byp
  | trm => exact hone .trm
  | u => exact (tuLoop_alike hbin hcsel hraise _ _ _ _ _ h).map _
  | tu cmax => exact (tuLoop_alike hbin hcsel hraise _ _ _ _ _ h).map _
  | fl cmax => exact (flLoop_alike hbin hcsel hraise _ _ _ _ h).map _
  | uegk sgn k uc =>
    exact ((uegMagnitude_alike hbin hcsel hraise _ _ h).bind fun v s' t' h' => uegSign_alike hbin sgn v h').map _
  | qpd => exact (tuLoop_alike hbin hcsel hraise _ _ _ _ _ h).map _
  | cbp cat =>
    exact (flLoop_alike hbin hcsel hraise _ _ _ _ h).bind fun luma s' t' h' =>
      (cbpChroma_alike hbin hcsel hraise cat h').map _
  | mbtI a => exact htree _
  | mbtSI a b => exact htree _
  | mbtP => exact htree _
  | mbtB a => exact htree _
  | smbtP => exact htree _
  | smbtB => exact htree _

end Alike

/-! ### The end of one run -/

/-- A piece of a command ends OK in a state of `P`, or faults or waits in a state of `Q`. -/
def Ends {α : Type} (P Q : State → Prop) : Res α → Prop
  | .ok _ s => P s
  | .raise _ s | .wait _ s => Q s

/-- A run compared with itself. -/
theorem alike_self_iff {α : Type} {P Q : State → Prop} {r : Res α} :
    Alike (fun s t => s = t ∧ P s) (fun s t => s = t ∧ Q s) r r ↔ Ends P Q r := by
  cases r <;> simp [Alike, Ends]

/-- A property that a bin and a query keep is kept by every command that decodes bins. -/
theorem commandBody_ends {P Q : State → Prop} (hbin : ∀ kind s, P s → Ends P Q (binOf kind s))
    (hcsel : ∀ opc part n prev s, P s → Ends P Q (csel opc part n prev s)) (hraise : ∀ s, P s → Q s) {i : Instr}
    (hi : DecodesBins i) {s : State} (hp : precondition i s = true) (h : P s) : Ends P Q (commandBody i s) := by
  refine alike_self_iff.1 (commandBody_alike ?_ ?_ ?_ hi hp hp ⟨rfl, h⟩)
  · rintro kind s t ⟨rfl, h⟩
    exact alike_self_iff.2 (hbin kind s h)
  · rintro opc part n prev s t ⟨rfl, h⟩
    exact alike_self_iff.2 (hcsel opc part n prev s h)
  · rintro s t ⟨rfl, h⟩
    exact ⟨rfl, hraise s h⟩

/-! ### The contexts through a command (R116, R118) -/

/-- A piece of a command that stays in its frame and carries no CSEL traffic changes the fixed entries alone. -/
theorem BinFrame.ctxRead_quiet {fixed : List CtxIdx} {s t : State} (h : BinFrame fixed s t)
    (hans : t.cselAns = s.cselAns) {c : CtxIdx} (hc : c ∉ fixed) : t.ctxRead c = s.ctxRead c := by
  obtain ⟨taken, htaken, hread⟩ := h.ctx
  rw [hans] at htaken
  obtain rfl : taken = [] := by simpa using htaken
  exact hread c hc (by simp [NamedBy])

theorem ContextInv.congr {s t : State} (h : ContextInv s) (hvalid : t.ctxValid = s.ctxValid)
    (hread : ∀ c, t.ctxRead c = s.ctxRead c) : ContextInv t := by
  intro hv
  obtain ⟨h276, hother⟩ := h (hvalid ▸ hv)
  exact ⟨(hread _).trans h276, fun c hc => (hread c).symm ▸ hother c hc⟩

/-- A piece of a command that writes no entry keeps what is known of the entries. -/
theorem ContextInv.quiet {α : Type} {s : State} {r : Res α} (h : ContextInv s) (hframe : BinFrame [] s r.state)
    (hquiet : Quiet s r) : ContextInv r.state :=
  h.congr hframe.ctxValid fun _ => hframe.ctxRead_quiet hquiet.1 (by simp)

/-- A decision bin moves one entry along the tables. -/
theorem ContextInv.ctxWrite {s : State} (h : ContextInv s) (c : CtxIdx) (b : Bool) :
    ContextInv (s.ctxWrite c (applyBin (s.ctxRead c) b)) := by
  intro hv
  obtain ⟨h276, hother⟩ := h hv
  refine ⟨?_, fun d hd => ?_⟩
  · by_cases hc : c = 276#10
    · rw [hc, ctxRead_ctxWrite_same, h276, applyBin_63]
    · rw [ctxRead_ctxWrite_other _ _ (Ne.symm hc), h276]
  · by_cases hc : d = c
    · rw [hc, ctxRead_ctxWrite_same]
      exact applyBin_ne_63 (hother c (hc ▸ hd)) b
    · rw [ctxRead_ctxWrite_other _ _ hc]
      exact hother d hd

theorem binOf_contextInv (kind : BinKind) {s : State} (h : ContextInv s) : ContextInv (binOf kind s).state := by
  by_cases hact : s.engState = .active
  · cases kind with
    | dec c =>
      have hsplit : ContextInv ((s.setEngine (decisionSplit (s.ctxRead c) s.codIRange s.codIOffset).2.1
          (decisionSplit (s.ctxRead c) s.codIRange s.codIOffset).2.2).ctxWrite c
          (applyBin (s.ctxRead c) (decisionSplit (s.ctxRead c) s.codIRange s.codIOffset).1)) :=
        ContextInv.ctxWrite (s := s.setEngine _ _) h c _
      rw [binOf_active hact, decodeBin, decodeDecision, state_map]
      exact hsplit.quiet (renormD_frame [] _) (renormLoop_quiet _ _)
    | byp => exact h.quiet (binOf_frame (by simp) s) (binOf_quiet _ s)
    | trm => exact h.quiet (binOf_frame (by simp) s) (binOf_quiet _ s)
  · rw [binOf, if_neg (by rwa [engActive_iff])]
    exact h

/-! ### The body of a command -/

/-- The engine has decoded: the bounds of R29 for ACTIVE or for TERMINATED. -/
def DecodedOk (s : State) : Prop := ActiveOk s ∨ TerminatedOk s

theorem DecodedOk.engineInv {s : State} (h : DecodedOk s) : EngineInv s := h.elim ActiveOk.engineInv TerminatedOk.engineInv

/-- After one bin of a command the engine is within the bounds of R29, and after the codeword's end no bin decodes (R132). -/
theorem binOf_ends (kind : BinKind) {s : State} (h : DecodedOk s ∧ ContextInv s) :
    Ends (fun t => DecodedOk t ∧ ContextInv t) ContextInv (binOf kind s) := by
  obtain ⟨hdec, hctx⟩ := h
  have hctx' := binOf_contextInv kind hctx
  cases hr : binOf kind s with
  | ok b t =>
    rw [hr] at hctx'
    refine ⟨?_, hctx'⟩
    obtain hact | hterm := hdec
    · exact (binOf_ok hact hr).imp_right And.left
    · have hinactive : ¬ engActive s = true := by simp [engActive, hterm.1]
      rw [binOf, if_neg hinactive] at hr
      cases hr
  | raise f t =>
    rw [hr] at hctx'
    exact hctx'
  | wait p t =>
    rw [hr] at hctx'
    exact hctx'

theorem csel_ends {P Q : State → Prop} (opc : Opcode) (part : Bool) (n : Nat) (prev : BitVec 16) {s : State}
    (hok : ∀ rest, P ((s.sendRequest (cselRequest opc part n prev)).takeAnswer rest))
    (hwait : Q (s.sendRequest (cselRequest opc part n prev))) : Ends P Q (csel opc part n prev s) := by
  obtain ⟨a, rest, -, e⟩ | ⟨-, e⟩ := csel_cases opc part n prev s <;> rw [e]
  · exact hok rest
  · exact hwait

theorem freshSlice_engineInv (qp : BitVec 7) (sel : BitVec 2) (s : State) : EngineInv (freshSlice qp sel s) :=
  ⟨fun h => absurd h EngState.noConfusion, fun h => absurd h EngState.noConfusion, fun _ _ => ⟨rfl, rfl⟩⟩

theorem freshSlice_contextInv (qp : BitVec 7) (sel : BitVec 2) (s : State) : ContextInv (freshSlice qp sel s) := by
  intro _
  refine ⟨ctxRead_ctxWrite_same _ _ _, fun c hc he => ?_⟩
  rw [freshSlice_ctxRead hc] at he
  have hle := initCtx_pStateIdx_le (romEntry s.rom sel c).1 (romEntry s.rom sel c).2 (qpValue qp)
  rw [← initEntry, he] at hle
  exact absurd hle (by decide)

theorem enginitBody_ends {s : State} (h : ContextInv s) :
    Ends (fun t => EngineInv t ∧ ContextInv t) ContextInv (enginitBody s) := by
  have hread : ContextInv (readBits 9 0 s).state := h.quiet (readBits_frame [] 9 0 s) (readBits_quiet 9 0 s)
  obtain ⟨v, t, e, -, e'⟩ | ⟨v, t, e, hv, e'⟩ | ⟨f, t, e, e'⟩ | ⟨p, t, e, e'⟩ := enginitBody_cases s <;>
    rw [e] at hread <;> rw [e']
  · exact hread
  · refine ⟨ActiveOk.engineInv ⟨rfl, ?_⟩, hread⟩
    simp
    omega
  · exact hread
  · exact hread

theorem alignBody_ends (f : Bool) {s : State} (hE : EngineInv s) (hC : ContextInv s) :
    Ends (fun t => EngineInv t ∧ ContextInv t) ContextInv (commandBody (.align f) s) := by
  obtain ⟨taken, asked, -, e⟩ := alignBody_bitPort f s
  have hboth : EngineInv (commandBody (.align f) s).state ∧ ContextInv (commandBody (.align f) s).state := by
    rw [e]
    exact ⟨hE, hC⟩
  cases hr : commandBody (.align f) s with
  | ok v t =>
    rw [hr] at hboth
    exact hboth
  | raise f t | wait p t =>
    rw [hr] at hboth
    exact hboth.2

/-- A body that ends OK leaves the bounds of R29, and however it ends state 63 stands in entry 276 alone. -/
theorem commandBody_invariants {i : Instr} {s : State} (hp : precondition i s = true) (hE : EngineInv s)
    (hC : ContextInv s) : Ends (fun t => EngineInv t ∧ ContextInv t) ContextInv (commandBody i s) := by
  obtain hi | ⟨qp, sel, rfl⟩ | ⟨f, rfl⟩ | rfl | ⟨c, rfl⟩ | rfl := decodesBins_or i
  · have hends := commandBody_ends (P := fun t => DecodedOk t ∧ ContextInv t) (Q := ContextInv)
      (fun kind _ => binOf_ends kind) (fun opc part n prev s h => csel_ends opc part n prev (fun _ => h) h.2)
      (fun _ h => h.2) hi hp ⟨.inl (hE.activeOk (hi s hp)), hC⟩
    cases hr : commandBody i s with
    | ok v t =>
      rw [hr] at hends
      exact ⟨hends.1.engineInv, hends.2⟩
    | raise f t | wait p t =>
      rw [hr] at hends
      exact hends
  · exact ⟨freshSlice_engineInv qp sel s, freshSlice_contextInv qp sel s⟩
  · exact alignBody_ends f hE hC
  · exact enginitBody_ends hC
  · exact ⟨hE, hC⟩
  · exact ⟨hE, hC⟩

/-- The fault state through a body (R186): only CTXINIT and STATRD run while a fault is pending. -/
theorem commandBody_faultInv {i : Instr} {s : State} (h : Ready i s) (hF : FaultInv s) :
    FaultInv (commandBody i s).state := by
  obtain ⟨href, -, hp⟩ := h
  by_cases hnone : (commandBody i s).state.FAULT = .none
  · exact ⟨fun hne => absurd hnone hne, by simp [hnone]⟩
  have hpending : s.FAULT ≠ .none := fun e => hnone (commandBody_fault_none hp e)
  cases i with
  | ctxinit qp sel => exact absurd rfl hnone
  | statrd => exact hF
  | align _ | enginit | dec _ | byp | trm | u | tu _ | fl _ | uegk _ _ _ | qpd | cbp _ | mbtI _ | mbtSI _ _ | mbtP
  | mbtB _ | smbtP | smbtB | ctxrd _ =>
    exact absurd (fault_none_of_not_refused href (by simp [opcode]) (by simp [opcode])) hpending

/-! ### The invariant -/

/-- Fault entry by a code that can be raised leaves the invariant, whatever the engine held. -/
theorem enterFault_inv {f : FaultCode} {s : State} (hne : f ≠ .none) (hf : f ≠ .unsupportedFeature)
    (hs : s.FAULT ≠ .unsupportedFeature) : Inv (enterFault f s) := by
  have hkept : keepFirst s.FAULT f ≠ .none := by
    unfold keepFirst
    split
    · exact hne
    · assumption
  refine ⟨fun _ => ⟨fun h => absurd h EngState.noConfusion, fun h => absurd h EngState.noConfusion, fun _ h => ?_⟩,
    ⟨fun _ => ⟨rfl, rfl⟩, keepFirst_ne hs hf⟩, fun h => Bool.noConfusion h⟩
  exact absurd h hkept

/-- No body raises the code of no fault (R180). -/
theorem bodyFaults_ne_none {i : Instr} {f : FaultCode} {t : State} (h : bodyFaults i f t) : f ≠ .none := by
  rintro rfl
  cases i <;> simp [bodyFaults, RunFault, BinFault, StreamEnd] at h

theorem commandBody_inv {i : Instr} {s : State} (hready : Ready i s) (hE : EngineInv s) (hF : FaultInv s)
    (hC : ContextInv s) : Inv (finish (commandBody i s)) := by
  have hends := commandBody_invariants hready.2.2 hE hC
  have hfault := commandBody_faultInv hready hF
  cases hr : commandBody i s with
  | ok v t =>
    rw [hr] at hends hfault
    exact ⟨fun _ => hends.1, hfault, hends.2⟩
  | raise f t =>
    rw [hr] at hfault
    have hraised := commandBody_raises i s f t hr
    exact enterFault_inv (bodyFaults_ne_none hraised) (bodyFaults_ne_unsupportedFeature hraised) hfault.2
  | wait p t =>
    rw [hr] at hends hfault
    exact ⟨fun h => absurd h (Option.some_ne_none p), hfault, hends⟩

theorem exec_inv {i : Instr} {s t : State} (hE : EngineInv s) (hF : FaultInv s) (hC : ContextInv s)
    (h : exec i s = .next t) : Inv t := by
  obtain ⟨-, rfl⟩ | ⟨-, -, rfl⟩ | ⟨hready, rfl⟩ := exec_cases h
  · exact ⟨fun _ => hE, hF, hC⟩
  · exact enterFault_inv FaultCode.noConfusion FaultCode.noConfusion hF.2
  · exact commandBody_inv hready hE hF hC

theorem illegalWord_inv (w : Word) {s : State} (hE : EngineInv s) (hF : FaultInv s) (hC : ContextInv s) :
    Inv (illegalWord w s) := by
  unfold illegalWord
  split
  · exact ⟨fun _ => hE, hF, hC⟩
  · exact enterFault_inv FaultCode.noConfusion FaultCode.noConfusion hF.2

theorem wait_none_of_acceptCommand {s : State} {p : Word × State} (h : acceptCommand s = some p) : s.wait = none := by
  by_contra hne
  rw [acceptCommand_none (.inl hne)] at h
  cases h

/-- Settles O58: nothing was decoded, no fault is pending, and the store is not valid. -/
theorem invariantHoldsAfterReset : Obligations.InvariantHoldsAfterReset := by
  refine ⟨fun _ => ⟨fun h => absurd h EngState.noConfusion, fun h => absurd h EngState.noConfusion, fun _ _ => ⟨rfl, rfl⟩⟩,
    ⟨fun h => absurd rfl h, FaultCode.noConfusion⟩, fun h => Bool.noConfusion h⟩

/-- Settles O59: the block holds, runs a command, or meets an illegal word. -/
theorem everyStepKeepsTheInvariant : Obligations.EveryStepKeepsTheInvariant := by
  unfold Obligations.EveryStepKeepsTheInvariant
  rintro s t ⟨hE, hF, hC⟩ hstep
  obtain haccept | ⟨w, rest, haccept⟩ := acceptCommand_cases s
  · rw [step_hold haccept] at hstep
    cases hstep
    exact ⟨hE, hF, hC⟩
  have hE' := hE (wait_none_of_acceptCommand haccept)
  cases hd : decode w with
  | ok i =>
    rw [step_command haccept hd] at hstep
    exact exec_inv (s := { s with cmds := rest }) hE' hF hC hstep
  | error e =>
    rw [step_illegal haccept hd] at hstep
    cases hstep
    exact illegalWord_inv (s := { s with cmds := rest }) w hE' hF hC

end Sys2Proof.Machine
end

section
/-!
PROOFS. The engine (20_memory.md, 40_engine.md): reading bits and skipping to a byte boundary in closed form, ENGINIT and ALIGN, and one
bin of each kind, with the engine's state after it.
-/
namespace Sys2Proof.Machine

/-! ### Reading bits (R52) -/

theorem readBits_eq (n v : Nat) {s : State} (h : n ≤ s.bits.length) :
    readBits n v s =
      .ok (v * 2 ^ n + msbValue (s.bits.take n)) { s with bits := s.bits.drop n, pos := s.pos + n } := by
  induction n generalizing v s with
  | zero => simp [readBits]
  | succ n ih =>
    obtain ⟨b, rest, hb⟩ := List.exists_cons_of_length_pos (Nat.lt_of_lt_of_le n.succ_pos h)
    have hrest : n ≤ rest.length := by simpa [hb] using h
    have hvalue : (2 * v + b.toNat) * 2 ^ n + msbValue (rest.take n) =
        v * 2 ^ (n + 1) + msbValue (s.bits.take (n + 1)) := by
      rw [hb, List.take_succ_cons, msbValue_cons, List.length_take_of_le hrest]
      ring
    rw [readBits, readBit_cons hb, bind_ok, ih _ (s := s.takeBit rest) hrest, takeBit_bits, hvalue, hb]
    simp [State.takeBit, Nat.add_assoc, Nat.add_comm 1 n]

theorem readBits_exhausted (n v : Nat) {s : State} (h : s.bits.length < n) (hend : s.bitEnd = .exhausted) :
    readBits n v s = .raise .streamExhaustion { s with bits := [], pos := s.pos + s.bits.length } := by
  induction n generalizing v s with
  | zero => exact absurd h (Nat.not_lt_zero _)
  | succ n ih =>
    cases hb : s.bits with
    | nil =>
      rw [readBits, readBit_exhausted hb hend, bind_raise, List.length_nil, Nat.add_zero, ← hb]
    | cons b rest =>
      rw [hb] at h
      rw [readBits, readBit_cons hb, bind_ok, ih _ (s := s.takeBit rest) (Nat.lt_of_succ_lt_succ h) hend]
      simp [State.takeBit, Nat.add_assoc, Nat.add_comm 1]

/-- Settles O17: the closed form from the value 0. -/
theorem readBitsMostSignificantFirst : Obligations.ReadBitsMostSignificantFirst := by
  unfold Obligations.ReadBitsMostSignificantFirst
  intro n s h
  rw [readBits_eq n 0 h, Nat.zero_mul, Nat.zero_add]

/-! ### ENGINIT (R100) -/

theorem exec_enginit_ready {s : State} (hfault : s.FAULT = .none) (hact : s.engState ≠ .active) :
    exec .enginit s = .next (finish (enginitBody s)) :=
  exec_ready (ready_of hfault rfl (by simp [precondition, engActive_false hact]))

/-- Settles O18: the nine bits, read in closed form. -/
theorem enginitPrimesTheEngine : Obligations.EnginitPrimesTheEngine := by
  unfold Obligations.EnginitPrimesTheEngine
  intro s hfault hact hbits hv
  rw [exec_enginit_ready hfault hact, enginitBody, readBits_eq 9 0 hbits, Nat.zero_mul, Nat.zero_add, bind_ok,
    if_neg (by omega)]
  rfl

/-- Settles O19: the offset after nine bits, and the end of the bits before them. -/
theorem enginitFaults : Obligations.EnginitFaults := by
  unfold Obligations.EnginitFaults
  intro s hfault hact
  rw [exec_enginit_ready hfault hact, enginitBody]
  refine ⟨fun hbits hv => ?_, fun hbits hend => ?_⟩
  · rw [readBits_eq 9 0 hbits, Nat.zero_mul, Nat.zero_add, bind_ok, if_pos hv]
    rfl
  · rw [readBits_exhausted 9 0 hbits hend]
    rfl

/-! ### ALIGN (R101) -/

theorem byteAligned_iff (s : State) : byteAligned s = true ↔ alignGap s = 0 := by
  rw [byteAligned, beq_iff_eq, alignGap]
  omega

theorem alignGap_le (s : State) : alignGap s ≤ 7 := by
  rw [alignGap]
  omega

/-- The state after `n` rounds of ALIGN's loop: `n` bits and `n` answers to `aligned?` were taken. -/
def alignSkip (n : Nat) (s : State) : State :=
  { s with bits := s.bits.drop n, pos := s.pos + n, alignsLeft := s.alignsLeft.map (· - n) }

theorem alignSkip_zero (s : State) : alignSkip 0 s = s := by
  simp [alignSkip]

theorem alignGap_alignSkip {n : Nat} {s : State} (h : n ≤ alignGap s) : alignGap (alignSkip n s) = alignGap s - n := by
  rw [alignGap] at h ⊢
  simp only [alignSkip, alignGap]
  omega

theorem alignSkip_succ (n : Nat) {s : State} {b : Bool} {rest : List Bool} (h : s.bits = b :: rest) :
    alignSkip n (s.takeAligned.takeBit rest) = alignSkip (n + 1) s := by
  simp [alignSkip, State.takeAligned, State.takeBit, h, Function.comp_def, Nat.sub_sub, Nat.add_comm 1 n, Nat.add_assoc]

/-- A round before the byte boundary, its `aligned?` answered. -/
theorem alignLoop_unaligned {f : Bool} {fuel n : Nat} {s : State} (hasked : s.alignsLeft ≠ some 0)
    (hgap : 0 < alignGap s) : alignLoop f (fuel + 1) n s = (readBit s.takeAligned).bind fun b s' =>
      if b = f then alignLoop f fuel (n + 1) s' else .raise .structuralViolation s' := by
  have haligned : ¬ byteAligned s = true := by
    rw [byteAligned_iff]
    omega
  rw [alignLoop, askAligned, if_neg hasked, bind_ok, if_neg haligned]

theorem alignLoop_aligned {f : Bool} {fuel n : Nat} {s : State} (hasked : s.alignsLeft ≠ some 0) (hgap : alignGap s = 0) :
    alignLoop f (fuel + 1) n s = .ok n s.takeAligned := by
  rw [alignLoop, askAligned, if_neg hasked, bind_ok, if_pos ((byteAligned_iff s).2 hgap)]

theorem alignLoop_unanswered {f : Bool} {fuel n : Nat} {s : State} (h : s.alignsLeft = some 0) :
    alignLoop f (fuel + 1) n s = .wait .bit s := by
  rw [alignLoop, askAligned, if_pos h, bind_wait]

/-- Rounds that find the bit they want. -/
theorem alignLoop_skip (f : Bool) (k : Nat) {fuel n : Nat} {s : State} (hgap : k ≤ alignGap s) (hbits : k ≤ s.bits.length)
    (heq : ∀ b ∈ s.bits.take k, b = f) (hasked : ∀ m, s.alignsLeft = some m → k ≤ m) :
    alignLoop f (fuel + k) n s = alignLoop f fuel (n + k) (alignSkip k s) := by
  induction k generalizing n s with
  | zero => rw [alignSkip_zero, Nat.add_zero, Nat.add_zero]
  | succ k ih =>
    obtain ⟨b, rest, hb⟩ := List.exists_cons_of_length_pos (Nat.lt_of_lt_of_le k.succ_pos hbits)
    rw [hb, List.take_succ_cons, List.forall_mem_cons] at heq
    obtain ⟨rfl, heq⟩ := heq
    have hasked0 : s.alignsLeft ≠ some 0 := fun e => absurd (hasked 0 e) (by omega)
    have hnext : alignGap (s.takeAligned.takeBit rest) = alignGap s - 1 := by
      rw [← alignSkip_zero (s.takeAligned.takeBit rest), alignSkip_succ 0 hb, alignGap_alignSkip (by omega)]
    have hrest : k ≤ rest.length := by simpa [hb] using hbits
    have hasked' : ∀ m, (s.takeAligned.takeBit rest).alignsLeft = some m → k ≤ m := by
      intro m hm
      obtain ⟨m', hm', rfl⟩ := Option.map_eq_some_iff.1 hm
      have := hasked m' hm'
      omega
    rw [← Nat.add_assoc, alignLoop_unaligned hasked0 (by omega), readBit_cons (s := s.takeAligned) hb, bind_ok, if_pos rfl,
      ih (by omega) hrest heq hasked', alignSkip_succ k hb, Nat.add_assoc n 1 k, Nat.add_comm 1 k]

theorem exec_align_ready {s : State} (f : Bool) (hfault : s.FAULT = .none) (hact : s.engState ≠ .active) :
    exec (.align f) s = .next (finish ((alignLoop f 8 0 s).map (BitVec.ofNat 32))) :=
  exec_ready (ready_of hfault rfl (by simp [precondition, engActive_false hact]))

/-- ALIGN's loop after the `k` rounds that find the bit they want: at least one round is left. -/
theorem alignLoop_start (f : Bool) (k : Nat) {s : State} (hgap : k ≤ alignGap s) (hbits : k ≤ s.bits.length)
    (heq : ∀ b ∈ s.bits.take k, b = f) (hasked : ∀ m, s.alignsLeft = some m → k ≤ m) :
    alignLoop f 8 0 s = alignLoop f (7 - k + 1) k (alignSkip k s) := by
  have hle := alignGap_le s
  have := alignLoop_skip f k (fuel := 7 - k + 1) (n := 0) hgap hbits heq hasked
  rwa [show 7 - k + 1 + k = 8 by omega, Nat.zero_add] at this

theorem alignSkip_asked {n : Nat} {s : State} (hasked : ∀ m, s.alignsLeft = some m → n + 1 ≤ m) :
    (alignSkip n s).alignsLeft ≠ some 0 := by
  intro h
  obtain ⟨m, hm, he⟩ := Option.map_eq_some_iff.1 h
  have := hasked m hm
  omega

/-- Settles O20: the rounds up to the boundary, or up to the request that is not answered. -/
theorem alignSkipsToTheByteBoundary : Obligations.AlignSkipsToTheByteBoundary := by
  unfold Obligations.AlignSkipsToTheByteBoundary
  intro s f hfault hact
  rw [exec_align_ready f hfault hact]
  refine ⟨fun hbits heq hasked => ?_, fun k hk hgap hbits heq => ?_⟩
  · have hgap0 : alignGap (alignSkip (alignGap s) s) = 0 := by rw [alignGap_alignSkip le_rfl, Nat.sub_self]
    rw [alignLoop_start f _ le_rfl hbits heq fun m hm => Nat.le_of_succ_le (hasked m hm),
      alignLoop_aligned (alignSkip_asked hasked) hgap0]
    simp [finish, State.respond, alignSkip, State.takeAligned, Function.comp_def, Nat.sub_sub, faultCode]
  · have hnone : (alignSkip k s).alignsLeft = some 0 := by simp [alignSkip, hk]
    rw [alignLoop_start f k hgap hbits heq fun m hm => by rw [hk] at hm; cases hm; rfl, alignLoop_unanswered hnone]
    simp [finish, State.waitOn, alignSkip, hk]

/-- Settles O21: the round after the bits that equal the operand. -/
theorem alignFaults : Obligations.AlignFaults := by
  unfold Obligations.AlignFaults
  intro s f n hfault hact hgap hasked
  rw [exec_align_ready f hfault hact]
  have hround {tail : List Bool} (hb : s.bits = List.replicate n f ++ tail) : alignLoop f 8 0 s =
      (readBit (alignSkip n s).takeAligned).bind fun b s' =>
        if b = f then alignLoop f (7 - n) (n + 1) s' else .raise .structuralViolation s' := by
    rw [alignLoop_start f n hgap.le (by simp [hb]) (by simp [hb]) fun m hm => Nat.le_of_succ_le (hasked m hm),
      alignLoop_unaligned (alignSkip_asked hasked) (by rw [alignGap_alignSkip hgap.le]; omega)]
  refine ⟨fun rest hb => ?_, fun hb hend => ?_⟩
  · have hnext : (alignSkip n s).takeAligned.bits = (!f) :: rest := by simp [alignSkip, hb]
    rw [hround hb, readBit_cons hnext, bind_ok, if_neg (by simp)]
    simp [finish, alignSkip, State.takeAligned, State.takeBit, Function.comp_def, Nat.sub_sub]
  · have hnext : (alignSkip n s).takeAligned.bits = [] := by simp [alignSkip, hb]
    rw [hround (tail := []) (by simpa using hb), readBit_exhausted hnext hend, bind_raise]
    simp [finish, alignSkip, State.takeAligned, Function.comp_def, Nat.sub_sub, hb]

/-! ### Renormalization, round by round (R95) -/

theorem renormD_stop {s : State} (h : 256 ≤ s.codIRange.toNat) : renormD s = .ok () s := by
  rw [renormD, renormLoop, if_neg (by omega)]

theorem renormLoop_round {fuel : Nat} {s : State} (h : s.codIRange.toNat < 256) : renormLoop (fuel + 1) s =
    (readBit (s.setRange (2 * s.codIRange.toNat))).bind fun b s' =>
      renormLoop fuel (s'.setOffset (2 * s'.codIOffset.toNat + b.toNat)) := by
  rw [renormLoop, if_pos h]

theorem toNat_ofNat_nine {n : Nat} (h : n < 512) : (BitVec.ofNat 9 n).toNat = n := Nat.mod_eq_of_lt h

/-- Renormalization of a range that needs more doublings than there are bits left. -/
theorem renormLoop_exhausted {fuel : Nat} {s : State} (hfuel : s.bits.length < fuel)
    (hlow : ∀ j ≤ s.bits.length, s.codIRange.toNat * 2 ^ j < 256) (hend : s.bitEnd = .exhausted) :
    ∃ t, renormLoop fuel s = .raise .streamExhaustion t := by
  induction fuel generalizing s with
  | zero => exact absurd hfuel (Nat.not_lt_zero _)
  | succ fuel ih =>
    have hr : s.codIRange.toNat < 256 := by simpa using hlow 0 (Nat.zero_le _)
    rw [renormLoop_round hr]
    cases hb : s.bits with
    | nil => exact ⟨_, by rw [readBit_exhausted (s := s.setRange _) hb hend, bind_raise]⟩
    | cons b rest =>
      rw [readBit_cons (s := s.setRange _) hb, bind_ok]
      rw [hb, List.length_cons] at hfuel hlow
      refine ih (Nat.lt_of_succ_lt_succ hfuel) (fun j hj => ?_) hend
      have hdouble : s.codIRange.toNat * 2 ^ (j + 1) = 2 * s.codIRange.toNat * 2 ^ j := by ring
      simp only [setOffset_codIRange, takeBit_codIRange, setRange_codIRange]
      rw [toNat_ofNat_nine (by omega), ← hdouble]
      exact hlow (j + 1) (Nat.succ_le_succ hj)

/-! ### Fault entry sees little of where a bin stopped (R186) -/

/-- Fault entry is the same after a piece of a command that took every bit and no CSEL answer: the registers and entries that the
piece wrote are lost. -/
theorem enterFault_of_frame {fixed : List CtxIdx} {s t : State} (h : BinFrame fixed s t) (hans : t.cselAns = s.cselAns)
    (hreqs : t.cselReqs = s.cselReqs) (hbits : t.bits = []) (f : FaultCode) :
    enterFault f t = enterFault f { s with bits := [], pos := s.pos + s.bits.length } := by
  obtain ⟨taken, htaken, hpos⟩ := h.bits
  rw [hbits, List.append_nil] at htaken
  simp only [enterFault, State.faultRegisters, State.forgetCtx, State.respond, h.fault, h.rom, h.bitEnd, h.alignsLeft,
    h.cmds, h.rsps, h.rspHeld, h.wait, h.freeCount, hans, hreqs, hbits, hpos, htaken]

/-! ### DEC (R93, R102) -/

/-- A decision bin in closed form, when the bit source has the bits. -/
theorem decodeDecision_eq {s : State} (c : CtxIdx) {bin : Bool} {range offset : Nat} (hA : ActiveOk s)
    (hsplit : decisionSplit (s.ctxRead c) s.codIRange s.codIOffset = (bin, range, offset))
    (hbits : renormShift range ≤ s.bits.length) :
    decodeDecision c s = .ok bin (renormed (renormShift range)
      ((s.setEngine range offset).ctxWrite c (applyBin (s.ctxRead c) bin))) := by
  have hbounds := decisionSplit_bounds (s.ctxRead c) hA
  simp only [hsplit] at hbounds
  obtain ⟨hlo, hhi, hoff⟩ := hbounds
  have hrange : ((s.setEngine range offset).ctxWrite c (applyBin (s.ctxRead c) bin)).codIRange.toNat = range :=
    toNat_ofNat_nine (by omega)
  have hoffset : ((s.setEngine range offset).ctxWrite c (applyBin (s.ctxRead c) bin)).codIOffset.toNat = offset :=
    toNat_ofNat_nine (by omega)
  simp only [decodeDecision, hsplit]
  rw [renormD_eq (by omega) (by omega) (by rw [hrange]; exact hbits), hrange, map_ok]

theorem decisionSplit_lps {v : CtxVar} {range offset : BitVec 9}
    (h : range.toNat - rangeLPS v.pStateIdx (rangeIdx range) ≤ offset.toNat) : decisionSplit v range offset =
      (!v.valMPS, rangeLPS v.pStateIdx (rangeIdx range),
        offset.toNat - (range.toNat - rangeLPS v.pStateIdx (rangeIdx range))) := if_pos h

theorem decisionSplit_mps {v : CtxVar} {range offset : BitVec 9}
    (h : offset.toNat < range.toNat - rangeLPS v.pStateIdx (rangeIdx range)) : decisionSplit v range offset =
      (v.valMPS, range.toNat - rangeLPS v.pStateIdx (rangeIdx range), offset.toNat) := if_neg (Nat.not_le.2 h)

theorem exec_dec_ready {s : State} (c : CtxIdx) (hfault : s.FAULT = .none) (hact : s.engState = .active)
    (hvalid : s.ctxValid = true) : exec (.dec c) s = .next (finish ((decodeDecision c s).map bitWord)) :=
  exec_ready (ready_of hfault rfl (by simp [precondition, (engActive_iff s).2 hact, hvalid]))

/-- Settles O22: the split takes the LPS sub-range. -/
theorem decTakesTheLpsPath : Obligations.DecTakesTheLpsPath := by
  unfold Obligations.DecTakesTheLpsPath
  intro s c p m rLPS rMPS hfault hact hvalid hE hread hLPS hMPS hoff hbits
  subst hLPS hMPS
  have hsplit := decisionSplit_lps (v := s.ctxRead c) (range := s.codIRange) (offset := s.codIOffset)
    (by rw [hread]; exact hoff)
  rw [exec_dec_ready c hfault hact hvalid, decodeDecision_eq c (hE.activeOk hact) hsplit (by rw [hread]; exact hbits),
    hread, applyBin_lps (by simp)]
  cases m <;> rfl

/-- From 128 on a range needs at most one doubling (R105). -/
theorem renormShift_le_one {r : Nat} (h : 128 ≤ r) : renormShift r ≤ 1 := by
  have hlog : 7 ≤ Nat.log2 r := (Nat.le_log2 (by omega)).2 h
  unfold renormShift
  split <;> omega

/-- Settles O23: the split takes the rest of the range, which is at least 128. -/
theorem decTakesTheMpsPath : Obligations.DecTakesTheMpsPath := by
  unfold Obligations.DecTakesTheMpsPath
  intro s c p m rLPS rMPS hfault hact hvalid hE hread hLPS hMPS hoff hbits
  subst hLPS hMPS
  obtain ⟨hlo, hhi, -⟩ := hE.1 hact
  have hrest : rangeLPS p (s.codIRange.extractLsb' 6 2) + 128 ≤ s.codIRange.toNat := (lps_bounds p s.codIRange hlo hhi).2.2
  have hsplit := decisionSplit_mps (v := s.ctxRead c) (range := s.codIRange) (offset := s.codIOffset)
    (by rw [hread]; exact hoff)
  refine ⟨renormShift_le_one (by omega), ?_⟩
  rw [exec_dec_ready c hfault hact hvalid, decodeDecision_eq c (hE.activeOk hact) hsplit (by rw [hread]; exact hbits),
    hread, applyBin_mps]
  cases m <;> rfl

/-- The sub-range a decision takes, whichever path it is. -/
theorem decisionSplit_range (v : CtxVar) (range offset : BitVec 9) : (decisionSplit v range offset).2.1 =
    if range.toNat - rangeLPS v.pStateIdx (rangeIdx range) ≤ offset.toNat then rangeLPS v.pStateIdx (rangeIdx range)
    else range.toNat - rangeLPS v.pStateIdx (rangeIdx range) := by
  unfold decisionSplit
  dsimp only
  split <;> rfl

/-- A decision that the bits do not suffice for faults with every bit taken. -/
theorem decodeDecision_exhausted {s : State} (c : CtxIdx) (hA : ActiveOk s) (hend : s.bitEnd = .exhausted)
    (hbits : s.bits.length < renormShift (decisionSplit (s.ctxRead c) s.codIRange s.codIOffset).2.1) :
    ∃ t, decodeDecision c s = .raise .streamExhaustion t := by
  obtain ⟨hlo, hhi, hoff⟩ := decisionSplit_bounds (s.ctxRead c) hA
  simp only [decodeDecision]
  generalize decisionSplit (s.ctxRead c) s.codIRange s.codIOffset = d at *
  obtain ⟨t, ht⟩ := renormLoop_exhausted (s := (s.setEngine d.2.1 d.2.2).ctxWrite c (applyBin (s.ctxRead c) d.1))
    (Nat.lt_succ_self _) (fun j hj => by
      have hrange : ((s.setEngine d.2.1 d.2.2).ctxWrite c (applyBin (s.ctxRead c) d.1)).codIRange.toNat = d.2.1 :=
        toNat_ofNat_nine (by omega)
      rw [hrange]
      exact (renormShift_spec (by omega)).1 j (Nat.lt_of_le_of_lt hj hbits)) hend
  exact ⟨t, map_eq_raise.2 ht⟩

/-- Settles O24: the fault of the renormalization, at fault entry. -/
theorem decRunsOutOfBits : Obligations.DecRunsOutOfBits := by
  unfold Obligations.DecRunsOutOfBits
  intro s c rLPS rMPS hfault hact hvalid hE hLPS hMPS hbits hend
  subst hLPS hMPS
  obtain ⟨t, ht⟩ := decodeDecision_exhausted c (hE.activeOk hact) hend (by rw [decisionSplit_range]; exact hbits)
  have hframe := decodeDecision_frame (List.mem_singleton_self c) s
  have hquiet := decodeBin_quiet (.dec c) s
  obtain ⟨-, hempty, -⟩ := decodeBin_raises (.dec c) s _ _ ht
  rw [decodeBin] at hquiet
  rw [ht] at hframe hquiet
  rw [exec_dec_ready c hfault hact hvalid, ht, map_raise]
  exact congrArg _ (enterFault_of_frame hframe hquiet.1 hquiet.2.1 hempty _)

/-! ### BYP (R96, R103) -/

/-- The number a bypass bin compares with codIRange: the offset doubled, with the next bit. -/
theorem decodeBypass_cons {s : State} {b : Bool} {rest : List Bool} (h : s.bits = b :: rest) {t : Nat}
    (ht : t = 2 * s.codIOffset.toNat + b.toNat) : decodeBypass s =
      .ok (decide (s.codIRange.toNat ≤ t))
        ((s.takeBit rest).setOffset (if s.codIRange.toNat ≤ t then t - s.codIRange.toNat else t)) := by
  subst ht
  rw [decodeBypass, readBit_cons h, bind_ok]
  dsimp only
  split <;> simp [*]

theorem exec_byp_ready {s : State} (hfault : s.FAULT = .none) (hact : s.engState = .active) :
    exec .byp s = .next (finish ((decodeBypass s).map bitWord)) :=
  exec_ready (ready_of hfault rfl ((engActive_iff s).2 hact))

/-- Settles O25: one bit, or none. -/
theorem bypDecodesOneBypassBin : Obligations.BypDecodesOneBypassBin := by
  unfold Obligations.BypDecodesOneBypassBin
  intro s hfault hact
  rw [exec_byp_ready hfault hact]
  refine ⟨fun b rest t hbits ht => ?_, fun hbits hend => ?_⟩
  · rw [decodeBypass_cons hbits ht]
    by_cases h : s.codIRange.toNat ≤ t
    · simp only [h, if_true, decide_true]
      rfl
    · simp only [h, if_false, decide_false]
      rfl
  · rw [decodeBypass, readBit_exhausted hbits hend]
    rfl

/-- One step of the long division: from the remainder `o` the next bit gives the quotient's next bit and the remainder. -/
theorem division_step {o r b : Nat} (ho : o < r) (hb : b ≤ 1) :
    (2 * o + b) / r = (decide (r ≤ 2 * o + b)).toNat ∧
    (2 * o + b) % r = if r ≤ 2 * o + b then 2 * o + b - r else 2 * o + b := by
  by_cases h : r ≤ 2 * o + b
  · have hlt : 2 * o + b - r < r := by omega
    simp [h, Nat.div_eq_of_lt_le (n := r) (k := 1) (m := 2 * o + b) (by omega) (by omega), Nat.mod_eq_sub_mod h,
      Nat.mod_eq_of_lt hlt]
  · simp [h, Nat.div_eq_of_lt (Nat.not_le.1 h), Nat.mod_eq_of_lt (Nat.not_le.1 h)]

/-- The number `t`, divided by `r`, with `n` further bits `m`: the quotient's first bit, then the rest of the division. -/
theorem division_append (t r n m : Nat) (hr : 0 < r) :
    (t * 2 ^ n + m) / r = t / r * 2 ^ n + (t % r * 2 ^ n + m) / r ∧
    (t * 2 ^ n + m) % r = (t % r * 2 ^ n + m) % r := by
  have hsplit : t * 2 ^ n + m = r * (t / r * 2 ^ n) + (t % r * 2 ^ n + m) := by
    conv_lhs => rw [← Nat.div_add_mod t r]
    ring
  rw [hsplit]
  exact ⟨Nat.mul_add_div hr _ _, Nat.mul_add_mod _ _ _⟩

/-- Settles O27: one step of the division per bin, from the front. -/
theorem bypassBinsAreALongDivision : Obligations.BypassBinsAreALongDivision := by
  unfold Obligations.BypassBinsAreALongDivision
  intro n
  induction n with
  | zero =>
    intro s hact ho _
    refine ⟨[], rfl, ?_, ?_⟩
    · simp [Nat.div_eq_of_lt ho]
    · simp [Nat.mod_eq_of_lt ho, decodesBins]
  | succ n ih =>
    intro s hact ho hbits
    obtain ⟨b, rest, hb⟩ := List.exists_cons_of_length_pos (Nat.lt_of_lt_of_le n.succ_pos hbits)
    have hrest : n ≤ rest.length := by simpa [hb] using hbits
    have hr : 0 < s.codIRange.toNat := by omega
    have hr512 : s.codIRange.toNat < 512 := s.codIRange.isLt
    obtain ⟨hbin, hrem⟩ := division_step ho (Bool.toNat_le b)
    have hbyp := decodeBypass_cons hb rfl
    rw [← hrem] at hbyp
    generalize ht : 2 * s.codIOffset.toNat + b.toNat = t at *
    have hmod := Nat.mod_lt t hr
    have hoffset : ((s.takeBit rest).setOffset (t % s.codIRange.toNat)).codIOffset.toNat = t % s.codIRange.toNat :=
      toNat_ofNat_nine (by omega)
    obtain ⟨bins, hlen, hvalue, hdec⟩ := ih ((s.takeBit rest).setOffset (t % s.codIRange.toNat)) hact
      (by rw [hoffset]; exact hmod) hrest
    have htotal : s.codIOffset.toNat * 2 ^ (n + 1) + msbValue (s.bits.take (n + 1)) =
        t * 2 ^ n + msbValue (rest.take n) := by
      rw [hb, List.take_succ_cons, msbValue_cons, List.length_take_of_le hrest, ← ht]
      ring
    obtain ⟨hquot, hremainder⟩ := division_append t s.codIRange.toNat n (msbValue (rest.take n)) hr
    rw [hoffset] at hvalue hdec
    refine ⟨decide (s.codIRange.toNat ≤ t) :: bins, by rw [List.length_cons, hlen], ?_, ?_⟩
    · rw [htotal, hquot, msbValue_cons, hlen, hvalue, hbin]
      rfl
    · rw [List.replicate_succ, decodesBins_cons]
      refine ⟨_, (binOf_active hact).trans hbyp, hdec.trans ?_⟩
      rw [htotal, hremainder]
      simp [State.setOffset, State.takeBit, hb, Nat.add_assoc, Nat.add_comm 1 n]

/-! ### TRM (R97, R104) -/

theorem decodeTerminate_one {s : State} (h : s.codIRange.toNat - 2 ≤ s.codIOffset.toNat) :
    decodeTerminate s = .ok true ((s.setRange (s.codIRange.toNat - 2)).setEngState .terminated) := if_pos h

theorem decodeTerminate_zero {s : State} (h : s.codIOffset.toNat < s.codIRange.toNat - 2) :
    decodeTerminate s = (renormD (s.setRange (s.codIRange.toNat - 2))).map fun _ => false := if_neg (Nat.not_le.2 h)

theorem exec_trm_ready {s : State} (hfault : s.FAULT = .none) (hact : s.engState = .active) :
    exec .trm s = .next (finish ((decodeTerminate s).map bitWord)) :=
  exec_ready (ready_of hfault rfl ((engActive_iff s).2 hact))

/-- The one doubling of a range of at least 128. -/
theorem renormD_once {s : State} (hlo : 128 ≤ s.codIRange.toNat) (hhi : s.codIRange.toNat < 256) :
    renormD s = (readBit (s.setRange (2 * s.codIRange.toNat))).bind fun b s' =>
      .ok () (s'.setOffset (2 * s'.codIOffset.toNat + b.toNat)) := by
  have hdoubled : (2 * s.codIRange.toNat) % 512 = 2 * s.codIRange.toNat := Nat.mod_eq_of_lt (by omega)
  rw [renormD, renormLoop_round hhi]
  obtain ⟨b, rest, hb, e⟩ | ⟨-, -, e⟩ | ⟨-, -, e⟩ := readBit_cases (s.setRange (2 * s.codIRange.toNat)) <;> rw [e]
  · rw [setRange_bits] at hb
    rw [bind_ok, bind_ok, hb, List.length_cons, renormLoop, if_neg]
    simp [hdoubled]
    omega
  · rfl
  · rfl

/-- Settles O26: the bin is 1, or 0 with no doubling, one, or one that finds no bit. -/
theorem trmDecodesOneTerminateBin : Obligations.TrmDecodesOneTerminateBin := by
  unfold Obligations.TrmDecodesOneTerminateBin
  intro s hfault hact hE
  obtain ⟨hlo, hhi, -⟩ := hE.1 hact
  have hrange : (s.setRange (s.codIRange.toNat - 2)).codIRange.toNat = s.codIRange.toNat - 2 :=
    toNat_ofNat_nine (by omega)
  rw [exec_trm_ready hfault hact]
  refine ⟨fun hoff => ?_, fun hoff h258 => ?_, fun hoff h258 b rest hbits => ?_, fun hoff h258 hbits hend => ?_⟩
  · rw [decodeTerminate_one hoff]
    rfl
  · rw [decodeTerminate_zero hoff, renormD_stop (by omega)]
    rfl
  · rw [decodeTerminate_zero hoff, renormD_once (by omega) (by omega), hrange,
      readBit_cons (s := (s.setRange _).setRange _) hbits]
    rfl
  · rw [decodeTerminate_zero hoff, renormD_once (by omega) (by omega), hrange,
      readBit_exhausted (s := (s.setRange _).setRange _) hbits hend]
    rfl

end Sys2Proof.Machine
end

section
/-!
PROOFS. The binarizations (42_binarization.md): what U, TU, FL, UEGK, QPD and CBP return for the bins that they fetch, the map of
mb_qp_delta, and the range of UEGK's results.
-/
namespace Sys2Proof.Machine

/-! ### How a command that is not refused and ends without a fault ends -/

/-- A command whose row of R188's table asks for an ACTIVE engine and a valid store executes from such a state. -/
theorem ready_decoding {i : Instr} {s : State} (hfault : s.FAULT = .none) (hact : s.engState = .active)
    (hvalid : s.ctxValid = true) (hwf : i.wellFormed = true) (hp : precondition i s = (engActive s && s.ctxValid)) :
    Ready i s :=
  ready_of hfault hwf (by rw [hp, (engActive_iff s).2 hact, hvalid, Bool.and_true])

/-- A command that executes and leaves no fault pending responded, or waits on a port. -/
theorem exec_unfaulted {i : Instr} {s t : State} (hready : Ready i s) (h : exec i s = .next t) (ht : t.FAULT = .none) :
    (∃ v u, commandBody i s = .ok v u ∧ t = u.respond 0#3 v) ∨ ∃ p u, commandBody i s = .wait p u ∧ t = u.waitOn p := by
  rw [exec_ready hready] at h
  cases h
  cases hr : commandBody i s with
  | ok v u => exact .inl ⟨v, u, rfl, rfl⟩
  | wait p u => exact .inr ⟨p, u, rfl, rfl⟩
  | raise f u =>
    have hf := bodyFaults_ne_none (commandBody_raises i s f u hr)
    rw [hr] at ht
    by_cases hu : u.FAULT = .none
    · exact absurd ((enterFault_FAULT hu f).symm.trans ht) hf
    · exact absurd ((keepFirst_pending f hu).symm.trans ht) hu

/-- What a command whose body ends OK leaves of the fault code, the wait and the responses. -/
theorem exec_completes {i : Instr} {s u : State} {v : Word} (hready : Ready i s) (hfault : s.FAULT = .none)
    (h : commandBody i s = .ok v u) : exec i s = .next (u.respond 0#3 v) ∧ (u.respond 0#3 v).FAULT = .none ∧
      (u.respond 0#3 v).wait = s.wait ∧ (u.respond 0#3 v).rsps = s.rsps ++ [⟨0#3, v⟩] := by
  have hnone := commandBody_fault_none hready.2.2 hfault
  obtain ⟨-, -, -, -, hrsps, -, hwait, -⟩ := commandBody_outside hready.2.2
  rw [h] at hnone hrsps hwait
  refine ⟨by rw [exec_ready hready, h]; rfl, hnone, hwait, ?_⟩
  rw [respond_rsps]
  exact congrArg (· ++ _) hrsps

/-! ### U, QPD and TU (R134, R135, R138) -/

theorem not_any_none (j : Nat) : ¬ (none : Option Nat).any (· ≤ j) = true := by simp

theorem not_any_some {c j : Nat} (h : j < c) : ¬ (some c).any (· ≤ j) = true := by simpa using h

/-- Settles O31: the unary loop stopped by a 0-bin. -/
theorem uReturnsTheUnaryCount : Obligations.UReturnsTheUnaryCount := by
  unfold Obligations.UReturnsTheUnaryCount
  intro s t v hfault hact hvalid hv hbins
  rw [exec_ready (ready_decoding hfault hact hvalid rfl rfl), commandBody,
    tuCore_zero hv (fun j _ => not_any_none j) hbins]
  rfl

/-- Settles O33: the unary loop stopped by the ceiling. -/
theorem unaryRunsFaultAtTheCeiling : Obligations.UnaryRunsFaultAtTheCeiling := by
  unfold Obligations.UnaryRunsFaultAtTheCeiling
  intro s t hfault hact hvalid
  refine ⟨fun hbins => ?_, fun hbins => ?_, fun cmax hc hbins => ?_⟩ <;>
    rw [exec_ready (ready_decoding hfault hact hvalid rfl rfl), commandBody, tuCore_ceiling _ hbins]
  · rfl
  · exact fun j _ => not_any_none j
  · rfl
  · exact fun j _ => not_any_none j
  · rfl
  · exact fun j hj => not_any_some (Nat.lt_of_le_of_lt hj hc)

/-- Settles O34: the unary loop stopped by a 0-bin or by its maximum. -/
theorem tuReturnsTheTruncatedCount : Obligations.TuReturnsTheTruncatedCount := by
  unfold Obligations.TuReturnsTheTruncatedCount
  intro s t cmax hfault hact hvalid
  rw [exec_ready (ready_decoding hfault hact hvalid rfl rfl), commandBody]
  refine ⟨fun v hv hceil hbins => ?_, fun hceil hbins => ?_⟩
  · rw [tuCore_zero hceil (fun j hj => not_any_some (Nat.lt_of_le_of_lt hj hv)) hbins]
    rfl
  · rw [tuCore_max hceil hbins, map_ok, natWord, BitVec.ofNat_toNat]
    rfl

theorem qpDelta_odd {c : Nat} (h : c % 2 = 1) : qpDelta c = ((c + 1) / 2 : Nat) := by
  rw [qpDelta, if_neg (by omega), if_pos h]

theorem qpDelta_even {c : Nat} (h : c % 2 = 0) : qpDelta c = -((c / 2 : Nat) : Int) := by
  unfold qpDelta
  split
  · omega
  · rw [if_neg (by omega)]

theorem valueWord_natCast (v : Nat) : valueWord v = BitVec.ofNat 32 v := BitVec.ofInt_natCast 32 v

/-- QPD's response for the codeNum of a unary run below the ceiling. -/
theorem exec_qpd_unary {s t : State} {c : Nat} (hready : Ready .qpd s) (hc : c < 10000)
    (hbins : fetchesBins 0x0C#6 false [] (unaryBins c) s = some t) :
    exec .qpd s = .next (t.respond 0#3 (valueWord (qpDelta c))) := by
  rw [exec_ready hready, commandBody, tuCore_zero hc (fun j _ => not_any_none j) hbins]
  rfl

/-- Settles O40: the two cases of the map. -/
theorem qpdMapsTheCodeNumber : Obligations.QpdMapsTheCodeNumber := by
  unfold Obligations.QpdMapsTheCodeNumber
  intro s t c hfault hact hvalid hc hbins
  rw [exec_qpd_unary (ready_decoding hfault hact hvalid rfl rfl) hc hbins]
  refine ⟨fun hodd => ?_, fun heven => ?_⟩
  · rw [qpDelta_odd hodd, valueWord_natCast]
  · rw [qpDelta_even heven, valueWord]

/-- Settles O41: the odd codeNums give the positive values, the even ones the others. -/
theorem qpdMapIsABijection : Obligations.QpdMapIsABijection := by
  unfold Obligations.QpdMapIsABijection
  have hvalue (c : Nat) : (c % 2 = 1 ∧ qpDelta c = ((c + 1) / 2 : Nat)) ∨ (c % 2 = 0 ∧ qpDelta c = -((c / 2 : Nat) : Int)) := by
    rcases Nat.mod_two_eq_zero_or_one c with h | h
    · exact .inr ⟨h, qpDelta_even h⟩
    · exact .inl ⟨h, qpDelta_odd h⟩
  refine ⟨fun c hc => ?_, fun v hlo hhi => ?_⟩
  · have := hvalue c
    omega
  · rcases Int.lt_or_le 0 v with hpos | hneg
    · refine ⟨(2 * v - 1).toNat, by omega, ?_, fun d hd => ?_⟩
      · have := hvalue (2 * v - 1).toNat
        omega
      · have := hvalue d
        omega
    · refine ⟨(-2 * v).toNat, by omega, ?_, fun d hd => ?_⟩
      · have := hvalue (-2 * v).toNat
        omega
      · have := hvalue d
        omega

/-! ### FL (R136) -/

/-- The bit length is the least number of bits that hold the number. -/
theorem bitLength_le_iff (c n : Nat) : bitLength c ≤ n ↔ c + 1 ≤ 2 ^ n := by
  unfold bitLength
  split
  · rename_i h
    simp [h, Nat.one_le_two_pow]
  · rename_i h
    rw [Nat.succ_le_iff, Nat.log2_lt h, Nat.succ_le_iff]

/-- Settles O35: the fixed-length loop over the bit length of CMAX. -/
theorem flReadsLeastSignificantFirst : Obligations.FlReadsLeastSignificantFirst := by
  unfold Obligations.FlReadsLeastSignificantFirst
  intro s t cmax bins hfault hact hvalid hfits hleast hbins
  have hlen : bitLength cmax.toNat = bins.length :=
    le_antisymm ((bitLength_le_iff _ _).2 hfits) (hleast _ ((bitLength_le_iff _ _).1 le_rfl))
  rw [exec_ready (ready_decoding hfault hact hvalid rfl rfl), commandBody, flCore, hlen, flLoop_bins bins [] hbins,
    List.nil_append, binsValue_eq_msbValue]
  rfl

/-! ### UEGK (R137) -/

theorem uegMagnitude_below {k uc v : Nat} {s t : State} (hv : v < uc) (huc : uc ≤ unaryCeil)
    (hbins : fetchesBins 0x0B#6 false [] (unaryBins v) s = some t) : uegMagnitude k uc s = .ok v t := by
  rw [uegMagnitude, tuCore_zero (Nat.lt_of_lt_of_le hv huc) (fun j hj => not_any_some (Nat.lt_of_le_of_lt hj hv)) hbins,
    bind_ok, if_neg (Nat.ne_of_lt hv)]

theorem uegMagnitude_saturated {k uc : Nat} {s t : State} (huc : uc ≤ unaryCeil)
    (hbins : fetchesBins 0x0B#6 false [] (List.replicate uc true) s = some t) :
    uegMagnitude k uc s = (uegSuffix k t).map fun suf => uc + suf := by
  rw [uegMagnitude, tuCore_max huc hbins, bind_ok, if_pos rfl]

theorem uegSign_none {sgn : Bool} {v : Nat} (h : sgn = false ∨ v = 0) (s : State) : uegSign sgn v s = .ok (v : Int) s := by
  rw [uegSign, if_neg]
  rcases h with rfl | rfl <;> simp

theorem uegSign_bin {v : Nat} {b : Bool} {s t : State} (hv : v ≠ 0) (h : decodesBins [.byp] [b] s = some t) :
    uegSign true v s = .ok (if b then -(v : Int) else v) t := by
  obtain ⟨s', hbin, hnil⟩ := decodesBins_cons.1 h
  rw [decodesBins_nil] at hnil
  rw [uegSign, if_pos (by simp [hv]), hbin, map_ok, hnil]

/-- UEGK's response from its magnitude, with and without the sign bin. -/
theorem exec_uegk_of_magnitude {s t : State} {sgn : Bool} {k : BitVec 4} {uc : BitVec 8} {m : Nat}
    (hready : Ready (.uegk sgn k uc) s) (hm : uegMagnitude k.toNat uc.toNat s = .ok m t) :
    ((sgn = false ∨ m = 0) → exec (.uegk sgn k uc) s = .next (t.respond 0#3 (BitVec.ofNat 32 m))) ∧
    (sgn = true → m ≠ 0 → ∀ (b : Bool) (u : State), decodesBins [.byp] [b] t = some u →
      exec (.uegk sgn k uc) s = .next (u.respond 0#3 (BitVec.ofInt 32 (if b then -(m : Int) else m)))) := by
  rw [exec_ready hready, commandBody, hm, bind_ok]
  refine ⟨fun hnone => ?_, fun hsgn hne b u hbin => ?_⟩
  · rw [uegSign_none hnone, map_ok, valueWord_natCast]
    rfl
  · rw [hsgn, uegSign_bin hne hbin]
    rfl

theorem uc_le_unaryCeil (uc : BitVec 8) : uc.toNat ≤ unaryCeil := by
  have := uc.isLt
  rw [unaryCeil]
  omega

/-- Settles O36: the unary part stopped by a 0-bin, then the sign. -/
theorem uegkBelowSaturation : Obligations.UegkBelowSaturation := by
  unfold Obligations.UegkBelowSaturation
  intro s t sgn k uc v hfault hact hvalid hv hbins
  exact exec_uegk_of_magnitude (ready_decoding hfault hact hvalid rfl rfl)
    (uegMagnitude_below hv (uc_le_unaryCeil uc) hbins)

/-- The UEGk suffix: an escape run of `j` 1-bins and a 0-bin, then the verbatim bits. -/
theorem uegSuffix_bins {k j : Nat} {x : List Bool} {s t : State} (hj : k + j < 24) (hx : x.length = k + j)
    (h : decodesBins (List.replicate (j + 1 + (k + j)) .byp) (List.replicate j true ++ false :: x) s = some t) :
    uegSuffix k s = .ok (2 ^ k * (2 ^ j - 1) + msbValue x) t := by
  rw [List.replicate_add, List.append_cons, decodesBins_append (by simp)] at h
  obtain ⟨u, hescape, hverbatim⟩ := h
  rw [← hx] at hverbatim
  rw [uegSuffix, escapeLoop_zero j _ k 0 (by rw [uegKmax]; omega) hescape, bind_ok, Nat.zero_add]
  dsimp only
  rw [← hx, verbatimLoop_bins x _ hverbatim]

/-- Settles O37: the unary part stopped by its maximum, the suffix, then the sign. -/
theorem uegkWithSuffix : Obligations.UegkWithSuffix := by
  unfold Obligations.UegkWithSuffix
  intro s t u sgn k uc j m x hfault hact hvalid hj hx hm hunary hsuffix
  refine exec_uegk_of_magnitude (ready_decoding hfault hact hvalid rfl rfl) ?_
  rw [uegMagnitude_saturated (uc_le_unaryCeil uc) hunary, uegSuffix_bins hj hx hsuffix, map_ok, hm, Nat.add_assoc]

/-- Settles O38: the escape run stopped by its ceiling. -/
theorem uegkEscapeFaultsAtItsCeiling : Obligations.UegkEscapeFaultsAtItsCeiling := by
  unfold Obligations.UegkEscapeFaultsAtItsCeiling
  intro s t u sgn k uc hfault hact hvalid hunary hescape
  rw [exec_ready (ready_decoding hfault hact hvalid rfl rfl), commandBody,
    uegMagnitude_saturated (uc_le_unaryCeil uc) hunary, uegSuffix, uegKmax, escapeLoop_ceiling _ _ _ hescape]
  rfl

/-! ### The range of UEGK's results -/

theorem tuLoop_le {opc : Opcode} {c : Nat} {part : Bool} {room count v : Nat} {s t : State} (hc : count ≤ c)
    (h : tuLoop opc (some c) part room count s = .ok v t) : v ≤ c := by
  induction room generalizing count s with
  | zero =>
    unfold tuLoop at h
    split at h
    · cases h
      exact hc
    · cases h
  | succ room ih =>
    unfold tuLoop at h
    split at h
    · cases h
      exact hc
    · rename_i hlt
      obtain ⟨b, s', -, hk⟩ := bind_eq_ok.1 h
      split at hk
      · exact ih (by simpa using hlt) hk
      · cases hk
        exact hc

/-- The order and the suffix of an escape run from order `kk`: the suffix is the sum of the powers below the order reached. -/
theorem escapeLoop_value {room kk suf : Nat} {e : Nat × Nat} {s t : State} (h : escapeLoop room kk suf s = .ok e t) :
    e.1 < kk + room ∧ e.2 + 2 ^ kk = suf + 2 ^ e.1 := by
  induction room generalizing kk suf s with
  | zero => cases h
  | succ room ih =>
    obtain ⟨b, s', -, hk⟩ := bind_eq_ok.1 h
    split at hk
    · obtain ⟨hlt, hsum⟩ := ih hk
      rw [Nat.pow_succ] at hsum
      omega
    · cases hk
      simp

theorem verbatimLoop_lt {kk suf x : Nat} {s t : State} (h : verbatimLoop kk suf s = .ok x t) : x < suf + 2 ^ kk := by
  induction kk generalizing suf s with
  | zero =>
    cases h
    simp
  | succ kk ih =>
    obtain ⟨b, s', -, hk⟩ := bind_eq_ok.1 h
    have hx := ih hk
    rw [Nat.pow_succ]
    cases b <;> simp at hx <;> omega

/-- The suffix stays below the sum of the powers 2^k .. 2^23 (R137). -/
theorem uegSuffix_lt {k x : Nat} {s t : State} (hk : k < 24) (h : uegSuffix k s = .ok x t) : x + 2 ^ k < 2 ^ 24 := by
  obtain ⟨e, s', hescape, hverbatim⟩ := bind_eq_ok.1 h
  obtain ⟨horder, hsum⟩ := escapeLoop_value hescape
  have hx := verbatimLoop_lt hverbatim
  have hpow : 2 ^ (e.1 + 1) ≤ 2 ^ 24 := Nat.pow_le_pow_right (by decide) (by rw [uegKmax] at horder; omega)
  rw [Nat.pow_succ] at hpow
  omega

/-- The magnitude of a UEGK command that ends OK (R137). -/
theorem uegMagnitude_le {k uc v : Nat} {s t : State} (hk : k < 24) (h : uegMagnitude k uc s = .ok v t) :
    v + 2 ^ k + 1 ≤ uc + 2 ^ 24 := by
  obtain ⟨p, s', hunary, hrest⟩ := bind_eq_ok.1 h
  have hp := tuLoop_le (Nat.zero_le uc) hunary
  split at hrest
  · obtain ⟨x, hx, rfl⟩ := map_eq_ok.1 hrest
    have := uegSuffix_lt hk hx
    omega
  · cases hrest
    have : 2 ^ k < 2 ^ 24 := Nat.pow_lt_pow_right (by decide) hk
    omega

theorem uegSign_abs {sgn : Bool} {v : Nat} {z : Int} {s t : State} (h : uegSign sgn v s = .ok z t) :
    |z| = v ∧ (sgn = false → 0 ≤ z) := by
  unfold uegSign at h
  split at h
  · rename_i hsgn
    obtain ⟨b, -, rfl⟩ := map_eq_ok.1 h
    refine ⟨by cases b <;> simp, fun hfalse => ?_⟩
    rw [hfalse, Bool.false_and] at hsgn
    cases hsgn
  · cases h
    simp

/-- Settles O39: the sign does not change the magnitude's bound. -/
theorem uegkResultRange : Obligations.UegkResultRange := by
  unfold Obligations.UegkResultRange
  intro s t sgn k uc hfault hact hvalid _ hexec ht hwait
  have hready : Ready (.uegk sgn k uc) s := ready_decoding hfault hact hvalid rfl rfl
  obtain ⟨v, u, hbody, rfl⟩ | ⟨p, u, -, rfl⟩ := exec_unfaulted hready hexec ht
  · obtain ⟨-, -, -, hrsps⟩ := exec_completes hready hfault hbody
    obtain ⟨z, hz, rfl⟩ := map_eq_ok.1 hbody
    obtain ⟨m, s', hm, hsign⟩ := bind_eq_ok.1 hz
    obtain ⟨habs, hsgn⟩ := uegSign_abs hsign
    have hk : k.toNat < 24 := Nat.lt_of_lt_of_le k.isLt (by decide)
    have hle := uegMagnitude_le hk hm
    have huc : uc.toNat < 256 := uc.isLt
    have hpow := Nat.one_le_two_pow (n := k.toNat)
    refine ⟨z, hrsps, ?_, ?_, hsgn⟩ <;> rw [habs]
    · have : ((2 ^ k.toNat : Nat) : Int) = 2 ^ k.toNat := by push_cast; rfl
      omega
    · omega
  · cases hwait

/-! ### CBP (R139) -/

/-- The four luma bins. -/
theorem flCore_luma {s t : State} {b0 b1 b2 b3 : Bool}
    (h : fetchesBins 0x0D#6 false [] [b0, b1, b2, b3] s = some t) :
    flCore 0x0D#6 15 false s = .ok (b0.toNat + 2 * b1.toNat + 4 * b2.toNat + 8 * b3.toNat) t := by
  have hbins := flLoop_bins [b0, b1, b2, b3] [] h
  have hvalue : binsValue ([] ++ [b0, b1, b2, b3]) = b0.toNat + 2 * b1.toNat + 4 * b2.toNat + 8 * b3.toNat := by
    simp only [List.nil_append, binsValue]
    omega
  rw [hvalue] at hbins
  exact hbins

theorem cbpChroma_absent {cat : BitVec 2} (h : cat = 0#2 ∨ cat = 3#2) (s : State) : cbpChroma cat s = .ok 0 s := by
  rcases h with rfl | rfl <;> rfl

/-- The chroma value of a truncated unary part with maximum 2. -/
theorem cbpChroma_bins {cat : BitVec 2} (hcat : cat = 1#2 ∨ cat = 2#2) {chroma : Nat} {bins : List Bool} {s t : State}
    (hmem : (chroma, bins) ∈ [(0, [false]), (1, [true, false]), (2, [true, true])])
    (h : fetchesBins 0x0D#6 true [] bins s = some t) : cbpChroma cat s = .ok chroma t := by
  have hcore : cbpChroma cat s = tuCore 0x0D#6 (some 2) true s := by rcases hcat with rfl | rfl <;> rfl
  have hzero (v : Nat) (hv : v < 2) (hbins : fetchesBins 0x0D#6 true [] (unaryBins v) s = some t) :
      tuCore 0x0D#6 (some 2) true s = .ok v t :=
    tuCore_zero (Nat.lt_trans hv (by decide)) (fun j hj => not_any_some (Nat.lt_of_le_of_lt hj hv)) hbins
  rw [hcore]
  simp only [List.mem_cons, Prod.mk.injEq, List.not_mem_nil, or_false] at hmem
  obtain ⟨rfl, rfl⟩ | ⟨rfl, rfl⟩ | ⟨rfl, rfl⟩ := hmem
  · exact hzero 0 (by decide) h
  · exact hzero 1 (by decide) h
  · exact tuCore_max (v := 2) (by decide) h

/-- Settles O42: luma, then chroma as a part of its own. -/
theorem cbpComposesLumaAndChroma : Obligations.CbpComposesLumaAndChroma := by
  unfold Obligations.CbpComposesLumaAndChroma
  intro s t cat b0 b1 b2 b3 luma hfault hact hvalid hluma hbins
  rw [exec_ready (ready_decoding hfault hact hvalid rfl rfl), commandBody, flCore_luma hbins, bind_ok, ← hluma]
  refine ⟨fun hcat => ?_, fun hcat chroma bins u hmem hchroma => ?_⟩
  · rw [cbpChroma_absent hcat]
    rfl
  · rw [cbpChroma_bins hcat hmem hchroma]
    rfl

end Sys2Proof.Machine
end

section
/-!
PROOFS. The binarization commands and their CSEL queries (30_encoding.md R77, 42_binarization.md R131 to R133): bypass answers, a supply
of answers and bits that suffices, and what the first queries of a command lead to.
-/
namespace Sys2Proof.Machine

/-! ### Bins fetched with bypass answers (R77, R96) -/

/-- The CSEL side of the state replaced. -/
def withCsel (ans : List CselAnswer) (reqs : List CselRequest) (s : State) : State :=
  { s with cselAns := ans, cselReqs := reqs }

/-- A bypass bin does not see the CSEL port. -/
theorem binOf_byp_withCsel {b : Bool} {s t : State} (ans : List CselAnswer) (reqs : List CselRequest)
    (h : binOf .byp s = .ok b t) : binOf .byp (withCsel ans reqs s) = .ok b (withCsel ans reqs t) := by
  by_cases hact : s.engState = .active
  · rw [binOf_active hact, decodeBin] at h
    rw [binOf_active (s := withCsel ans reqs s) hact, decodeBin]
    obtain ⟨x, rest, hb, -⟩ | ⟨hb, he, -⟩ | ⟨hb, he, -⟩ := readBit_cases s
    · rw [decodeBypass_cons hb rfl] at h
      cases h
      exact decodeBypass_cons (s := withCsel ans reqs s) hb rfl
    · rw [decodeBypass, readBit_exhausted hb he] at h
      cases h
    · rw [decodeBypass, readBit_silent hb he] at h
      cases h
  · rw [binOf, if_neg (by rwa [engActive_iff])] at h
    cases h

theorem decodesBins_byp_withCsel (ans : List CselAnswer) (reqs : List CselRequest) {bins : List Bool} {s t : State}
    (h : decodesBins (List.replicate bins.length .byp) bins s = some t) :
    decodesBins (List.replicate bins.length .byp) bins (withCsel ans reqs s) = some (withCsel ans reqs t) := by
  induction bins generalizing s with
  | nil =>
    rw [List.length_nil, List.replicate_zero, decodesBins_nil] at h ⊢
    rw [h]
  | cons b bins ih =>
    rw [List.length_cons, List.replicate_succ, decodesBins_cons] at h ⊢
    obtain ⟨s', hbin, hrest⟩ := h
    exact ⟨_, binOf_byp_withCsel ans reqs hbin, ih hrest⟩

/-- The requests for the bins `bins` of one part after the bins `done` (R77). -/
def requestsFor (opc : Opcode) (part : Bool) (done bins : List Bool) : List CselRequest :=
  (List.range bins.length).map fun j => cselRequest opc part (done.length + j) (prevOf (done ++ bins.take j))

theorem requestsFor_cons (opc : Opcode) (part : Bool) (done : List Bool) (b : Bool) (bins : List Bool) :
    requestsFor opc part done (b :: bins) =
      cselRequest opc part done.length (prevOf done) :: requestsFor opc part (done ++ [b]) bins := by
  simp [requestsFor, List.range_succ_eq_map, Function.comp_def, Nat.add_assoc, Nat.add_comm 1]

/-- A query that the host answers BYP (R76, R131). -/
theorem fetchBin_byp {opc : Opcode} {part : Bool} {n : Nat} {prev : BitVec 16} {s : State} {rest : List CselAnswer}
    (h : s.cselAns = 1#12 :: rest) :
    fetchBin opc part n prev s = binOf .byp (withCsel rest (s.cselReqs ++ [cselRequest opc part n prev]) s) := by
  have hkind : answerKind 1#12 = some .byp := by decide
  simp only [fetchBin, csel, h, bind_ok, hkind]
  rfl

/-- Bypass bins with given values are fetched with those values when the host answers BYP. -/
theorem fetchesBins_of_decodesBins_byp {opc : Opcode} {part : Bool} {done bins : List Bool} {s t : State}
    {rest : List CselAnswer} (h : decodesBins (List.replicate bins.length .byp) bins s = some t)
    (hans : s.cselAns = List.replicate bins.length 1#12 ++ rest) :
    fetchesBins opc part done bins s = some (withCsel rest (s.cselReqs ++ requestsFor opc part done bins) t) := by
  induction bins generalizing done s t with
  | nil =>
    rw [List.length_nil, List.replicate_zero] at h hans
    rw [decodesBins_nil] at h
    rw [List.nil_append] at hans
    rw [fetchesBins_nil, ← h, ← hans]
    simp [withCsel, requestsFor]
  | cons b bins ih =>
    rw [List.length_cons, List.replicate_succ] at h hans
    obtain ⟨s', hbin, hrest⟩ := decodesBins_cons.1 h
    rw [List.cons_append] at hans
    rw [fetchesBins_cons, fetchBin_byp hans]
    refine ⟨_, binOf_byp_withCsel _ _ hbin, ?_⟩
    rw [ih (decodesBins_byp_withCsel _ _ hrest) rfl, requestsFor_cons]
    simp [withCsel]

/-! ### Bits from the number they spell -/

theorem msbValue_inj {l m : List Bool} (hlen : l.length = m.length) (h : msbValue l = msbValue m) : l = m := by
  induction l generalizing m with
  | nil => exact (List.length_eq_zero_iff.1 hlen.symm).symm
  | cons a l ih =>
    cases m with
    | nil => cases hlen
    | cons b m =>
      have hlen' : l.length = m.length := Nat.succ.inj hlen
      rw [msbValue_cons, msbValue_cons, hlen'] at h
      have hl := msbValue_lt l
      have hm := msbValue_lt m
      rw [hlen'] at hl
      cases a <;> cases b <;> simp at h ⊢
      · exact ih hlen' h
      · omega
      · omega
      · exact ih hlen' h

theorem length_unaryBins (v : Nat) : (unaryBins v).length = v + 1 := by simp [unaryBins]

theorem msbValue_unaryBins (v : Nat) : msbValue (unaryBins v) = 2 ^ (v + 1) - 2 := by
  have hones : msbValue (List.replicate v true) = 2 ^ v - 1 := by
    rw [← binsValue_ones, binsValue_eq_msbValue, List.reverse_replicate]
  rw [unaryBins, msbValue_append, hones, Nat.pow_succ]
  simp [msbValue_cons]
  omega

theorem prevOf_take_unaryBins {v j : Nat} (h : j ≤ v) : prevOf ((unaryBins v).take j) = ones j := by
  rw [unaryBins, List.take_append_of_le_length (by simpa using h), List.take_replicate, Nat.min_eq_left h, prevOf_ones]

theorem requestsFor_unaryBins (opc : Opcode) (v : Nat) :
    requestsFor opc false [] (unaryBins v) = (List.range (v + 1)).map fun j => cselRequest opc false j (ones j) := by
  rw [requestsFor, length_unaryBins]
  refine List.map_congr_left fun j hj => ?_
  rw [List.length_nil, Nat.zero_add, List.nil_append, prevOf_take_unaryBins (Nat.lt_succ_iff.1 (List.mem_range.1 hj))]

/-- A unary part on bypass bins, when the quotient of the long division is that of `v` ones and a zero. -/
theorem fetchesBins_unary_byp (opc : Opcode) {s : State} {v n : Nat} {rest : List CselAnswer}
    (hact : s.engState = .active) (hoff : s.codIOffset.toNat < s.codIRange.toNat) (hn : n = v + 1)
    (hbits : n ≤ s.bits.length) (hans : s.cselAns = List.replicate n 1#12 ++ rest)
    (hquot : (s.codIOffset.toNat * 2 ^ n + msbValue (s.bits.take n)) / s.codIRange.toNat = 2 ^ n - 2) :
    fetchesBins opc false [] (unaryBins v) s = some (bypassed opc n s) := by
  obtain ⟨bins, hlen, hvalue, hdec⟩ := bypassBinsAreALongDivision n s hact hoff hbits
  obtain rfl : bins = unaryBins v := by
    refine msbValue_inj (by rw [hlen, hn, length_unaryBins]) ?_
    rw [hvalue, hquot, msbValue_unaryBins, hn]
  rw [← hlen] at hdec hans
  rw [fetchesBins_of_decodesBins_byp hdec hans, requestsFor_unaryBins, ← hn]
  simp [withCsel, bypassed, hans, hlen]

/-- Settles O32: the long division gives the unary bins, and the commands what they return for them. -/
theorem unaryCommandsOnBypassBins : Obligations.UnaryCommandsOnBypassBins := by
  unfold Obligations.UnaryCommandsOnBypassBins
  intro s v n rest hfault hact hvalid hE hv hn hbits hans hquot
  have hbins (opc : Opcode) := fetchesBins_unary_byp opc hact (hE.1 hact).2.2 hn hbits hans hquot
  refine ⟨uReturnsTheUnaryCount s _ v hfault hact hvalid hv (hbins _), ?_, fun sgn k uc huc hsgn => ?_⟩
  · obtain ⟨hodd, heven⟩ := qpdMapsTheCodeNumber s _ v hfault hact hvalid hv (hbins _)
    split
    · exact hodd ‹_›
    · exact heven (by omega)
  · exact (uegkBelowSaturation s _ sgn k uc v hfault hact hvalid huc (hbins _)).1 hsgn

/-! ### A supply of answers and bits (R105, R135, R136, R139) -/

/-- The host answers `n` more queries with kinds DEC or BYP, and the bit source has seven bits per bin. -/
def Supplied (n : Nat) (s : State) : Prop :=
  n ≤ s.cselAns.length ∧ 7 * n ≤ s.bits.length ∧
    ∀ a ∈ s.cselAns.take n, answerKind a = some .byp ∨ ∃ c, answerKind a = some (.dec c)

theorem Supplied.mono {m n : Nat} {s : State} (h : Supplied n s) (hmn : m ≤ n) : Supplied m s := by
  obtain ⟨hans, hbits, hkinds⟩ := h
  refine ⟨by omega, by omega, fun a ha => hkinds a ?_⟩
  exact (List.take_subset_take_left s.cselAns hmn) ha

theorem fetchBin_supplied (opc : Opcode) (part : Bool) (j : Nat) (prev : BitVec 16) {n : Nat} {s : State}
    (hA : ActiveOk s) (h : Supplied (n + 1) s) :
    ∃ b t, fetchBin opc part j prev s = .ok b t ∧ ActiveOk t ∧ Supplied n t := by
  obtain ⟨hans, hbits, hkinds⟩ := h
  obtain ⟨a, rest, ha⟩ := List.exists_cons_of_length_pos (Nat.lt_of_lt_of_le n.succ_pos hans)
  rw [ha, List.take_succ_cons, List.forall_mem_cons] at hkinds
  obtain ⟨b, t, e, hA', hlen, hrest⟩ := fetchBin_completes (opc := opc) (part := part) (n := j) (prev := prev) hA
    (by omega) ha hkinds.1
  refine ⟨b, t, e, hA', ?_, by omega, ?_⟩
  · rw [hrest]
    simpa [ha] using hans
  · rw [hrest]
    exact hkinds.2

/-- A truncated unary part with a supply for every bin up to its maximum. -/
theorem tuLoop_completes (opc : Opcode) (part : Bool) {c room count : Nat} {s : State} (hc : count ≤ c)
    (hroom : c ≤ count + room) (hA : ActiveOk s) (h : Supplied (c - count) s) :
    ∃ v t, tuLoop opc (some c) part room count s = .ok v t ∧ ActiveOk t := by
  induction room generalizing count s with
  | zero => exact ⟨count, s, by simp [tuLoop, show c ≤ count by omega], hA⟩
  | succ room ih =>
    by_cases hmax : c ≤ count
    · exact ⟨count, s, by simp [tuLoop, hmax], hA⟩
    obtain ⟨b, t, e, hA', h'⟩ := fetchBin_supplied opc part count (ones count) hA (h.mono (m := c - (count + 1) + 1) (by omega))
    rw [tuLoop, if_neg (not_any_some (Nat.not_le.1 hmax)), e, bind_ok]
    cases b with
    | true => exact ih (by omega) (by omega) hA' h'
    | false => exact ⟨count, t, rfl, hA'⟩

/-- A fixed-length part with a supply for its bins and `m` more. -/
theorem flLoop_completes (opc : Opcode) (part : Bool) (m : Nat) {n : Nat} {bins : List Bool} {s : State} (hA : ActiveOk s)
    (h : Supplied (n + m) s) : ∃ v t, flLoop opc part n bins s = .ok v t ∧ ActiveOk t ∧ Supplied m t ∧
      v < 2 ^ (bins.length + n) := by
  induction n generalizing bins s with
  | zero =>
    refine ⟨_, s, rfl, hA, h.mono (by omega), ?_⟩
    rw [binsValue_eq_msbValue, Nat.add_zero, ← List.length_reverse]
    exact msbValue_lt _
  | succ n ih =>
    obtain ⟨b, t, e, hA', h'⟩ := fetchBin_supplied opc part bins.length (prevOf bins) (n := n + m) hA (h.mono (by omega))
    obtain ⟨v, u, e', hA'', h'', hv⟩ := ih (bins := bins ++ [b]) hA' h'
    refine ⟨v, u, by rw [flLoop, e, bind_ok, e'], hA'', h'', ?_⟩
    rw [List.length_append, List.length_singleton] at hv
    rwa [Nat.add_comm n 1, ← Nat.add_assoc]

/-- CBP's chroma part with a supply for two bins. -/
theorem cbpChroma_completes (cat : BitVec 2) {s : State} (hA : ActiveOk s) (h : Supplied 2 s) :
    ∃ v t, cbpChroma cat s = .ok v t ∧ ActiveOk t ∧ v ≤ 2 ∧ (cat = 0#2 ∨ cat = 3#2 → v = 0) := by
  by_cases hcat : cat = 0#2 ∨ cat = 3#2
  · exact ⟨0, s, cbpChroma_absent hcat s, hA, by omega, fun _ => rfl⟩
  · have hcore : cbpChroma cat s = tuCore 0x0D#6 (some 2) true s := by
      revert hcat
      unfold cbpChroma
      split
      · exact fun _ => rfl
      · intro hcat
        exact absurd (by revert cat; decide) hcat
    obtain ⟨v, t, e, hA'⟩ := tuLoop_completes 0x0D#6 true (c := 2) (room := unaryCeil) (count := 0) (by decide) (by decide)
      hA h
    exact ⟨v, t, hcore.trans e, hA', tuLoop_le (by decide) e, fun h => absurd h hcat⟩

/-- Settles O43: the loops with a supply for their bins. -/
theorem queriedCommandsComplete : Obligations.QueriedCommandsComplete := by
  unfold Obligations.QueriedCommandsComplete
  intro s n hfault hact hvalid hE hans hbits hkinds
  have hsupply : Supplied n s := ⟨hans, hbits, hkinds⟩
  have hA := hE.activeOk hact
  have hdone {i : Instr} {v : Nat} {u : State} (hready : Ready i s) (hbody : commandBody i s = .ok (natWord v) u)
      (hu : ActiveOk u) : ∃ t : State, exec i s = .next t ∧ t.FAULT = .none ∧ t.engState = .active ∧
        t.rsps = s.rsps ++ [⟨0#3, BitVec.ofNat 32 v⟩] := by
    obtain ⟨hexec, hnone, -, hrsps⟩ := exec_completes hready hfault hbody
    exact ⟨_, hexec, hnone, hu.1, hrsps⟩
  refine ⟨fun cmax hc hceil => ?_, fun cmax hc _ => ?_, fun hn cat => ?_⟩
  · obtain ⟨v, u, e, hu⟩ := tuLoop_completes 0x09#6 false (c := n) (room := unaryCeil) (count := 0) (Nat.zero_le n)
      (by rw [unaryCeil]; omega) hA hsupply
    obtain ⟨t, hexec, hnone, ht, hrsps⟩ := hdone (i := .tu cmax) (v := v) (u := u)
      (ready_decoding hfault hact hvalid rfl rfl) (by rw [commandBody, tuCore, hc, e, map_ok]) hu
    exact ⟨t, v, hexec, hnone, ht, tuLoop_le (Nat.zero_le n) e, hrsps⟩
  · have hlen : bitLength cmax.toNat ≤ n := (bitLength_le_iff _ _).2 hc
    obtain ⟨v, u, e, hu, -, hv⟩ := flLoop_completes 0x0A#6 false 0 (bins := []) hA (hsupply.mono (m := bitLength cmax.toNat + 0) hlen)
    obtain ⟨t, hexec, hnone, ht, hrsps⟩ := hdone (i := .fl cmax) (v := v) (u := u)
      (ready_decoding hfault hact hvalid rfl rfl) (by rw [commandBody, flCore, e, map_ok]) hu
    rw [List.length_nil, Nat.zero_add] at hv
    exact ⟨t, v, hexec, hnone, ht, Nat.lt_of_lt_of_le hv (Nat.pow_le_pow_right (by decide) hlen), hrsps⟩
  · subst hn
    obtain ⟨luma, w, e, hw, hsupply', hluma⟩ := flLoop_completes 0x0D#6 false 2 (n := 4) (bins := []) hA hsupply
    obtain ⟨chroma, u, e', hu, hchroma, habsent⟩ := cbpChroma_completes cat hw hsupply'
    have hcore : flCore 0x0D#6 15 false s = .ok luma w := e
    obtain ⟨t, hexec, hnone, ht, hrsps⟩ := hdone (i := .cbp cat) (v := luma + 16 * chroma) (u := u)
      (ready_decoding hfault hact hvalid rfl rfl) (by rw [commandBody, hcore, bind_ok, e', map_ok]) hu
    have hluma' : luma < 16 := hluma
    exact ⟨t, _, hexec, hnone, ht, by omega, fun hcat => by rw [habsent hcat]; omega, hrsps⟩

/-! ### The first queries of a command (R131, R132) -/

theorem bind_bind {α β γ : Type} (r : Res α) (k : α → State → Res β) (k' : β → State → Res γ) :
    (r.bind k).bind k' = r.bind fun a s => (k a s).bind k' := by
  cases r <;> rfl

/-- A piece of a command begins by fetching bin `n` of its first part. -/
def Fetches {α : Type} (opc : Opcode) (n : Nat) (prev : BitVec 16) (piece : State → Res α) : Prop :=
  ∃ k : Bool → State → Res α, ∀ s, piece s = (fetchBin opc false n prev s).bind k

theorem Fetches.bind {α β : Type} {opc : Opcode} {n : Nat} {prev : BitVec 16} {piece : State → Res α}
    (h : Fetches opc n prev piece) (k' : α → State → Res β) : Fetches opc n prev fun s => (piece s).bind k' := by
  obtain ⟨k, hk⟩ := h
  exact ⟨fun b s => (k b s).bind k', fun s => (congrArg (Res.bind · k') (hk s)).trans (bind_bind _ _ _)⟩

/-- A piece of a command begins by fetching bin 0 of its first part and, when that bin is 1, fetches bin 1 next. -/
def FetchesTwice {α : Type} (opc : Opcode) (piece : State → Res α) : Prop :=
  ∃ k : Bool → State → Res α, (∀ s, piece s = (fetchBin opc false 0 0#16 s).bind k) ∧ Fetches opc 1 1#16 (k true)

theorem FetchesTwice.bind {α β : Type} {opc : Opcode} {piece : State → Res α} (h : FetchesTwice opc piece)
    (k' : α → State → Res β) : FetchesTwice opc fun s => (piece s).bind k' := by
  obtain ⟨k, hk, hnext⟩ := h
  exact ⟨fun b s => (k b s).bind k', fun s => (congrArg (Res.bind · k') (hk s)).trans (bind_bind _ _ _), hnext.bind k'⟩

theorem tuLoop_fetches (opc : Opcode) {cMax : Option Nat} (room : Nat) {count : Nat}
    (h : ¬ cMax.any (· ≤ count) = true) : Fetches opc count (ones count) (tuLoop opc cMax false (room + 1) count) :=
  ⟨_, fun s => by rw [tuLoop, if_neg h]⟩

theorem tuCore_fetches (opc : Opcode) {cMax : Option Nat} (h : ¬ cMax.any (· ≤ 0) = true) :
    Fetches opc 0 0#16 (tuCore opc cMax false) := tuLoop_fetches opc 9999 h

theorem tuCore_fetchesTwice (opc : Opcode) {cMax : Option Nat} (h0 : ¬ cMax.any (· ≤ 0) = true)
    (h1 : ¬ cMax.any (· ≤ 1) = true) : FetchesTwice opc (tuCore opc cMax false) :=
  ⟨fun b s => if b then tuLoop opc cMax false 9999 1 s else .ok 0 s,
    fun s => by rw [tuCore, unaryCeil, tuLoop, if_neg h0]; rfl, tuLoop_fetches opc 9998 h1⟩

theorem flCore_fetches (opc : Opcode) {c : Nat} (h : c ≠ 0) : Fetches opc 0 0#16 (flCore opc c false) := by
  obtain ⟨n, hn⟩ : ∃ n, bitLength c = n + 1 := ⟨Nat.log2 c, if_neg h⟩
  exact ⟨_, fun s => by rw [flCore, hn, flLoop]; rfl⟩

theorem flCore_fetchesTwice (opc : Opcode) {c : Nat} (h : 2 ≤ c) : FetchesTwice opc (flCore opc c false) := by
  obtain ⟨n, hn⟩ : ∃ n, bitLength c = n + 2 := by
    refine ⟨bitLength c - 2, ?_⟩
    have : ¬ bitLength c ≤ 1 := by
      rw [bitLength_le_iff]
      omega
    omega
  exact ⟨fun b => flLoop opc false (n + 1) [b], fun s => by rw [flCore, hn, flLoop]; rfl,
    fun b => flLoop opc false n [true, b], fun _ => rfl⟩

/-- Every command that asks for a first bin begins with that query (R34). -/
theorem commandBody_fetches {i : Instr} (h : AsksFirst i) : Fetches (opcode i) 0 0#16 (commandBody i) := by
  cases i with
  | u => exact (tuCore_fetches _ (not_any_none 0)).bind _
  | tu cmax => exact (tuCore_fetches _ (not_any_some (Nat.pos_of_ne_zero (BitVec.toNat_ne.1 h)))).bind _
  | fl cmax => exact (flCore_fetches _ (BitVec.toNat_ne.1 h)).bind _
  | uegk sgn k uc =>
    exact (((tuCore_fetches _ (not_any_some (Nat.pos_of_ne_zero (BitVec.toNat_ne.1 h)))).bind _).bind _).bind _
  | qpd => exact (tuCore_fetches _ (not_any_none 0)).bind _
  | cbp cat => exact (flCore_fetches _ (by decide)).bind _
  | ctxinit _ _ | align _ | enginit | dec _ | byp | trm | mbtI _ | mbtSI _ _ | mbtP | mbtB _ | smbtP | smbtB | ctxrd _
  | statrd => exact absurd h id

/-- The commands that go on after a first bin of 1 query again. -/
theorem commandBody_fetchesTwice {i : Instr} (h : i = .u ∨ i = .qpd ∨ (∃ c, i = .cbp c) ∨
    (∃ c : BitVec 16, 2 ≤ c.toNat ∧ (i = .tu c ∨ i = .fl c)) ∨
      ∃ (g : Bool) (k : BitVec 4) (c : BitVec 8), 2 ≤ c.toNat ∧ i = .uegk g k c) :
    FetchesTwice (opcode i) (commandBody i) := by
  obtain rfl | rfl | ⟨c, rfl⟩ | ⟨c, hc, rfl | rfl⟩ | ⟨g, k, c, hc, rfl⟩ := h
  · exact (tuCore_fetchesTwice _ (not_any_none 0) (not_any_none 1)).bind _
  · exact (tuCore_fetchesTwice _ (not_any_none 0) (not_any_none 1)).bind _
  · exact (flCore_fetchesTwice _ (by decide)).bind _
  · exact (tuCore_fetchesTwice _ (not_any_some (by omega)) (not_any_some (by omega))).bind _
  · exact (flCore_fetchesTwice _ hc).bind _
  · exact (((tuCore_fetchesTwice _ (not_any_some (by omega)) (not_any_some (by omega))).bind _).bind _).bind _

theorem csel_answered {opc : Opcode} {part : Bool} {n : Nat} {prev : BitVec 16} {s : State} {a : CselAnswer}
    {rest : List CselAnswer} (h : s.cselAns = a :: rest) : csel opc part n prev s =
      .ok a (withCsel rest (s.cselReqs ++ [cselRequest opc part n prev]) s) := by
  rw [csel, h]
  rfl

theorem csel_unanswered {opc : Opcode} {part : Bool} {n : Nat} {prev : BitVec 16} {s : State} (h : s.cselAns = []) :
    csel opc part n prev s = .wait .csel (s.sendRequest (cselRequest opc part n prev)) := by
  rw [csel, h]

theorem answerKind_reserved {a : CselAnswer} (h : a.extractLsb' 0 2 = 3#2) : answerKind a = none := by
  rw [answerKind, h]
  rfl

/-- Settles O44: the first query's answer faults before a bin is decoded. -/
theorem reservedAnswerFaultsBeforeAnyBit : Obligations.ReservedAnswerFaultsBeforeAnyBit := by
  unfold Obligations.ReservedAnswerFaultsBeforeAnyBit
  intro i s a rest hready hasks hans hreserved
  obtain ⟨k, hk⟩ := commandBody_fetches hasks
  rw [exec_ready hready, hk, fetchBin, csel_answered hans, bind_ok, answerKind_reserved hreserved]
  rfl

/-- Settles O46: the command stops at its first query, and the block then takes no word. -/
theorem unansweredQueryHoldsForEver : Obligations.UnansweredQueryHoldsForEver := by
  unfold Obligations.UnansweredQueryHoldsForEver
  intro i s hready hasks hans
  obtain ⟨k, hk⟩ := commandBody_fetches hasks
  refine ⟨_, ?_, step_hold (acceptCommand_none (.inl (Option.some_ne_none Port.csel))), rfl⟩
  rw [exec_ready hready, hk, fetchBin, csel_unanswered hans]
  rfl

/-- No bin is decoded past the end of the codeword (R132): whatever the answer, the query faults. -/
theorem fetchBin_inactive {opc : Opcode} {part : Bool} {n : Nat} {prev : BitVec 16} {s : State} {a : CselAnswer}
    {rest : List CselAnswer} (hact : s.engState ≠ .active) (h : s.cselAns = a :: rest) : fetchBin opc part n prev s =
      .raise .invalidDerivationRequest (withCsel rest (s.cselReqs ++ [cselRequest opc part n prev]) s) := by
  rw [fetchBin, csel_answered h, bind_ok]
  cases answerKind a with
  | none => rfl
  | some kind => exact if_neg (by rwa [engActive_iff])

/-- A first bin of kind TRM that is 1 (R97, R131). -/
theorem fetchBin_terminate {opc : Opcode} {part : Bool} {n : Nat} {prev : BitVec 16} {s : State}
    {rest : List CselAnswer} (hact : s.engState = .active) (hoff : s.codIRange.toNat - 2 ≤ s.codIOffset.toNat)
    (h : s.cselAns = 2#12 :: rest) : fetchBin opc part n prev s = .ok true
      (((withCsel rest (s.cselReqs ++ [cselRequest opc part n prev]) s).setRange (s.codIRange.toNat - 2)).setEngState
        .terminated) := by
  have hkind : answerKind 2#12 = some .trm := by decide
  rw [fetchBin, csel_answered h, bind_ok, hkind]
  exact (binOf_active (s := withCsel rest _ s) hact).trans (decodeTerminate_one (s := withCsel rest _ s) hoff)

/-- Settles O45: the terminate bin, then the query at a TERMINATED engine, whose registers fault entry loses. -/
theorem binAfterTerminateFaults : Obligations.BinAfterTerminateFaults := by
  unfold Obligations.BinAfterTerminateFaults
  intro i s a rest hi hfault hact hvalid _ hoff hans
  obtain ⟨k, hfirst, k', hsecond⟩ := commandBody_fetchesTwice hi
  have hready : Ready i s := by
    obtain rfl | rfl | ⟨c, rfl⟩ | ⟨c, -, rfl | rfl⟩ | ⟨g, k, c, -, rfl⟩ := hi <;>
      exact ready_decoding hfault hact hvalid rfl rfl
  rw [exec_ready hready, hfirst, fetchBin_terminate hact hoff hans, bind_ok, hsecond,
    fetchBin_inactive (a := a) (rest := rest) EngState.noConfusion rfl, bind_raise]
  simp [finish, enterFault, State.faultRegisters, State.forgetCtx, State.respond, State.setRange, State.setEngState, withCsel]

end Sys2Proof.Machine
end

section
/-!
PROOFS. The tree commands (43_mbtype_trees.md): the value of the codeword that the bins spell, the walk that completes from a supply of
bits and ends the codeword at I_PCM alone, and the tables as complete codes.
-/
namespace Sys2Proof.Machine

/-! ### The value of a codeword (R161 to R167) -/

theorem treeReturns_of_body {i : Instr} {t : BinTree} (hbody : commandBody i = treeBody t) : TreeReturns i t := by
  intro s u v bins kinds hready hw hbins
  rw [exec_ready hready, hbody, treeBody, runTree_codeword t hw hbins]
  rfl

/-- Settles O47: each command walks its table. -/
theorem treeCommandsReturnTheirCodeword : Obligations.TreeCommandsReturnTheirCodeword := by
  unfold Obligations.TreeCommandsReturnTheirCodeword
  exact ⟨fun _ => treeReturns_of_body rfl, fun _ _ => treeReturns_of_body rfl, treeReturns_of_body rfl,
    fun _ => treeReturns_of_body rfl, treeReturns_of_body rfl, treeReturns_of_body rfl⟩

/-! ### The walk completes (R105, R168) -/

/-- A terminate bin of 1 leads to the codeword `pcm` at once, and no other codeword has that value. -/
def endsAtPcm (pcm : Option Nat) : BinTree → Bool
  | .leaf v => pcm != some v
  | .node .trm zero (.leaf v) => pcm == some v && endsAtPcm pcm zero
  | .node .trm _ (.node _ _ _) => false
  | .node (.dec _) zero one | .node .byp zero one => endsAtPcm pcm zero && endsAtPcm pcm one

/-- The terminate bin in a table of `endsAtPcm`. -/
theorem endsAtPcm_trm {pcm : Option Nat} {zero one : BinTree} (h : endsAtPcm pcm (.node .trm zero one) = true) :
    ∃ v, one = .leaf v ∧ pcm = some v ∧ endsAtPcm pcm zero = true := by
  cases one with
  | leaf v =>
    rw [endsAtPcm, Bool.and_eq_true, beq_iff_eq] at h
    exact ⟨v, rfl, h⟩
  | node kind z o => cases h

theorem endsAtPcm_node {pcm : Option Nat} {kind : BinKind} {zero one : BinTree} (hkind : kind ≠ .trm)
    (h : endsAtPcm pcm (.node kind zero one) = true) : endsAtPcm pcm zero = true ∧ endsAtPcm pcm one = true := by
  cases kind with
  | trm => exact absurd rfl hkind
  | dec c => exact Bool.and_eq_true_iff.1 h
  | byp => exact Bool.and_eq_true_iff.1 h

/-- The value of the codeword reached is one of the table's, on either side of a node. -/
theorem mem_values_zero {kind : BinKind} {zero one : BinTree} {v : Nat} (h : v ∈ (codewords zero).map (·.1)) :
    v ∈ (codewords (.node kind zero one)).map (·.1) := by
  simp only [codewords, List.map_append, List.map_map, List.mem_append]
  exact .inl h

theorem mem_values_one {kind : BinKind} {zero one : BinTree} {v : Nat} (h : v ∈ (codewords one).map (·.1)) :
    v ∈ (codewords (.node kind zero one)).map (·.1) := by
  simp only [codewords, List.map_append, List.map_map, List.mem_append]
  exact .inr h

/-- The engine's state after a table's codeword. -/
def engStateAfter (pcm : Option Nat) (v : Nat) : EngState := if pcm = some v then .terminated else .active

/-- A table's walk completes with seven bits per bin, and only the codeword `pcm` ends the arithmetic codeword. -/
theorem runTree_completes {pcm : Option Nat} (t : BinTree) {s : State} (ht : endsAtPcm pcm t = true) (hA : ActiveOk s)
    (hbits : 7 * treeDepth t ≤ s.bits.length) : ∃ v u, runTree t s = .ok v u ∧ v ∈ (codewords t).map (·.1) ∧
      u.engState = engStateAfter pcm v := by
  induction t generalizing s with
  | leaf v =>
    refine ⟨v, s, rfl, by simp [codewords], ?_⟩
    rw [engStateAfter, if_neg (by simpa [endsAtPcm] using ht)]
    exact hA.1
  | node kind zero one ihz iho =>
    rw [treeDepth] at hbits
    obtain ⟨b, s', e, hlen⟩ := binOf_completes (kind := kind) hA (by omega)
    rw [runTree, e, bind_ok]
    by_cases hkind : kind = .trm
    · subst hkind
      obtain ⟨v, rfl, hpcm, hzero⟩ := endsAtPcm_trm ht
      rw [binOf_active hA.1] at e
      obtain ⟨hA', rfl⟩ | ⟨hT, rfl⟩ := decodeTerminate_ok hA e
      · obtain ⟨w, u, ew, hmem, hu⟩ := ihz hzero hA' (by omega)
        exact ⟨w, u, ew, mem_values_zero hmem, hu⟩
      · refine ⟨v, s', rfl, mem_values_one (by simp [codewords]), ?_⟩
        rw [engStateAfter, if_pos hpcm]
        exact hT.1
    · obtain ⟨hzero, hone⟩ := endsAtPcm_node hkind ht
      have hA' : ActiveOk s' := (binOf_ok hA e).resolve_right fun h => hkind h.2.1
      cases b with
      | false =>
        obtain ⟨w, u, ew, hmem, hu⟩ := ihz hzero hA' (by omega)
        exact ⟨w, u, ew, mem_values_zero hmem, hu⟩
      | true =>
        obtain ⟨w, u, ew, hmem, hu⟩ := iho hone hA' (by omega)
        exact ⟨w, u, ew, mem_values_one hmem, hu⟩

theorem treeCompletes_of_body {i : Instr} {t : BinTree} {pcm : Option Nat} (hbody : commandBody i = treeBody t)
    (hp : precondition i = fun s => engActive s && s.ctxValid) (hctxinit : opcode i ≠ 0x01#6) (hstatrd : opcode i ≠ 0x3D#6)
    (ht : endsAtPcm pcm t = true) : TreeCompletes i t pcm := by
  intro s hready hE hbits
  have hact : s.engState = .active := by
    have := hready.2.2
    rw [hp, Bool.and_eq_true, engActive_iff] at this
    exact this.1
  obtain ⟨v, u, e, hmem, hu⟩ := runTree_completes t ht (hE.activeOk hact) hbits
  obtain ⟨hexec, hnone, hwait, hrsps⟩ := exec_completes hready (fault_none_of_not_refused hready.1 hctxinit hstatrd)
    (v := natWord v) (u := u) (by rw [hbody, treeBody, e, map_ok])
  exact ⟨_, v, hexec, hnone, hwait, hrsps, hmem, hu⟩

/-- Where each table ends the arithmetic codeword (R162 to R167). -/
theorem tables_endAtPcm : (∀ ia, endsAtPcm (some 25) (mbtITree ia) = true) ∧
    (∀ ia ib, endsAtPcm (some 26) (mbtSITree ia ib) = true) ∧ endsAtPcm (some 30) mbtPTree = true ∧
    (∀ ia, endsAtPcm (some 48) (mbtBTree ia) = true) ∧ endsAtPcm none smbtPTree = true ∧
    endsAtPcm none smbtBTree = true := by
  decide

/-- Settles O48: the walk of each table. -/
theorem treeCommandsComplete : Obligations.TreeCommandsComplete := by
  unfold Obligations.TreeCommandsComplete
  obtain ⟨hI, hSI, hP, hB, hsP, hsB⟩ := tables_endAtPcm
  exact ⟨fun ia => treeCompletes_of_body rfl rfl (by simp [opcode]) (by simp [opcode]) (hI ia),
    fun ia ib => treeCompletes_of_body rfl rfl (by simp [opcode]) (by simp [opcode]) (hSI ia ib),
    treeCompletes_of_body rfl rfl (by decide) (by decide) hP,
    fun ia => treeCompletes_of_body rfl rfl (by simp [opcode]) (by simp [opcode]) (hB ia),
    treeCompletes_of_body rfl rfl (by decide) (by decide) hsP,
    treeCompletes_of_body rfl rfl (by decide) (by decide) hsB⟩

/-! ### Completeness of the codes (R168) -/

/-- The codewords of a node that begin as `b :: bins` does are those of the branch `b` that begin as `bins` does. -/
theorem mem_codewords_node {kind : BinKind} {zero one : BinTree} {w : Nat × List Bool × List BinKind} {b : Bool}
    {bins : List Bool} : (w ∈ codewords (.node kind zero one) ∧ w.2.1 <+: b :: bins) ↔
      ∃ w' ∈ codewords (if b then one else zero), w'.2.1 <+: bins ∧ w = (w'.1, b :: w'.2.1, kind :: w'.2.2) := by
  simp only [codewords, List.mem_append, List.mem_map]
  constructor
  · rintro ⟨⟨w', hw', rfl⟩ | ⟨w', hw', rfl⟩, hpre⟩ <;> obtain ⟨rfl, hrest⟩ := List.cons_prefix_cons.1 hpre <;>
      exact ⟨w', hw', hrest, rfl⟩
  · rintro ⟨w', hw', hpre, rfl⟩
    refine ⟨?_, List.cons_prefix_cons.2 ⟨rfl, hpre⟩⟩
    cases b with
    | false => exact .inl ⟨w', hw', rfl⟩
    | true => exact .inr ⟨w', hw', rfl⟩

/-- Every long enough sequence of bins begins with exactly one codeword of a table. -/
theorem exists_unique_codeword (t : BinTree) (bins : List Bool) (h : treeDepth t ≤ bins.length) :
    ∃ w ∈ codewords t, w.2.1 <+: bins ∧ ∀ w' ∈ codewords t, w'.2.1 <+: bins → w' = w := by
  induction t generalizing bins with
  | leaf v => exact ⟨(v, [], []), by simp [codewords], List.nil_prefix, fun w hw _ => by simpa [codewords] using hw⟩
  | node kind zero one ihz iho =>
    rw [treeDepth] at h
    obtain ⟨b, rest, rfl⟩ := List.exists_cons_of_length_pos (Nat.lt_of_lt_of_le (Nat.succ_pos _) h)
    rw [List.length_cons] at h
    obtain ⟨w, hw, hpre, huniq⟩ : ∃ w ∈ codewords (if b then one else zero), w.2.1 <+: rest ∧
        ∀ w' ∈ codewords (if b then one else zero), w'.2.1 <+: rest → w' = w := by
      cases b with
      | false => exact ihz rest (by omega)
      | true => exact iho rest (by omega)
    obtain ⟨hmem, hpre'⟩ := mem_codewords_node.2 ⟨w, hw, hpre, rfl⟩
    refine ⟨_, hmem, hpre', fun w' hw' hp' => ?_⟩
    obtain ⟨w'', hw'', hpre'', rfl⟩ := mem_codewords_node.1 ⟨hw', hp'⟩
    rw [huniq w'' hw'' hpre'']

/-- Settles O49: the code in general, and the values and depths of the tables by evaluation. -/
theorem treesAreCompletePrefixCodes : Obligations.TreesAreCompletePrefixCodes := by
  unfold Obligations.TreesAreCompletePrefixCodes
  refine ⟨exists_unique_codeword, ?_, ?_, ?_, ?_, ?_, ?_⟩ <;> decide +kernel

end Sys2Proof.Machine
end

section
/-!
PROOFS. What a command leaves unchanged (20_memory.md, 40_engine.md, 42_binarization.md, 43_mbtype_trees.md): the frames of the
commands that decode bins, of ENGINIT and ALIGN, and for every command the order of the bits and the one response.
-/
namespace Sys2Proof.Machine

/-! ### Commands without CSEL traffic -/

/-- A command whose body carries no CSEL traffic ends with its response or waits on the bit port, with the registers that the body
left, after a change of its own contexts alone. -/
theorem exec_quiet {i : Instr} {s t : State} (hready : Ready i s) (h : exec i s = .next t) (ht : t.FAULT = .none)
    (hframe : BinFrame (ownContexts i) s (commandBody i s).state) (hquiet : Quiet s (commandBody i s)) :
    ((∃ u : State, BinFrame (ownContexts i) s u ∧ ((∃ v, t = u.respond 0#3 v) ∨ t = u.waitOn .bit)) ∧
      t.cselAns = s.cselAns ∧ t.cselReqs = s.cselReqs ∧ ∀ c, c ∉ ownContexts i → t.ctxRead c = s.ctxRead c) ∧
    t.codIRange = (commandBody i s).state.codIRange ∧ t.engState = (commandBody i s).state.engState := by
  have hread (c : CtxIdx) (hc : c ∉ ownContexts i) := hframe.ctxRead_quiet hquiet.1 hc
  obtain ⟨v, u, hr, rfl⟩ | ⟨p, u, hr, rfl⟩ := exec_unfaulted hready h ht
  · rw [hr] at hframe hquiet hread ⊢
    exact ⟨⟨⟨u, hframe, .inl ⟨v, rfl⟩⟩, hquiet.1, hquiet.2.1, hread⟩, rfl, rfl⟩
  · obtain rfl := hquiet.2.2 p u hr
    rw [hr] at hframe hquiet hread ⊢
    exact ⟨⟨⟨u, hframe, .inr rfl⟩, hquiet.1, hquiet.2.1, hread⟩, rfl, rfl⟩

/-- The engine's state stays through pieces of a command that each keep it. -/
def KeepsEngState {α : Type} (s : State) (r : Res α) : Prop := r.state.engState = s.engState

theorem KeepsEngState.bind {α β : Type} {s : State} {r : Res α} {k : α → State → Res β} (h : KeepsEngState s r)
    (hk : ∀ a s', KeepsEngState s' (k a s')) : KeepsEngState s (r.bind k) :=
  state_bind (R := fun s t => t.engState = s.engState) (fun h h' => h'.trans h) h fun a s' _ => hk a s'

theorem readBit_engState (s : State) : KeepsEngState s (readBit s) := by
  obtain ⟨b, rest, -, e⟩ | ⟨-, -, e⟩ | ⟨-, -, e⟩ := readBit_cases s <;> rw [e] <;> rfl

theorem renormLoop_engState (fuel : Nat) (s : State) : KeepsEngState s (renormLoop fuel s) := by
  induction fuel generalizing s with
  | zero => rfl
  | succ fuel ih =>
    unfold renormLoop
    split
    · exact KeepsEngState.bind (s := s) (readBit_engState (s.setRange _)) fun b s' => ih (s'.setOffset _)
    · rfl

/-- A terminate bin alone moves the engine's state (R97). -/
theorem decodeBin_engState {kind : BinKind} (h : kind ≠ .trm) (s : State) : KeepsEngState s (decodeBin kind s) := by
  cases kind with
  | trm => exact absurd rfl h
  | dec c =>
    rw [decodeBin, decodeDecision, KeepsEngState, state_map]
    exact renormLoop_engState _ _
  | byp =>
    refine KeepsEngState.bind (readBit_engState s) fun b s' => ?_
    dsimp only
    split <;> rfl

theorem binOf_engState {kind : BinKind} (h : kind ≠ .trm) (s : State) : KeepsEngState s (binOf kind s) := by
  unfold binOf
  split
  · exact decodeBin_engState h s
  · rfl

/-- A table that cannot end the codeword keeps the engine's state. -/
theorem runTree_engState {t : BinTree} (ht : endsAtPcm none t = true) (s : State) : KeepsEngState s (runTree t s) := by
  induction t generalizing s with
  | leaf v => rfl
  | node kind zero one ihz iho =>
    have hkind : kind ≠ .trm := by
      rintro rfl
      obtain ⟨v, -, hpcm, -⟩ := endsAtPcm_trm ht
      cases hpcm
    obtain ⟨hzero, hone⟩ := endsAtPcm_node hkind ht
    refine KeepsEngState.bind (binOf_engState hkind s) fun b s' => ?_
    split
    · exact iho hone s'
    · exact ihz hzero s'

theorem decodeBypass_codIRange (s : State) : (decodeBypass s).state.codIRange = s.codIRange := by
  refine state_bind (R := fun s t => t.codIRange = s.codIRange) (fun h h' => h'.trans h) ?_ fun b s' _ => ?_
  · obtain ⟨b, rest, -, e⟩ | ⟨-, -, e⟩ | ⟨-, -, e⟩ := readBit_cases s <;> rw [e] <;> rfl
  · dsimp only
    split <;> rfl

/-- The command that decodes one bin of a kind (R102 to R104). -/
def binCommand : BinKind → Instr
  | .dec c => .dec c
  | .byp => .byp
  | .trm => .trm

theorem commandBody_binCommand (kind : BinKind) (s : State) :
    commandBody (binCommand kind) s = (decodeBin kind s).map bitWord := by
  cases kind <;> rfl

theorem binCommand_ne_trm {kind : BinKind} (h : binCommand kind ≠ .trm) : kind ≠ .trm := by
  rintro rfl
  exact h rfl

theorem eq_byp_of_binCommand {kind : BinKind} (h : binCommand kind = .byp) : kind = .byp := by
  cases kind with
  | byp => rfl
  | dec _ | trm => cases h

theorem ownContexts_binCommand {kind : BinKind} {c : CtxIdx} (h : binCommand kind ≠ .dec c) :
    c ∉ ownContexts (binCommand kind) := by
  cases kind with
  | dec d =>
    rintro hc
    obtain rfl := List.mem_singleton.1 hc
    exact h rfl
  | byp | trm => exact List.not_mem_nil

/-- Settles O52: the body is one bin, which carries no CSEL traffic. -/
theorem frameOfEngineBins : Obligations.FrameOfEngineBins := by
  unfold Obligations.FrameOfEngineBins
  intro i s t hi hready hexec ht
  obtain ⟨kind, rfl⟩ : ∃ kind, i = binCommand kind := by
    obtain ⟨c, rfl⟩ | rfl | rfl := hi
    · exact ⟨.dec c, rfl⟩
    · exact ⟨.byp, rfl⟩
    · exact ⟨.trm, rfl⟩
  have hframe : BinFrame (ownContexts (binCommand kind)) s (commandBody (binCommand kind) s).state := by
    refine commandBody_frame ?_ ?_ ?_ hready.2.2 <;> cases kind <;> simp [binCommand]
  have hquiet : Quiet s (commandBody (binCommand kind) s) := by
    rw [commandBody_binCommand]
    exact (decodeBin_quiet kind s).map
  obtain ⟨⟨hends, hans, hreqs, hread⟩, hrange, heng⟩ := exec_quiet hready hexec ht hframe hquiet
  rw [commandBody_binCommand, state_map] at hrange heng
  refine ⟨hends, hans, hreqs, fun c hc => hread c (ownContexts_binCommand hc), fun hbyp => ?_, fun htrm => ?_⟩
  · obtain rfl := eq_byp_of_binCommand hbyp
    exact hrange.trans (decodeBypass_codIRange s)
  · exact heng.trans (decodeBin_engState (binCommand_ne_trm htrm) s)

/-- Settles O54: the body is the walk of a table, which carries no CSEL traffic. -/
theorem frameOfTreeCommands : Obligations.FrameOfTreeCommands := by
  unfold Obligations.FrameOfTreeCommands
  intro i s t hi hready hexec ht
  have hquiet : Quiet s (commandBody i s) := by
    obtain ⟨a, rfl⟩ | ⟨a, b, rfl⟩ | rfl | ⟨a, rfl⟩ | rfl | rfl := hi <;> exact (runTree_quiet _ s).map
  have hframe : BinFrame (ownContexts i) s (commandBody i s).state := by
    refine commandBody_frame ?_ ?_ ?_ hready.2.2 <;>
      obtain ⟨a, rfl⟩ | ⟨a, b, rfl⟩ | rfl | ⟨a, rfl⟩ | rfl | rfl := hi <;> simp
  obtain ⟨⟨hends, hans, hreqs, hread⟩, -, heng⟩ := exec_quiet hready hexec ht hframe hquiet
  refine ⟨hends, hans, hreqs, hread, fun hsub => ?_⟩
  obtain ⟨-, -, -, -, hsP, hsB⟩ := tables_endAtPcm
  obtain rfl | rfl := hsub <;> rw [heng, commandBody, treeBody, state_map]
  · exact runTree_engState hsP s
  · exact runTree_engState hsB s

/-- Settles O53: the body stays in the frame of no fixed entry. -/
theorem frameOfQueriedBinarizations : Obligations.FrameOfQueriedBinarizations := by
  unfold Obligations.FrameOfQueriedBinarizations
  intro i s t hi hready hexec ht
  have hframe : BinFrame [] s (commandBody i s).state := by
    obtain rfl | ⟨c, rfl⟩ | ⟨c, rfl⟩ | ⟨g, k, c, rfl⟩ | rfl | ⟨c, rfl⟩ := hi <;>
      exact commandBody_frame (by simp) (by simp) (by simp) hready.2.2
  obtain ⟨v, u, hr, rfl⟩ | ⟨p, u, hr, rfl⟩ := exec_unfaulted hready hexec ht <;> rw [hr] at hframe
  · exact ⟨u, hframe, .inl ⟨v, rfl⟩⟩
  · exact ⟨u, hframe, .inr ⟨p, rfl⟩⟩

/-! ### ENGINIT and ALIGN (R100, R101) -/

theorem readBits_bitPort (n v : Nat) (s : State) : BitPortOnly s (readBits n v s).state := by
  induction n generalizing v s with
  | zero => exact .refl s
  | succ n ih => exact state_bind (R := BitPortOnly) BitPortOnly.trans (readBit_bitPort s) fun b s' _ => ih _ s'

/-- From `s` to `t` the bit port moved, and of the registers at most codIRange, codIOffset and engState. -/
def EngineAndBitPort (s t : State) : Prop :=
  t.ctx = s.ctx ∧ t.ctxValid = s.ctxValid ∧ t.rom = s.rom ∧ t.bitEnd = s.bitEnd ∧ t.cmds = s.cmds ∧
    t.rspHeld = s.rspHeld ∧ t.cselAns = s.cselAns ∧ t.cselReqs = s.cselReqs ∧ t.freeCount = s.freeCount ∧
    (∃ asked : Nat, t.alignsLeft = s.alignsLeft.map (· - asked)) ∧
    (∃ taken : List Bool, s.bits = taken ++ t.bits ∧ t.pos = s.pos + taken.length)

theorem BitPortOnly.engineAndBitPort {s t : State} (h : BitPortOnly s t) : EngineAndBitPort s t := by
  obtain ⟨taken, asked, hbits, e⟩ := h
  refine ⟨?_, ?_, ?_, ?_, ?_, ?_, ?_, ?_, ?_, ⟨asked, ?_⟩, ⟨taken, hbits, ?_⟩⟩ <;> rw [e]

theorem enginitBody_engineAndBitPort (s : State) :
    EngineAndBitPort s (enginitBody s).state ∧ (enginitBody s).state.alignsLeft = s.alignsLeft := by
  have hport := (readBits_bitPort 9 0 s).engineAndBitPort
  have haligns := (readBits_frame [] 9 0 s).alignsLeft
  obtain ⟨v, t, e, -, e'⟩ | ⟨v, t, e, -, e'⟩ | ⟨f, t, e, e'⟩ | ⟨p, t, e, e'⟩ := enginitBody_cases s <;>
    rw [e] at hport haligns <;> rw [e'] <;> exact ⟨hport, haligns⟩

/-- Settles O55: the bits and the answers to `aligned?`, and ENGINIT's three registers. -/
theorem frameOfEnginitAndAlign : Obligations.FrameOfEnginitAndAlign := by
  unfold Obligations.FrameOfEnginitAndAlign
  intro i s t hi hready hexec ht
  have hport : EngineAndBitPort s (commandBody i s).state := by
    obtain rfl | ⟨f, rfl⟩ := hi
    · exact (enginitBody_engineAndBitPort s).1
    · exact (alignBody_bitPort f s).engineAndBitPort
  have hregs : i ≠ .enginit → (commandBody i s).state.codIRange = s.codIRange ∧
      (commandBody i s).state.codIOffset = s.codIOffset ∧ (commandBody i s).state.engState = s.engState := by
    intro hne
    obtain ⟨f, rfl⟩ := hi.resolve_left hne
    obtain ⟨taken, asked, -, e⟩ := alignBody_bitPort f s
    rw [e]
    exact ⟨rfl, rfl, rfl⟩
  have haligns : i = .enginit → (commandBody i s).state.alignsLeft = s.alignsLeft := by
    rintro rfl
    exact (enginitBody_engineAndBitPort s).2
  obtain ⟨v, u, hr, rfl⟩ | ⟨p, u, hr, rfl⟩ := exec_unfaulted hready hexec ht <;> rw [hr] at hport hregs haligns <;>
    obtain ⟨hctx, hvalid, hrom, hend, hcmds, hheld, hans, hreqs, hfree, hasked, htaken⟩ := hport <;>
    exact ⟨hctx, hvalid, hrom, hend, hcmds, hheld, hans, hreqs, hfree, hregs, haligns, hasked, htaken⟩

/-! ### Every command -/

/-- How a command ends changes nothing of the bit port, the ROM and the words to come. -/
theorem finish_outside (r : Res Word) : (finish r).bits = r.state.bits ∧ (finish r).pos = r.state.pos ∧
    (finish r).rom = r.state.rom ∧ (finish r).bitEnd = r.state.bitEnd ∧ (finish r).cmds = r.state.cmds ∧
    (finish r).alignsLeft = r.state.alignsLeft := by
  cases r <;> exact ⟨rfl, rfl, rfl, rfl, rfl, rfl⟩

theorem commandBody_takes_no_bit {i : Instr}
    (h : (∃ qp sel, i = .ctxinit qp sel) ∨ i = .statrd ∨ ∃ c, i = .ctxrd c) (s : State) :
    (commandBody i s).state.bits = s.bits ∧ (commandBody i s).state.pos = s.pos := by
  obtain ⟨qp, sel, rfl⟩ | rfl | ⟨c, rfl⟩ := h <;> exact ⟨rfl, rfl⟩

/-- Settles O56: the body, and that no end of a command touches the bit port. -/
theorem bitsAreConsumedInOrder : Obligations.BitsAreConsumedInOrder := by
  unfold Obligations.BitsAreConsumedInOrder
  intro i s t hexec
  obtain ⟨-, rfl⟩ | ⟨-, -, rfl⟩ | ⟨⟨-, -, hp⟩, rfl⟩ := exec_cases hexec
  · exact ⟨⟨[], rfl, rfl⟩, fun _ => ⟨rfl, rfl⟩, rfl, rfl, rfl, fun _ => rfl⟩
  · exact ⟨⟨[], rfl, rfl⟩, fun _ => ⟨rfl, rfl⟩, rfl, rfl, rfl, fun _ => rfl⟩
  · obtain ⟨hbits, hpos, hrom, hbitEnd, hcmds, haligns⟩ := finish_outside (commandBody i s)
    obtain ⟨htaken, hrom', hbitEnd', hcmds', -, -, -, -, haligns'⟩ := commandBody_outside hp
    rw [hbits, hpos, hrom, hbitEnd, hcmds, haligns]
    exact ⟨htaken, fun h => commandBody_takes_no_bit h s, hrom', hbitEnd', hcmds', haligns'⟩

/-- The end of a command gives one response, of value 0 unless it is OK, or none and a wait. -/
theorem finish_responds (r : Res Word) :
    ((finish r).wait = r.state.wait ∧
      ∃ p : Response, (finish r).rsps = r.state.rsps ++ [p] ∧ (p.status ≠ 0#3 → p.value = 0#32)) ∨
    ((finish r).wait ≠ none ∧ (finish r).rsps = r.state.rsps) := by
  cases r with
  | ok v s => exact .inl ⟨rfl, _, rfl, fun h => absurd rfl h⟩
  | raise f s => exact .inl ⟨rfl, _, rfl, fun _ => rfl⟩
  | wait p s => exact .inr ⟨Option.some_ne_none p, rfl⟩

/-- Every command, however it ends, gives one response, of value 0 unless it is OK, or none and a wait (R31, R78). -/
theorem exec_responds {i : Instr} {s t : State} (h : exec i s = .next t) :
    (t.wait = s.wait ∧ ∃ p : Response, t.rsps = s.rsps ++ [p] ∧ (p.status ≠ 0#3 → p.value = 0#32)) ∨
    (t.wait ≠ none ∧ t.rsps = s.rsps) := by
  obtain ⟨-, rfl⟩ | ⟨-, -, rfl⟩ | ⟨⟨-, -, hp⟩, rfl⟩ := exec_cases h
  · exact .inl ⟨rfl, _, rfl, fun _ => rfl⟩
  · exact .inl ⟨rfl, _, rfl, fun _ => rfl⟩
  · obtain ⟨-, -, -, -, hrsps, -, hwait, -⟩ := commandBody_outside hp
    have := finish_responds (commandBody i s)
    rwa [hrsps, hwait] at this

/-- Settles O57: by whether the command waits. -/
theorem oneResponsePerCommand : Obligations.OneResponsePerCommand := by
  unfold Obligations.OneResponsePerCommand
  intro i s t hs hexec
  obtain ⟨hwait, hone⟩ | ⟨hwait, hnone⟩ := exec_responds hexec
  · exact ⟨fun _ => hone, fun h => absurd (hwait.trans hs) h⟩
  · exact ⟨fun h => absurd h hwait, fun _ => hnone⟩

end Sys2Proof.Machine
end

section
/-!
PROOFS. Slice isolation (41_probability_state.md, R120): two blocks with the same view of the slice run every command alike, so after
the same CTXINIT they give the same responses.
-/
namespace Sys2Proof.Machine

/-! ### The view of the slice -/

/-- The two states are the same in all that bears on what a command does. -/
def SameSlice (s t : State) : Prop := sliceView s = sliceView t

/-- An update that commutes with the view keeps two states alike. -/
theorem SameSlice.update {s t : State} (h : SameSlice s t) (f : State → State)
    (hf : ∀ s, sliceView (f s) = f (sliceView s)) : SameSlice (f s) (f t) := by
  rw [SameSlice, hf s, hf t, h]

theorem SameSlice.field {α : Type} {s t : State} (h : SameSlice s t) (f : State → α) : f (sliceView s) = f (sliceView t) :=
  congrArg f h

theorem SameSlice.codIRange {s t : State} (h : SameSlice s t) : s.codIRange = t.codIRange := h.field State.codIRange
theorem SameSlice.codIOffset {s t : State} (h : SameSlice s t) : s.codIOffset = t.codIOffset := h.field State.codIOffset
theorem SameSlice.engState {s t : State} (h : SameSlice s t) : s.engState = t.engState := h.field State.engState
theorem SameSlice.ctxValid {s t : State} (h : SameSlice s t) : s.ctxValid = t.ctxValid := h.field State.ctxValid
theorem SameSlice.fault {s t : State} (h : SameSlice s t) : s.FAULT = t.FAULT := h.field State.FAULT
theorem SameSlice.rom {s t : State} (h : SameSlice s t) : s.rom = t.rom := h.field State.rom
theorem SameSlice.bits {s t : State} (h : SameSlice s t) : s.bits = t.bits := h.field State.bits
theorem SameSlice.bitEnd {s t : State} (h : SameSlice s t) : s.bitEnd = t.bitEnd := h.field State.bitEnd
theorem SameSlice.alignsLeft {s t : State} (h : SameSlice s t) : s.alignsLeft = t.alignsLeft := h.field State.alignsLeft
theorem SameSlice.cselAns {s t : State} (h : SameSlice s t) : s.cselAns = t.cselAns := h.field State.cselAns
theorem SameSlice.wait {s t : State} (h : SameSlice s t) : s.wait = t.wait := h.field State.wait
theorem SameSlice.pos {s t : State} (h : SameSlice s t) : s.pos % 8 = t.pos % 8 := h.field State.pos

theorem SameSlice.ctxRead {s t : State} (h : SameSlice s t) (c : CtxIdx) : s.ctxRead c = t.ctxRead c :=
  h.field (State.ctxRead · c)

theorem SameSlice.takeBit {s t : State} (h : SameSlice s t) (rest : List Bool) :
    SameSlice (s.takeBit rest) (t.takeBit rest) := by
  have hview (s : State) : sliceView (s.takeBit rest) =
      { sliceView s with bits := rest, pos := (s.pos % 8 + 1) % 8 } := by simp [sliceView, State.takeBit]
  rw [SameSlice, hview, hview, h.pos, h]

/-! ### Pieces of a command -/

/-- Two pieces of a command end alike, in states with the same view of the slice. -/
def AlikeSlice {α : Type} (r r' : Res α) : Prop := Alike SameSlice SameSlice r r'

theorem readBit_sameSlice {s t : State} (h : SameSlice s t) : AlikeSlice (readBit s) (readBit t) := by
  obtain ⟨b, rest, hb, e⟩ | ⟨hb, he, e⟩ | ⟨hb, he, e⟩ := readBit_cases s <;> rw [e]
  · rw [readBit_cons (h.bits ▸ hb)]
    exact .ok b (h.takeBit rest)
  · rw [readBit_exhausted (h.bits ▸ hb) (h.bitEnd ▸ he)]
    exact .raise _ h
  · rw [readBit_silent (h.bits ▸ hb) (h.bitEnd ▸ he)]
    exact .wait _ h

theorem readBits_sameSlice (n v : Nat) {s t : State} (h : SameSlice s t) :
    AlikeSlice (readBits n v s) (readBits n v t) := by
  induction n generalizing v s t with
  | zero => exact .ok v h
  | succ n ih => exact (readBit_sameSlice h).bind fun b _ _ h' => ih _ h'

theorem renormLoop_sameSlice (fuel : Nat) {s t : State} (h : SameSlice s t) :
    AlikeSlice (renormLoop fuel s) (renormLoop fuel t) := by
  induction fuel generalizing s t with
  | zero => exact .ok () h
  | succ fuel ih =>
    unfold renormLoop
    rw [h.codIRange]
    split
    · refine (readBit_sameSlice (h.update (State.setRange · _) fun _ => rfl)).bind fun b s' t' h' => ?_
      rw [h'.codIOffset]
      exact ih (h'.update (State.setOffset · _) fun _ => rfl)
    · exact .ok () h

theorem renormD_sameSlice {s t : State} (h : SameSlice s t) : AlikeSlice (renormD s) (renormD t) := by
  rw [renormD, renormD, h.bits]
  exact renormLoop_sameSlice _ h

theorem decodeBin_sameSlice (kind : BinKind) {s t : State} (h : SameSlice s t) :
    AlikeSlice (decodeBin kind s) (decodeBin kind t) := by
  cases kind with
  | dec c =>
    simp only [decodeBin, decodeDecision]
    rw [h.ctxRead, h.codIRange, h.codIOffset]
    exact (renormD_sameSlice ((h.update (State.setEngine · _ _) fun _ => rfl).update (State.ctxWrite · _ _)
      fun _ => rfl)).map _
  | byp =>
    rw [decodeBin, decodeBin, decodeBypass, decodeBypass, h.codIRange, h.codIOffset]
    refine (readBit_sameSlice h).bind fun b s' t' h' => ?_
    dsimp only
    split
    · exact .ok _ (h'.update (State.setOffset · _) fun _ => rfl)
    · exact .ok _ (h'.update (State.setOffset · _) fun _ => rfl)
  | trm =>
    simp only [decodeBin, decodeTerminate]
    rw [h.codIRange, h.codIOffset]
    have hrange := h.update (State.setRange · (t.codIRange.toNat - 2)) fun _ => rfl
    split
    · exact .ok _ (hrange.update (State.setEngState · _) fun _ => rfl)
    · exact (renormD_sameSlice hrange).map _

theorem engActive_sameSlice {s t : State} (h : SameSlice s t) : engActive s = engActive t := by
  rw [engActive, engActive, h.engState]

theorem binOf_sameSlice (kind : BinKind) {s t : State} (h : SameSlice s t) :
    AlikeSlice (binOf kind s) (binOf kind t) := by
  rw [binOf, binOf, engActive_sameSlice h]
  split
  · exact decodeBin_sameSlice kind h
  · exact .raise _ h

theorem csel_sameSlice (opc : Opcode) (part : Bool) (n : Nat) (prev : BitVec 16) {s t : State} (h : SameSlice s t) :
    AlikeSlice (csel opc part n prev s) (csel opc part n prev t) := by
  cases hans : t.cselAns with
  | nil =>
    rw [csel_unanswered (h.cselAns.trans hans), csel_unanswered hans]
    exact .wait _ h
  | cons a rest =>
    rw [csel_answered (h.cselAns.trans hans), csel_answered hans]
    exact .ok a (h.update (State.takeAnswer · rest) fun _ => rfl)

theorem askAligned_sameSlice {s t : State} (h : SameSlice s t) : AlikeSlice (askAligned s) (askAligned t) := by
  rw [askAligned, askAligned, h.alignsLeft, byteAligned, byteAligned, h.pos]
  split
  · exact .wait _ h
  · exact .ok _ (h.update State.takeAligned fun _ => rfl)

theorem alignLoop_sameSlice (f : Bool) (fuel n : Nat) {s t : State} (h : SameSlice s t) :
    AlikeSlice (alignLoop f fuel n s) (alignLoop f fuel n t) := by
  induction fuel generalizing n s t with
  | zero => exact .ok n h
  | succ fuel ih =>
    refine (askAligned_sameSlice h).bind fun aligned s1 t1 h1 => ?_
    split
    · exact .ok n h1
    · refine (readBit_sameSlice h1).bind fun b s2 t2 h2 => ?_
      split
      · exact ih _ h2
      · exact .raise _ h2

theorem freshSlice_sameSlice (qp : BitVec 7) (sel : BitVec 2) {s t : State} (hrom : s.rom = t.rom)
    (hbits : s.bits = t.bits) (hbitEnd : s.bitEnd = t.bitEnd) (haligns : s.alignsLeft = t.alignsLeft)
    (hpos : s.pos % 8 = t.pos % 8) (hans : s.cselAns = t.cselAns) (hwait : s.wait = t.wait) :
    SameSlice (freshSlice qp sel s) (freshSlice qp sel t) := by
  simp only [SameSlice, sliceView, freshSlice, State.freshRegisters, State.ctxWrite, hrom, hbits, hbitEnd, haligns, hpos,
    hans, hwait]

theorem enginitBody_sameSlice {s t : State} (h : SameSlice s t) : AlikeSlice (enginitBody s) (enginitBody t) := by
  refine (readBits_sameSlice 9 0 h).bind fun v s' t' h' => ?_
  split
  · exact .raise _ h'
  · exact .ok _ ((h'.update (State.setEngine · _ _) fun _ => rfl).update (State.setEngState · _) fun _ => rfl)

theorem precondition_sameSlice (i : Instr) {s t : State} (h : SameSlice s t) : precondition i s = precondition i t := by
  cases i <;> simp only [precondition, engActive_sameSlice h, h.ctxValid]

theorem statusWord_sameSlice {s t : State} (h : SameSlice s t) : statusWord s = statusWord t := by
  simp only [statusWord, h.codIRange, h.codIOffset, h.engState, h.ctxValid, h.fault]

/-- Every command's body runs alike in states with the same view of the slice. -/
theorem commandBody_sameSlice {i : Instr} {s t : State} (hp : precondition i s = true) (h : SameSlice s t) :
    AlikeSlice (commandBody i s) (commandBody i t) := by
  obtain hi | ⟨qp, sel, rfl⟩ | ⟨f, rfl⟩ | rfl | ⟨c, rfl⟩ | rfl := decodesBins_or i
  · exact commandBody_alike (fun kind _ _ => binOf_sameSlice kind)
      (fun opc part n prev _ _ => csel_sameSlice opc part n prev) (fun _ _ h => h) hi hp
      ((precondition_sameSlice i h).symm.trans hp) h
  · exact .ok _ (freshSlice_sameSlice qp sel h.rom h.bits h.bitEnd h.alignsLeft h.pos h.cselAns h.wait)
  · exact (alignLoop_sameSlice f 8 0 h).map _
  · exact enginitBody_sameSlice h
  · rw [commandBody, commandBody, h.ctxRead]
    exact .ok _ h
  · rw [commandBody, commandBody, statusWord_sameSlice h]
    exact .ok _ h

/-! ### The end of a command and the step -/

theorem faultCode_ne_zero {f : FaultCode} (h : f ≠ .none) : faultCode f ≠ 0#3 := by
  cases f with
  | none => exact absurd rfl h
  | streamExhaustion | structuralViolation | unboundedLoopDetected | unsupportedFeature | invalidDerivationRequest => decide

/-- The responses `given` report no fault. -/
def ReportsNoFault (given : List Response) : Prop := ∀ r ∈ given, r.status = 0#3

/-- One response with a fault's code is not among responses that report none. -/
theorem not_reportsNoFault {l given : List Response} {f : FaultCode} {v : Word} (hf : f ≠ .none)
    (h : l ++ [⟨faultCode f, v⟩] = l ++ given) : ¬ ReportsNoFault given := by
  intro hok
  refine faultCode_ne_zero hf (hok ⟨faultCode f, v⟩ ?_)
  rw [← List.append_cancel_left h]
  exact List.mem_singleton_self _

/-- Two commands that end alike and without a fault give the same responses. -/
theorem finish_sameSlice {r r' : Res Word} {given : List Response} (h : AlikeSlice r r')
    (hraises : Raises (fun f _ => f ≠ .none) r) (hrsps : (finish r).rsps = r.state.rsps ++ given)
    (hok : ReportsNoFault given) : (finish r').rsps = r'.state.rsps ++ given ∧ SameSlice (finish r) (finish r') := by
  cases r <;> cases r' <;> simp only [AlikeSlice, Alike] at h
  case ok.ok v s w t =>
    obtain ⟨rfl, h⟩ := h
    rw [← List.append_cancel_left hrsps]
    exact ⟨rfl, h⟩
  case raise.raise f s g t => exact absurd hok (not_reportsNoFault (hraises f s rfl) hrsps)
  case wait.wait p s q t =>
    obtain ⟨rfl, h⟩ := h
    have hnone : given = [] := by simpa [finish] using hrsps
    rw [hnone]
    exact ⟨(List.append_nil _).symm, h.update (State.waitOn · p) fun _ => rfl⟩

theorem exec_sameSlice {i : Instr} {s t s' : State} {given : List Response} (h : SameSlice s t)
    (hexec : exec i s = .next s') (hrsps : s'.rsps = s.rsps ++ given) (hok : ReportsNoFault given) :
    ∃ t', exec i t = .next t' ∧ t'.rsps = t.rsps ++ given ∧ SameSlice s' t' := by
  obtain ⟨href, rfl⟩ | ⟨-, -, rfl⟩ | ⟨hready, rfl⟩ := exec_cases hexec
  · exact absurd hok (not_reportsNoFault (isRefused_iff.1 href).1 hrsps)
  · exact absurd hok (not_reportsNoFault FaultCode.noConfusion hrsps)
  obtain ⟨href, hwf, hp⟩ := hready
  have hp' : precondition i t = true := (precondition_sameSlice i h).symm.trans hp
  have hready' : Ready i t := ⟨by rwa [isRefused, ← h.fault], hwf, hp'⟩
  have hbody : (commandBody i s).state.rsps = s.rsps := (commandBody_outside hp).2.2.2.2.1
  have hbody' : (commandBody i t).state.rsps = t.rsps := (commandBody_outside hp').2.2.2.2.1
  rw [← hbody] at hrsps
  rw [← hbody']
  exact ⟨_, exec_ready hready', finish_sameSlice (commandBody_sameSlice hp h)
    ((commandBody_raises i s).mono fun _ _ => bodyFaults_ne_none) hrsps hok⟩

/-- No command touches what the host has presented, nor takes a response from it. -/
theorem exec_host {i : Instr} {s t : State} (h : exec i s = .next t) : t.cmds = s.cmds ∧ t.rspHeld = s.rspHeld := by
  obtain ⟨-, rfl⟩ | ⟨-, -, rfl⟩ | ⟨⟨-, -, hp⟩, rfl⟩ := exec_cases h
  · exact ⟨rfl, rfl⟩
  · exact ⟨rfl, rfl⟩
  · obtain ⟨-, -, -, hcmds, -, hheld, -⟩ := commandBody_outside hp
    rw [← hcmds, ← hheld]
    cases commandBody i s <;> exact ⟨rfl, rfl⟩

/-- Two blocks with the same view of the slice that are given the same words. -/
def Twins (a b : State) : Prop := SameSlice a b ∧ a.cmds = b.cmds ∧ a.rspHeld = b.rspHeld

theorem acceptCommand_twins {a b : State} (h : Twins a b) :
    (acceptCommand a = none ∧ acceptCommand b = none) ∨
    ∃ w rest, acceptCommand a = some (w, { a with cmds := rest }) ∧
      acceptCommand b = some (w, { b with cmds := rest }) := by
  obtain ⟨hslice, hcmds, hheld⟩ := h
  unfold acceptCommand
  rw [hslice.wait, hheld, hcmds]
  split
  · exact .inl ⟨rfl, rfl⟩
  · cases b.cmds with
    | nil => exact .inl ⟨rfl, rfl⟩
    | cons w rest => exact .inr ⟨w, rest, rfl, rfl⟩

/-- An illegal word reports a fault, by refusal or by fault entry. -/
theorem illegalWord_reports_fault {w : Word} {s : State} {given : List Response}
    (h : (illegalWord w s).rsps = s.rsps ++ given) : ¬ ReportsNoFault given := by
  by_cases href : isRefused (opcodeField w) s = true
  · rw [illegalWord_refused href] at h
    exact not_reportsNoFault (isRefused_iff.1 href).1 h
  · rw [illegalWord_not_refused href] at h
    exact not_reportsNoFault FaultCode.noConfusion h

theorem step_twins {a b a' : State} {given : List Response} (h : Twins a b) (hstep : step a = .next a')
    (hrsps : a'.rsps = a.rsps ++ given) (hok : ReportsNoFault given) :
    ∃ b', step b = .next b' ∧ b'.rsps = b.rsps ++ given ∧ Twins a' b' := by
  obtain ⟨ha, hb⟩ | ⟨w, rest, ha, hb⟩ := acceptCommand_twins h
  · rw [step_hold ha] at hstep
    cases hstep
    have hnone : given = [] := by simpa using hrsps
    exact ⟨b, step_hold hb, by rw [hnone, List.append_nil], h⟩
  cases hd : decode w with
  | error e =>
    rw [step_illegal ha hd] at hstep
    cases hstep
    exact absurd hok (illegalWord_reports_fault (s := { a with cmds := rest }) hrsps)
  | ok i =>
    rw [step_command ha hd] at hstep
    obtain ⟨hslice, -, hheld⟩ := h
    have hslice' : SameSlice { a with cmds := rest } { b with cmds := rest } := hslice
    obtain ⟨b', hexec, hrsps', hs⟩ := exec_sameSlice hslice' hstep hrsps hok
    obtain ⟨hcmdsA, hheldA⟩ := exec_host hstep
    obtain ⟨hcmdsB, hheldB⟩ := exec_host hexec
    exact ⟨b', (step_command hb hd).trans hexec, hrsps', hs, hcmdsA.trans hcmdsB.symm,
      (hheldA.trans hheld).trans hheldB.symm⟩

/-! ### Runs -/

/-- A step adds to the responses. -/
theorem step_rsps {s t : State} (h : step s = .next t) : ∃ given, t.rsps = s.rsps ++ given := by
  obtain haccept | ⟨w, rest, haccept⟩ := acceptCommand_cases s
  · rw [step_hold haccept] at h
    cases h
    exact ⟨[], (List.append_nil _).symm⟩
  cases hd : decode w with
  | ok i =>
    rw [step_command haccept hd] at h
    obtain ⟨-, p, hp, -⟩ | ⟨-, hnone⟩ := exec_responds h
    · exact ⟨[p], hp⟩
    · exact ⟨[], hnone.trans (List.append_nil _).symm⟩
  | error e =>
    rw [step_illegal haccept hd] at h
    cases h
    unfold illegalWord
    split <;> exact ⟨_, rfl⟩

/-- A run that ends in a next state took a next state at its first step, on any machine. -/
theorem core_run_succ (M : Host.Core) {n : Nat} {a a' : M.State} :
    M.run (n + 1) a = .next a' ↔ ∃ m, M.step a = .next m ∧ M.run n m = .next a' := by
  rw [Host.Core.run]
  cases M.step a with
  | next m => simp
  | fault r => simp
  | refused r => simp

theorem run_succ {n : Nat} {a a' : State} : Host.Core.run Sys2Proof.core (n + 1) a = .next a' ↔
    ∃ m : State, step a = .next m ∧ Host.Core.run Sys2Proof.core n m = .next a' := core_run_succ Sys2Proof.core

theorem run_rsps {n : Nat} {a a' : State} (h : Host.Core.run Sys2Proof.core n a = .next a') :
    ∃ given, a'.rsps = a.rsps ++ given := by
  induction n generalizing a with
  | zero =>
    cases h
    exact ⟨[], (List.append_nil _).symm⟩
  | succ n ih =>
    obtain ⟨m, hstep, hrun⟩ := run_succ.1 h
    obtain ⟨g, hg⟩ := step_rsps hstep
    obtain ⟨g', hg'⟩ := ih hrun
    exact ⟨g ++ g', by rw [hg', hg, List.append_assoc]⟩

/-- The responses of a run, split after its first step. -/
theorem run_succ_rsps {n : Nat} {a a' : State} {given : List Response}
    (h : Host.Core.run Sys2Proof.core (n + 1) a = .next a') (hrsps : a'.rsps = a.rsps ++ given) :
    ∃ m g g', step a = .next m ∧ m.rsps = a.rsps ++ g ∧ Host.Core.run Sys2Proof.core n m = .next a' ∧
      a'.rsps = m.rsps ++ g' ∧ given = g ++ g' := by
  obtain ⟨m, hstep, hrun⟩ := run_succ.1 h
  obtain ⟨g, hg⟩ := step_rsps hstep
  obtain ⟨g', hg'⟩ := run_rsps hrun
  refine ⟨m, g, g', hstep, hg, hrun, hg', ?_⟩
  rw [hrsps, hg, List.append_assoc] at hg'
  exact List.append_cancel_left hg'

theorem run_twins {n : Nat} {a b a' : State} {given : List Response} (h : Twins a b)
    (hrun : Host.Core.run Sys2Proof.core n a = .next a') (hrsps : a'.rsps = a.rsps ++ given)
    (hok : ReportsNoFault given) : ∃ b' : State, Host.Core.run Sys2Proof.core n b = .next b' ∧
      b'.rsps = b.rsps ++ given ∧ SameSlice b' a' := by
  induction n generalizing a b given with
  | zero =>
    cases hrun
    have hnone : given = [] := by simpa using hrsps
    exact ⟨b, rfl, by rw [hnone, List.append_nil], h.1.symm⟩
  | succ n ih =>
    obtain ⟨m, g, g', hstep, hg, hrun', hg', rfl⟩ := run_succ_rsps hrun hrsps
    obtain ⟨hokg, hokg'⟩ := List.forall_mem_append.1 hok
    obtain ⟨m', hstep', hm', htwins⟩ := step_twins h hstep hg hokg
    obtain ⟨b', hrunb, hrspsb, hs⟩ := ih htwins hrun' hg' hokg'
    exact ⟨b', run_succ.2 ⟨m', hstep', hrunb⟩, by rw [hrspsb, hm', List.append_assoc], hs⟩

/-- The step that runs a CTXINIT. -/
theorem step_ctxinit {a : State} {qp : BitVec 7} {sel : BitVec 2} {words : List Word} (hidle : Idle a)
    (hcmds : a.cmds = encode (.ctxinit qp sel) :: words) :
    step a = .next ((freshSlice qp sel { a with cmds := words }).respond 0#3 0) := by
  rw [step_command (acceptCommand_idle hidle hcmds) (decodeOfEncodeIsTheCommand (.ctxinit qp sel) rfl), exec_ctxinit_ok]

/-- Settles O60: CTXINIT makes the blocks twins, and twins run alike. -/
theorem slicesAreIsolated : Obligations.SlicesAreIsolated := by
  unfold Obligations.SlicesAreIsolated
  intro n qp sel words a b a' given ha hb hrom hbits hbitEnd haligns hpos hans hcmds hcmds' hrun hrsps hok
  obtain ⟨m, g, g', hstep, hg, hrun', hg', rfl⟩ := run_succ_rsps hrun hrsps
  obtain ⟨-, hokg'⟩ := List.forall_mem_append.1 hok
  rw [step_ctxinit ha hcmds] at hstep
  cases hstep
  have htwins : Twins ((freshSlice qp sel { a with cmds := words }).respond 0#3 0)
      ((freshSlice qp sel { b with cmds := words }).respond 0#3 0) :=
    ⟨freshSlice_sameSlice qp sel (s := { a with cmds := words }) (t := { b with cmds := words }) hrom hbits hbitEnd haligns
      hpos hans (ha.1.trans hb.1.symm), rfl, ha.2.trans hb.2.symm⟩
  obtain ⟨b', hrunb, hrspsb, hs⟩ := run_twins htwins hrun' hg' hokg'
  refine ⟨b', run_succ.2 ⟨_, step_ctxinit hb (hcmds'.trans hcmds), hrunb⟩, ?_, hs⟩
  rw [hrspsb, ← List.append_cancel_left hg, ← List.append_assoc]
  rfl

end Sys2Proof.Machine
end
